-- ==== Sys2Proof/Word.lean ====
section
/-! DEFINITION. The one thing the engine treats as a word of bits: the 32-bit command word of R80. A bit of the sink or
the source (R9) is a `Bool`, `true` for 1, so that `!b` is the spec's `~b = 1 - b`; a symbol and every register value is
a natural number (R8, R51). -/

namespace Sys2Proof

/-- A command word `CW` (R80): one length, 32 bits. -/
abbrev Word := BitVec 32

end Sys2Proof
end

