-- ==== Sys2Proof/Config.lean ====
section
/-! DEFINITION. The parameters of one engine (R4 to R7; the constants of R5 stand in
Machine/Interval.lean), and the free values: what a register or a sequence that "holds no value" (R37, U7) contains. -/

namespace Sys2Proof

/-- `TARGET_RULE` (R7): which of the two decoder target formulas the engine uses. -/
inductive TargetRule where
  /-- R151, the default. -/
  | exact
  /-- R152, the document's literal formula. -/
  | trunc
  deriving DecidableEq, Repr

/-- The parameters fixed with one engine (R4, R7, R232).
`DEC_FUEL` is the host's and stands in `Machine/HostSide.lean` as an argument of the decode loop. -/
structure Config where
  /-- `P = PRECISION_BITS` (R4). -/
  prec : Nat
  /-- `SYM_BITS` (R7). -/
  symBits : Nat
  /-- `PEND_MAX` (R7); `none` is `infinity`, the default. -/
  pendMax : Option Nat
  /-- `TARGET_RULE` (R7). -/
  targetRule : TargetRule
  deriving DecidableEq, Repr

namespace Config

/-- The parameter ranges the spec gives a meaning: `P >= 2` (U14; a session needs `P >= 3`, R4)
and `1 <= SYM_BITS <= 24` (R7). -/
def wf (c : Config) : Bool :=
  decide (2 ≤ c.prec) && decide (1 ≤ c.symBits) && decide (c.symBits ≤ 24)

/-- The parameters of the spec's own vectors (95_test_vectors.md, Conventions): `P = 8`, `SYM_BITS = 9`,
`PEND_MAX = infinity`, `TARGET_RULE = EXACT`. The two last are the spec's defaults (R7); the two first are
open (D2, D6). DESIGN CHOICE, unsafe (log entry 1): used only where the interface asks for ONE reset state. -/
def vectors : Config := { prec := 8, symBits := 9, pendMax := none, targetRule := .exact }

/-- FREE VALUE (U7 "any value"): what register `reg` (numbered as R36 numbers it) contains after the
`draw`-th time registers were told to hold no value. No body: nothing is provable of it (log entry 4). -/
opaque freeReg (draw reg : Nat) : Nat

/-- FREE VALUE: what `OUT` contains while it holds no value (log entry 4). -/
opaque freeBits (draw : Nat) : List Bool

/-- FREE VALUE: what `SYMOUT` contains while it holds no value (log entry 4). -/
opaque freeSyms (draw : Nat) : List Nat

/-- FREE VALUE (R36, U7): what the host's read port returns, at its `draw`-th read, for a register `reg`
that holds no value; two reads need not agree (log entry 4). -/
opaque freeRead (draw reg : Nat) : Nat

end Config

end Sys2Proof
end

