-- ==== Sys2Proof/Syntax.lean ====
section
/-! DEFINITION. The seven commands of spec/opcode_table.json (R81), one constructor per row. The
micro-operations (NARROW, E1, ..., TARGET) have no encoding (R85) and are no constructors. -/

namespace Sys2Proof

/-- A command. -/
inductive Instr where
  /-- `NOP`, R180. -/
  | nop
  /-- `RESET`, R181. -/
  | reset
  /-- `ENC_INIT`, R120. -/
  | encInit
  /-- `ENC_SYM s`, R126. -/
  | encSym (s : Nat)
  /-- `ENC_FLUSH`, R128. -/
  | encFlush
  /-- `DEC_INIT`, R150. -/
  | decInit
  /-- `DEC_SYM`, R157. -/
  | decSym
  deriving DecidableEq, Repr

end Sys2Proof
end

