-- ==== Sys2Proof/WellFormed.lean ====
section
/-! DEFINITION. Which commands have an encoding (R82): only `ENC_SYM` has an operand, and it must be below
`2^SYM_BITS` and fit the 24-bit field `ARG`. -/

namespace Sys2Proof

/-- The command has an encoding on an engine whose symbols are `symBits` wide (R80, R82). -/
def Instr.wf (symBits : Nat) : Instr → Bool
  | .nop => true
  | .reset => true
  | .encInit => true
  | .encSym s => decide (s < 2 ^ symBits) && decide (s < 2 ^ 24)
  | .encFlush => true
  | .decInit => true
  | .decSym => true

end Sys2Proof
end

