-- ==== Sys2Proof/Decode.lean ====
section
/-! DEFINITION. From a command word to a command and back (R80 to R84): the decoder, total on every 32-bit
word and rejecting by name; the encoder, from the same table; the table's own match and mask columns. -/

namespace Sys2Proof

/-- Why a word is an illegal encoding (R84). -/
inductive DecodeError where
  /-- `OP` is not one of the seven listed values (R81, R84). -/
  | reservedOpcode
  /-- `ARG` is not zero where it must be (R83). -/
  | nonzeroArg
  /-- `ENC_SYM` with `ARG >= 2^SYM_BITS` (R82). -/
  | symbolTooWide
  deriving DecidableEq, Repr

/-- `OP = CW[31:24]` (R80). -/
def opField (cw : Word) : BitVec 8 := cw.extractLsb' 24 8

/-- `ARG = CW[23:0]` (R80). -/
def argField (cw : Word) : BitVec 24 := cw.extractLsb' 0 24

/-- A command whose `ARG` must be zero (R83). -/
def withoutArg (arg : Nat) (i : Instr) : Except DecodeError Instr :=
  if arg = 0 then .ok i else .error .nonzeroArg

/-- The command of a word, on an engine whose symbols are `symBits` wide (R81 to R84). -/
def decode (symBits : Nat) (cw : Word) : Except DecodeError Instr :=
  let arg := (argField cw).toNat
  match (opField cw).toNat with
  | 0x00 => withoutArg arg .nop
  | 0x01 => withoutArg arg .reset
  | 0x10 => withoutArg arg .encInit
  | 0x11 => if arg < 2 ^ symBits then .ok (.encSym arg) else .error .symbolTooWide
  | 0x12 => withoutArg arg .encFlush
  | 0x20 => withoutArg arg .decInit
  | 0x21 => withoutArg arg .decSym
  | _ => .error .reservedOpcode

/-- The opcode of a command (R81). -/
def Instr.opcode : Instr → BitVec 8
  | .nop => 0x00#8
  | .reset => 0x01#8
  | .encInit => 0x10#8
  | .encSym _ => 0x11#8
  | .encFlush => 0x12#8
  | .decInit => 0x20#8
  | .decSym => 0x21#8

/-- There is a word for the command: its operand fits the 24-bit field `ARG` (R80). `ENC_SYM` of 2^24 or more has none, and
the spec does not say what such a command is; `assembleLine` and `issueCommand` (Machine/HostSide.lean) settle it. DESIGN
CHOICE (log entry 16). -/
def Instr.hasWord : Instr → Bool
  | .nop => true
  | .reset => true
  | .encInit => true
  | .encSym s => decide (s < 2 ^ 24)
  | .encFlush => true
  | .decInit => true
  | .decSym => true

/-- The operand field of a command: the symbol of `ENC_SYM` (R82), zero otherwise (R83). For a command that `hasWord` says has
no word, the symbol's low 24 bits, which nothing uses (log entry 16). -/
def Instr.arg : Instr → BitVec 24
  | .nop => 0
  | .reset => 0
  | .encInit => 0
  | .encSym s => BitVec.ofNat 24 s
  | .encFlush => 0
  | .decInit => 0
  | .decSym => 0

/-- The word of a command (R80), where it has one (`Instr.hasWord`). -/
def encode (i : Instr) : Word := i.opcode ++ i.arg

/-- The `match` column of R81's table. -/
def Instr.matchBits : Instr → Word
  | .nop => 0x00000000#32
  | .reset => 0x01000000#32
  | .encInit => 0x10000000#32
  | .encSym _ => 0x11000000#32
  | .encFlush => 0x12000000#32
  | .decInit => 0x20000000#32
  | .decSym => 0x21000000#32

/-- The `mask` column of R81's table. -/
def Instr.maskBits : Instr → Word
  | .nop => 0xFFFFFFFF#32
  | .reset => 0xFFFFFFFF#32
  | .encInit => 0xFFFFFFFF#32
  | .encSym _ => 0xFF000000#32
  | .encFlush => 0xFFFFFFFF#32
  | .decInit => 0xFFFFFFFF#32
  | .decSym => 0xFFFFFFFF#32

/-- The command my decoder reads from a table row's `nbits` bits `w` (every row has 32), on the engine that
`Machine.State.reset` describes (`SYM_BITS` of `Config.vectors`, log entry 1). -/
def decodeTableWord (nbits w : Nat) : Option Instr :=
  match decode Config.vectors.symBits (BitVec.ofNat 32 (w % 2 ^ nbits)) with
  | .ok i => some i
  | .error _ => none

end Sys2Proof
end

