-- ==== Sys2Proof/Machine/State.lean ====
section
/-! DEFINITION. The state of one engine and of the spaces and the host's queue it is connected to, as plain
data; the two reasons a step can stop; the state after reset. INVENTORY.md, "State", lists every field with
the rule that names it. -/

namespace Sys2Proof.Machine

/-- `STATUS.PH` (R30). Value 6 is reserved and never taken, so it is no constructor. -/
inductive Phase where
  /-- 0: no session; after reset. -/
  | idle
  /-- 1: encoder session open, sentinel not yet encoded. -/
  | enc
  /-- 2: sentinel encoded, flush owed. -/
  | encEos
  /-- 3: flushed; `OUT` is the result. -/
  | encDone
  /-- 4: decoder session open, sentinel not yet decoded. -/
  | dec
  /-- 5: sentinel decoded; `SYMOUT` is the result. -/
  | decDone
  /-- 7: a fault was raised; only `RESET` leaves it. -/
  | fault
  deriving DecidableEq, Repr

/-- The six kinds of fault the engine raises (R200). Raising one is a next state (R208), never an end of the run. -/
inductive EngineFault where
  /-- 1 (R201). -/
  | emptyModelError
  /-- 2 (R203). -/
  | unknownSymbolError
  /-- 3 (R204). -/
  | decodeRangeError
  /-- 4 (R202). -/
  | precisionOverflowError
  /-- 5 (R205). -/
  | illegalCommand
  /-- 6 (R206). -/
  | pendingOverflow
  deriving DecidableEq, Repr

/-- Whose registers hold a value (R37): "an instance is one or the other for a whole session" (log entry 4). -/
inductive SessionKind where
  | encoder
  | decoder
  deriving DecidableEq, Repr

/-- A model table entry (R51). -/
structure Entry where
  symbol : Nat
  frequency : Nat
  /-- `cumulative_low`. -/
  cl : Nat
  /-- `cumulative_high`. -/
  ch : Nat
  deriving DecidableEq, Repr

/-- The space `MODEL` (R50, R51): the entries in table order and the two scalars. -/
structure ModelTable where
  entries : List Entry
  /-- `MODEL.total`. -/
  total : Nat
  /-- `MODEL.sentinel`. -/
  sentinel : Nat
  deriving DecidableEq, Repr

/-- What the host does to the engine, one item at a time (R11, R80, R230, R231). -/
inductive HostAction where
  /-- It issues a command word (R80). -/
  | command (cw : Word)
  /-- It asserts the external reset (R230). -/
  | resetLine
  /-- It writes the model table (R50: "written by the host only, outside sessions"). -/
  | loadModel (m : ModelTable)
  /-- It supplies the bit source (R60). -/
  | loadSource (bits : List Bool)
  deriving DecidableEq, Repr

/-- The engine, its spaces and the host's queue. -/
structure State where
  /-- The parameters of the engine; `PREC` (R28) is `cfg.prec`. -/
  cfg : Config
  /-- `STATUS.PH` (R30). -/
  ph : Phase
  /-- `STATUS.ERR` (R31); `none` is code 0. -/
  err : Option EngineFault
  /-- Whose registers hold a value (R37). -/
  held : Option SessionKind
  /-- `LOW` (R20). -/
  low : Nat
  /-- `HIGH` (R20). -/
  high : Nat
  /-- `PEND` (R24). -/
  pend : Nat
  /-- `CODE` (R25). -/
  code : Nat
  /-- `TOTAL` (R26). -/
  total : Nat
  /-- `SENT` (R27). -/
  sent : Nat
  /-- `OUTLEN` (R33). -/
  outlen : Nat
  /-- `CUR` (R34). -/
  cur : Nat
  /-- `SYMLEN` (R35). -/
  symlen : Nat
  /-- The bit sink `OUT`, first bit first (R59). -/
  out : List Bool
  /-- The decoded-symbol sequence `SYMOUT` (R61). -/
  symout : List Nat
  /-- The space `MODEL` (R51); no command writes it (R55). -/
  model : ModelTable
  /-- The bit source `IN` (R60); `INLEN` is its length. -/
  inp : List Bool
  /-- What the host does next, in order (R11, R39: "Commands arrive from the host one at a time"). The host's, not the engine's. -/
  inbox : List HostAction
  /-- The model's own: how many times registers were told to hold no value; the argument of `Config.freeReg`
  and its companions (log entry 4). -/
  draws : Nat
  deriving DecidableEq, Repr

/-- Why the machine is stuck: no rule gives the command an end. -/
inductive Fault where
  /-- Raised by `ENC_SYM` and `DEC_SYM` when the interval NARROW leaves makes the renormalization loop of R106
  endless (an empty interval, or one above the code space), which only a table that is not well-formed can
  cause (R101, U3). Safe: the hardware would not complete the command either (log entry 8). -/
  | endlessRenormalization
  /-- Raised by `ENC_SYM` and `DEC_SYM` in a state in which `TOTAL = 0` or `LOW > HIGH`: the rules would divide by
  zero (R110 says they never do). No run from reset reaches such a state. Safe (log entry 9). -/
  | noInterval
  deriving DecidableEq, Repr

/-- Why the model gives a step no meaning. -/
inductive Refusal where
  /-- Raised by `exec` for an instruction without a meaning; there is none. Safe. -/
  | notModelled (mnemonic : String)
  /-- Raised by `step` when the host writes `MODEL` or `IN` during a session, which R55, R60 and R233 forbid and
  U4 treats as "refuse". No command raises it. Safe (log entry 6). -/
  | spaceChangedInSession
  deriving DecidableEq, Repr

/-- The reset state of an engine with parameters `c` (R41, R230). `PH = IDLE`, `ERR = 0`, `PREC = P` are the
spec's; the registers R41 gives no value are 0 and the two output sequences empty, and the host's spaces and
queue are empty. DESIGN CHOICE, unsafe (log entries 2 and 3); `held = none` says that none of them holds a value. -/
def State.resetWith (c : Config) : State :=
  { cfg := c, ph := .idle, err := none, held := none,
    low := 0, high := 0, pend := 0, code := 0, total := 0, sent := 0,
    outlen := 0, cur := 0, symlen := 0, out := [], symout := [],
    model := { entries := [], total := 0, sentinel := 0 }, inp := [], inbox := [], draws := 0 }

/-- The reset state of the engine of the spec's vectors (log entry 1). -/
def State.reset : State := State.resetWith Config.vectors

end Sys2Proof.Machine
end

