-- ==== Sys2Proof/Machine/Flags.lean ====
section
/-! DEFINITION. The status word (R29 to R32) and the phase table (R90): the codes of `PH` and `ERR`, the
converging flag `CONV`, which command a phase accepts, which session a phase belongs to. -/

namespace Sys2Proof.Machine

/-- The value of `STATUS.PH` (R30). -/
def Phase.code : Phase → Nat
  | .idle => 0
  | .enc => 1
  | .encEos => 2
  | .encDone => 3
  | .dec => 4
  | .decDone => 5
  | .fault => 7

/-- The value of `STATUS.ERR` for a fault (R31, R200). -/
def EngineFault.code : EngineFault → Nat
  | .emptyModelError => 1
  | .unknownSymbolError => 2
  | .decodeRangeError => 3
  | .precisionOverflowError => 4
  | .illegalCommand => 5
  | .pendingOverflow => 6

/-- The value of `STATUS.ERR` (R31). -/
def errCode : Option EngineFault → Nat
  | none => 0
  | some e => e.code

/-- `STATUS.CONV` (R32): a pure function of `PH` and `PEND`, "not separate storage". -/
def conv (s : State) : Bool := decide ((s.ph = .enc ∨ s.ph = .encEos) ∧ 0 < s.pend)

/-- The states of the document's state-machine view (R32). -/
inductive IntervalView where
  /-- `NORMAL`. -/
  | normal
  /-- `CONVERGING(pending_count)`. -/
  | converging (pendingCount : Nat)
  deriving DecidableEq, Repr

/-- `NORMAL` or `CONVERGING(PEND)` (R32). -/
def intervalView (s : State) : IntervalView := if conv s then .converging s.pend else .normal

/-- The layout of `STATUS` (R29): `PH` in bits 2:0, `ERR` in bits 6:3, `CONV` in bit 7, zeros above. -/
def packStatus (ph : BitVec 3) (err : BitVec 4) (cv : Bool) : Word :=
  BitVec.setWidth 32 (BitVec.ofBool cv ++ err ++ ph)

/-- The register `STATUS` (R29). -/
def statusWord (s : State) : Word :=
  packStatus (BitVec.ofNat 3 s.ph.code) (BitVec.ofNat 4 (errCode s.err)) (conv s)

/-- The command is accepted in the phase (R90, second column). -/
def accepts : Instr → Phase → Bool
  | .nop, _ => true
  | .reset, _ => true
  | .encInit, ph => ph == .idle || ph == .encDone || ph == .decDone
  | .encSym _, ph => ph == .enc
  | .encFlush, ph => ph == .encEos
  | .decInit, ph => ph == .idle || ph == .encDone || ph == .decDone
  | .decSym, ph => ph == .dec

/-- A session is in progress: from its init command to `ENC_DONE`, `DEC_DONE` or `FAULT` (00_scope.md, Glossary). -/
def Phase.inSession : Phase → Bool
  | .idle => false
  | .enc => true
  | .encEos => true
  | .encDone => false
  | .dec => true
  | .decDone => false
  | .fault => false

/-- Whose registers hold a value in a phase other than `FAULT` (R37). -/
def Phase.session : Phase → Option SessionKind
  | .idle => none
  | .enc => some .encoder
  | .encEos => some .encoder
  | .encDone => some .encoder
  | .dec => some .decoder
  | .decDone => some .decoder
  | .fault => none

end Sys2Proof.Machine
end

