-- ==== Sys2Proof/Machine/Interval.lean ====
section
/-! DEFINITION. The interval unit as arithmetic on natural numbers (40_interval.md) and the target unit
(42_decoder.md section 2): the constants of R5, narrowing, the case test, the scalings, the two targets. All of it
is exact (R8, R110): where a subtraction stands, Laws/Interval.lean shows that it does not truncate. -/

namespace Sys2Proof

/-- `TOP_VALUE` (R5). -/
def Config.top (c : Config) : Nat := 2 ^ c.prec - 1

/-- `HALF` (R5); for `P = 0`, which R5 gives no value, the truncated subtraction's (log entry 13). -/
def Config.half (c : Config) : Nat := 2 ^ (c.prec - 1)

/-- `FIRST_QUARTER` (R5); for `P < 2`, which R5 gives no value, the truncated subtraction's (log entry 13). -/
def Config.firstQuarter (c : Config) : Nat := 2 ^ (c.prec - 2)

/-- `THIRD_QUARTER` (R5). -/
def Config.thirdQuarter (c : Config) : Nat := 3 * c.firstQuarter

namespace Machine

/-- The cases of renormalization (R103). -/
inductive RenormCase where
  | e1
  | e2
  | e3
  | stop
  deriving DecidableEq, Repr

/-- `range = HIGH - LOW + 1` (R22), for `LOW <= HIGH`. -/
def rangeOf (low high : Nat) : Nat := high + 1 - low

/-- `new_low` of R100. -/
def narrowLow (low high total cl : Nat) : Nat := low + rangeOf low high * cl / total

/-- `new_high + 1` of R100: the first code point above the narrowed interval. -/
def narrowEnd (low high total ch : Nat) : Nat := low + rangeOf low high * ch / total

/-- `CASE(LOW, HIGH)` (R103), in the order of the rule. -/
def caseOf (c : Config) (low high : Nat) : RenormCase :=
  if high < c.half then .e1
  else if c.half ≤ low then .e2
  else if c.firstQuarter ≤ low ∧ high < c.thirdQuarter then .e3
  else .stop

/-- What case `k` subtracts before it doubles (R104; for `CODE` R153 to R155, D13). -/
def offsetOf (c : Config) : RenormCase → Nat
  | .e1 => 0
  | .e2 => c.half
  | .e3 => c.firstQuarter
  | .stop => 0

/-- The scalings `S1`, `S2`, `S3` of a value and a fill bit (R104). -/
def scale (c : Config) (k : RenormCase) (x : Nat) (f : Bool) : Nat := 2 * (x - offsetOf c k) + f.toNat

/-- `TARGET` under `EXACT` (R151), on the integers, R57's targets being integers. DEDUCED (log entry 11). -/
def targetExact (low high code total : Nat) : Int :=
  (((code : Int) - low + 1) * total - 1) / (rangeOf low high : Int)

/-- `TARGET` under `TRUNC` (R152), on the integers. DEDUCED (log entry 11). -/
def targetTrunc (low high code total : Nat) : Int :=
  (((code : Int) - low) * total) / (rangeOf low high : Int)

/-- `TARGET` as the engine's `TARGET_RULE` selects it (R152: "A model must implement both rules and take
`TARGET_RULE` as a configuration field"). -/
def targetOf (r : TargetRule) (low high code total : Nat) : Int :=
  match r with
  | .exact => targetExact low high code total
  | .trunc => targetTrunc low high code total

end Machine

end Sys2Proof
end

