-- ==== Sys2Proof/Machine/Operands.lean ====
section
/-! DEFINITION. What the engine and the host read: the two lookups in the model table (R56, R57), what makes a table
well-formed (R51 to R53), and the host's register port and results (R36, R37, R182, R183). -/

namespace Sys2Proof.Machine

/-- `ModelBySymbol(s)` (R56): the first entry in table order with that symbol. -/
def ModelTable.bySymbol (m : ModelTable) (s : Nat) : Option Entry :=
  m.entries.find? (fun e => e.symbol == s)

/-- `ModelByTarget(t)` (R57): the first entry in table order with `cl <= t < ch`, for an integer `t`. -/
def ModelTable.byTarget (m : ModelTable) (t : Int) : Option Entry :=
  m.entries.find? (fun e => decide ((e.cl : Int) ≤ t ∧ t < (e.ch : Int)))

/-- The ranges of the entries follow one another from `a` to `z` (R52). -/
def tiles (a : Nat) : List Entry → Nat → Bool
  | [], z => a == z
  | e :: es, z => e.cl == a && tiles e.ch es z

/-- `ModelWF(MODEL)` (R52, R53): at least one entry (R51); `cumulative_low` of the first is 0, `cumulative_high` of each is
`cumulative_low` of the next and of the last is `total`; every frequency is at least 1 and is the width of its
range; the symbols ascend strictly; exactly one is the sentinel; `total > 0`. -/
abbrev ModelTable.WF (m : ModelTable) : Prop :=
  m.entries ≠ [] ∧
  tiles 0 m.entries m.total = true ∧
  (∀ e ∈ m.entries, 1 ≤ e.frequency ∧ e.ch = e.cl + e.frequency) ∧
  m.entries.Pairwise (fun a b => a.symbol < b.symbol) ∧
  (m.entries.filter (fun e => e.symbol == m.sentinel)).length = 1 ∧
  0 < m.total

/-- Every symbol of the table is `SYM_BITS` wide (R51). -/
abbrev ModelTable.Fits (m : ModelTable) (symBits : Nat) : Prop := ∀ e ∈ m.entries, e.symbol < 2 ^ symBits

/-- The eleven registers by number (R36); 11 and above do not exist. -/
def registerValue (s : State) : Nat → Option Nat
  | 0 => some s.cfg.prec
  | 1 => some (statusWord s).toNat
  | 2 => some s.low
  | 3 => some s.high
  | 4 => some s.pend
  | 5 => some s.code
  | 6 => some s.total
  | 7 => some s.sent
  | 8 => some s.outlen
  | 9 => some s.cur
  | 10 => some s.symlen
  | _ => none

/-- Which registers hold a value (R37), `held` being `none` before any session. -/
def holdsValue (held : Option SessionKind) (i : Nat) : Bool :=
  match held with
  | none => i ≤ 1
  | some .encoder => i ≤ 4 || i == 6 || i == 7 || i == 8
  | some .decoder => i ≤ 3 || i == 5 || i == 6 || i == 7 || i == 9 || i == 10

/-- `x[i]`, the host's `draw`-th read (R36, R182): the register's value where it holds one, a free value where it holds
none (U7), `none` where there is no such register. It is a function of the state: a read changes nothing. -/
def readPort (s : State) (draw i : Nat) : Option Nat :=
  (registerValue s i).map (fun v => if holdsValue s.held i then v else Config.freeRead draw i)

/-- The result of an encoder session (R59, R183): `OUT`, in phase `ENC_DONE` only. -/
def encoderResult (s : State) : Option (List Bool) := if s.ph = .encDone then some s.out else none

/-- The result of a decoder session (R61, R183): `SYMOUT`, in phase `DEC_DONE` only. -/
def decoderResult (s : State) : Option (List Nat) := if s.ph = .decDone then some s.symout else none

end Sys2Proof.Machine
end

