-- ==== Sys2Proof/Machine/Ops.lean ====
section
/-! DEFINITION. The named operations every command is written from: raising a fault and leaving it (R208, R211), the
phase check (R207), registers that come to hold no value (R37, R41), the transactions with the spaces (R59 to R61), and
the micro-operations NARROW, EMIT, E1 to E3, D1 to D3 with their two loops. -/

namespace Sys2Proof.Machine

/-- What a command answers. -/
abbrev Result := Host.Outcome State Fault Refusal

/-! ### Faults -/

/-- `raise <Fault>` (R208): nothing but `STATUS` changes. `CONV` becomes 0 with the phase. -/
def raise (e : EngineFault) (s : State) : State := { s with ph := .fault, err := some e }

/-- The first checks of a well-formed command (R207 (1), (3)): in phase `FAULT` it is ignored (R209), in a phase R90 does
not list it raises `IllegalCommand`, otherwise its own rule `body` runs. -/
def guarded (i : Instr) (body : State → Result) (s : State) : Result :=
  if s.ph = .fault then .next s
  else if accepts i s.ph then body s
  else .next (raise .illegalCommand s)

/-! ### Registers that come to hold no value (R37, R41): each becomes a free value (log entry 4) -/

/-- `LOW, HIGH, TOTAL, SENT <- no value`. -/
def forgetInterval (s : State) : State :=
  { s with
    low := Config.freeReg s.draws 2, high := Config.freeReg s.draws 3,
    total := Config.freeReg s.draws 6, sent := Config.freeReg s.draws 7, draws := s.draws + 1 }

/-- `PEND, OUT, OUTLEN <- no value`. -/
def forgetEncoder (s : State) : State :=
  { s with
    pend := Config.freeReg s.draws 4, outlen := Config.freeReg s.draws 8,
    out := Config.freeBits s.draws, draws := s.draws + 1 }

/-- `CODE, CUR, SYMLEN, SYMOUT <- no value`. -/
def forgetDecoder (s : State) : State :=
  { s with
    code := Config.freeReg s.draws 5, cur := Config.freeReg s.draws 9,
    symlen := Config.freeReg s.draws 10, symout := Config.freeSyms s.draws, draws := s.draws + 1 }

/-- What `RESET` and the reset event do (R181, R230); the one way out of `FAULT` (R211). -/
def resetEngine (s : State) : State :=
  { forgetInterval (forgetEncoder (forgetDecoder s)) with ph := .idle, err := none, held := none }

/-! ### Transactions with the spaces -/

/-- `SinkPut(b)` (R59). -/
def sinkPut (b : Bool) (s : State) : State := { s with out := s.out ++ [b], outlen := s.outlen + 1 }

/-- The bit `SourceGet` returns (R60): `IN[CUR]`, or 0 past the end. -/
def sourceBit (s : State) : Bool := s.inp.getD s.cur false

/-- What `SourceGet` does (R60): the cursor advances, past the end too. -/
def sourceAdvance (s : State) : State := { s with cur := s.cur + 1 }

/-- `SymPut(x)` (R61). -/
def symPut (x : Nat) (s : State) : State := { s with symout := s.symout ++ [x], symlen := s.symlen + 1 }

/-! ### Session start -/

/-- The checks both init commands make on `MODEL.total` (R201, R202) and, when they pass, the session's `start`. -/
def openSession (start : State → State) (s : State) : Result :=
  if s.model.total = 0 then .next (raise .emptyModelError s)
  else if s.cfg.firstQuarter ≤ s.model.total then .next (raise .precisionOverflowError s)
  else .next (start s)

/-- `TOTAL <- MODEL.total ; SENT <- MODEL.sentinel ; LOW <- 0 ; HIGH <- TOP_VALUE` (R120, R150). -/
def latchSession (s : State) : State :=
  { s with total := s.model.total, sent := s.model.sentinel, low := 0, high := s.cfg.top }

/-! ### The interval unit on the registers -/

/-- The registers hold an interval the rules can divide by (R110): `LOW <= HIGH` and `TOTAL >= 1`. -/
def hasInterval (s : State) : Bool := decide (s.low ≤ s.high) && decide (0 < s.total)

/-- `NARROW(cl, ch)` (R100), both new values from the old `LOW` and the old range. `none` when the new interval is empty
(`new_high < new_low`): the loop that follows would not end (R101, `empty_never_stops` in Laws/Interval.lean; log entries 7
and 8). -/
def narrow (e : Entry) (s : State) : Option State :=
  if narrowLow s.low s.high s.total e.cl < narrowEnd s.low s.high s.total e.ch then
    some { s with
      low := narrowLow s.low s.high s.total e.cl
      high := narrowEnd s.low s.high s.total e.ch - 1 }
  else none

/-- `CASE(LOW, HIGH)` (R103). -/
def renormCase (s : State) : RenormCase := caseOf s.cfg s.low s.high

/-- `LOW <- Sk(LOW, 0) ; HIGH <- Sk(HIGH, 1)` (R104). -/
def scaleInterval (k : RenormCase) (s : State) : State :=
  { s with low := scale s.cfg k s.low false, high := scale s.cfg k s.high true }

/-! ### The encoder's micro-operations -/

/-- `repeat n times: SinkPut(b)` (R121). -/
def sinkPutMany : Nat → Bool → State → State
  | 0, _, s => s
  | n + 1, b, s => sinkPutMany n b (sinkPut b s)

/-- `EMIT(b)` (R121): the determined bit, then `PEND` complements, then the count is cleared. -/
def emit (b : Bool) (s : State) : State := { sinkPutMany s.pend (!b) (sinkPut b s) with pend := 0 }

/-- `PEND = PEND_MAX` (R124, R128); never with `PEND_MAX = infinity`. -/
def pendFull (s : State) : Bool := decide (s.cfg.pendMax = some s.pend)

/-- Step E1 (R122). -/
def encE1 (s : State) : State := scaleInterval .e1 (emit false s)

/-- Step E2 (R123). -/
def encE2 (s : State) : State := scaleInterval .e2 (emit true s)

/-- Step E3 (R124) without its check of `PEND_MAX`. -/
def encE3 (s : State) : State := scaleInterval .e3 { s with pend := s.pend + 1 }

/-- How the encoder's renormalization loop ends. -/
inductive RenormEnd where
  /-- `CASE = NONE`. -/
  | done (s : State)
  /-- An E3 step raised `PendingOverflow` (R206). -/
  | overflow
  /-- The loop does not end. -/
  | endless
  deriving DecidableEq, Repr

/-- `RENORM_ENC` (R106, R125), at most `fuel` steps. R107 bounds the steps by `P`, so with `fuel = P` running out means
that the loop never ends (`renormEnc_not_endless` and `endless_forever` in Laws/Renorm.lean). -/
def renormEnc : Nat → State → RenormEnd
  | 0, s => if renormCase s = .stop then .done s else .endless
  | fuel + 1, s =>
    match renormCase s with
    | .stop => .done s
    | .e1 => renormEnc fuel (encE1 s)
    | .e2 => renormEnc fuel (encE2 s)
    | .e3 => if pendFull s then .overflow else renormEnc fuel (encE3 s)

/-! ### The decoder's micro-operations -/

/-- `CODE <- Sk(CODE, SourceGet())`, the decoder's half of a step (R153 to R155). -/
def shiftCode (k : RenormCase) (s : State) : State :=
  sourceAdvance { s with code := scale s.cfg k s.code (sourceBit s) }

/-- Step D1 (R153). -/
def decD1 (s : State) : State := scaleInterval .e1 (shiftCode .e1 s)

/-- Step D2 (R154). -/
def decD2 (s : State) : State := scaleInterval .e2 (shiftCode .e2 s)

/-- Step D3 (R155). -/
def decD3 (s : State) : State := scaleInterval .e3 (shiftCode .e3 s)

/-- `RENORM_DEC` (R106, R156), at most `fuel` steps; `none` when that is not enough (see `renormEnc`). -/
def renormDec : Nat → State → Option State
  | 0, s => if renormCase s = .stop then some s else none
  | fuel + 1, s =>
    match renormCase s with
    | .stop => some s
    | .e1 => renormDec fuel (decD1 s)
    | .e2 => renormDec fuel (decD2 s)
    | .e3 => renormDec fuel (decD3 s)

/-- `repeat n times: CODE <- 2*CODE + SourceGet()` (R150). -/
def fillWindow : Nat → State → State
  | 0, s => s
  | n + 1, s => fillWindow n (sourceAdvance { s with code := 2 * s.code + (sourceBit s).toNat })

end Sys2Proof.Machine
end

