-- ==== Sys2Proof/Machine/Decoder.lean ====
section
/-! DEFINITION. The decoder's commands (42_decoder.md). -/

namespace Sys2Proof.Machine

/-- The writes of `DEC_INIT` once its checks pass (R150). -/
def startDecoder (s : State) : State :=
  { fillWindow s.cfg.prec { latchSession (forgetEncoder s) with cur := 0, code := 0 } with
    symout := [], symlen := 0, ph := .dec, held := some .decoder }

/-- `DEC_INIT` (R150). -/
def execDecInit (s : State) : Result := guarded .decInit (openSession startDecoder) s

/-- `TARGET(CODE, LOW, HIGH, TOTAL)` (R151 or R152, per `TARGET_RULE`). -/
def targetNow (s : State) : Int := targetOf s.cfg.targetRule s.low s.high s.code s.total

/-- `SymPut ; NARROW ; RENORM_DEC` for a decoded symbol that is not the sentinel (R157). -/
def decodeEntry (e : Entry) (s : State) : Result :=
  match narrow e (symPut e.symbol s) with
  | none => .fault .endlessRenormalization
  | some s₁ =>
    match renormDec s.cfg.prec s₁ with
    | some s₂ => .next s₂
    | none => .fault .endlessRenormalization

/-- The rule of `DEC_SYM` after the phase check (R157, R158). -/
def decSymBody (s : State) : Result :=
  if hasInterval s then
    match s.model.byTarget (targetNow s) with
    | none => .next (raise .decodeRangeError s)
    | some e => if e.symbol = s.sent then .next { s with ph := .decDone } else decodeEntry e s
  else .fault .noInterval

/-- `DEC_SYM` (R157). -/
def execDecSym (s : State) : Result := guarded .decSym decSymBody s

end Sys2Proof.Machine
end

