-- ==== Sys2Proof/Machine/Encoder.lean ====
section
/-! DEFINITION. The encoder's commands (41_encoder.md). -/

namespace Sys2Proof.Machine

/-- The writes of `ENC_INIT` once its checks pass (R120). -/
def startEncoder (s : State) : State :=
  { latchSession (forgetDecoder s) with
    pend := 0, out := [], outlen := 0, ph := .enc, held := some .encoder }

/-- `ENC_INIT` (R120). -/
def execEncInit (s : State) : Result := guarded .encInit (openSession startEncoder) s

/-- The end of `ENC_SYM x`, after its loop (R126, R127): the sentinel ends the symbol phase. -/
def endEncSym (x : Nat) (s : State) : State := if x = s.sent then { s with ph := .encEos } else s

/-- `NARROW ; RENORM_ENC` and the end of `ENC_SYM x` (R126), for an entry that was found. Where an E3 step raises
`PendingOverflow`, the whole command is cancelled (R208): the fault is raised in the state the command found. -/
def encodeEntry (x : Nat) (e : Entry) (s : State) : Result :=
  match narrow e s with
  | none => .fault .endlessRenormalization
  | some s₁ =>
    match renormEnc s.cfg.prec s₁ with
    | .done s₂ => .next (endEncSym x s₂)
    | .overflow => .next (raise .pendingOverflow s)
    | .endless => .fault .endlessRenormalization

/-- The rule of `ENC_SYM x` after the phase check (R126). -/
def encSymBody (x : Nat) (s : State) : Result :=
  match s.model.bySymbol x with
  | none => .next (raise .unknownSymbolError s)
  | some e => if hasInterval s then encodeEntry x e s else .fault .noInterval

/-- `ENC_SYM x` (R126). -/
def execEncSym (x : Nat) (s : State) : Result := guarded (.encSym x) (encSymBody x) s

/-- The rule of `ENC_FLUSH` after the phase check (R128). -/
def encFlushBody (s : State) : Result :=
  if pendFull s then .next (raise .pendingOverflow s)
  else
    .next { emit (!decide (s.low < s.cfg.firstQuarter)) { s with pend := s.pend + 1 } with ph := .encDone }

/-- `ENC_FLUSH` (R128). -/
def execEncFlush (s : State) : Result := guarded .encFlush encFlushBody s

end Sys2Proof.Machine
end

