-- ==== Sys2Proof/Machine/System.lean ====
section
/-! DEFINITION. The system commands (43_system.md): `NOP` and `RESET`, accepted in every phase. -/

namespace Sys2Proof.Machine

/-- `NOP` (R180): nothing. -/
def execNop (s : State) : Result := .next s

/-- `RESET` (R181). -/
def execReset (s : State) : Result := .next (resetEngine s)

end Sys2Proof.Machine
end

