-- ==== Sys2Proof/Machine/HostPort.lean ====
section
/-! DEFINITION. What the engine does with what the host does (R11, R39, R80): taking the next item of the host's queue,
a command word, an illegal word (R84, R205, R209), the reset event (R230), and the host's writes to its own spaces (R50, R55, R60, R233). -/

namespace Sys2Proof.Machine

/-- The next item of the host's queue and the state once it is taken (log entry 5). -/
def takeAction (s : State) : Option (HostAction × State) :=
  match s.inbox with
  | [] => none
  | a :: rest => some (a, { s with inbox := rest })

/-- A word that encodes no command: `IllegalCommand` (R84), ignored in phase `FAULT` (R209). -/
def illegalWord (s : State) : State := if s.ph = .fault then s else raise .illegalCommand s

/-- What the engine does with a command word (R80): it decodes it and runs the command, or it is an illegal encoding. -/
def execWord (cw : Word) (s : State) : Result :=
  match decode s.cfg.symBits cw with
  | .ok i => exec i s
  | .error _ => .next (illegalWord s)

/-- A host's write to one of its spaces: its own business outside a session, without a meaning inside one (R55, R233, U4; log
entry 6). -/
def outsideSession (write : State → State) (s : State) : Result :=
  if s.ph.inSession then .refused .spaceChangedInSession else .next (write s)

/-- The host writes the model table (R50 (1)). -/
def loadModel (m : ModelTable) (s : State) : Result := outsideSession (fun s => { s with model := m }) s

/-- The host supplies the bit source (R60). -/
def loadSource (bits : List Bool) (s : State) : Result := outsideSession (fun s => { s with inp := bits }) s

/-- The host issues the word `cw` next, before what its queue holds. -/
def issueNext (cw : Word) (s : State) : State := { s with inbox := .command cw :: s.inbox }

end Sys2Proof.Machine
end

