-- ==== Sys2Proof/Machine/Step.lean ====
section
/-! DEFINITION. One step: the engine takes the next item of the host's queue and handles it to completion before the
next is taken (R39, R66, R80). With an empty queue it waits (R230: "the engine waits in `IDLE` for a command"). The queue and where the
reset line acts are the model's (log entries 5 and 14). -/

namespace Sys2Proof.Machine

/-- One step of the engine. -/
def step (s : State) : Host.Outcome State Fault Refusal :=
  match takeAction s with
  | none => .next s
  | some (.command cw, s₁) => execWord cw s₁
  | some (.resetLine, s₁) => .next (resetEngine s₁)
  | some (.loadModel m, s₁) => loadModel m s₁
  | some (.loadSource bits, s₁) => loadSource bits s₁

/-- The state in which the very next step runs the command word `w` of `nbits` bits: the host issues it next
(log entry 5 says how a program comes to run). -/
def State.withFetchWord (s : State) (nbits w : Nat) : State := issueNext (BitVec.ofNat 32 (w % 2 ^ nbits)) s

end Sys2Proof.Machine
end

