-- ==== Sys2Proof/Machine/HostSide.lean ====
section
/-! DEFINITION. The host's side of the contract, as functions: the two pseudo-instructions (R87, R88), the model builder
(R58, a host duty), the packing of bits into bytes (R62), the assembler's lines (R86). The engine uses none of them. Where R86
leaves the spelling open the model chooses (log entry 16). -/

namespace Sys2Proof.Machine

/-! ### Streams of commands -/

/-- The host issues a command of a stream: the engine gets its word (R80), so that an `ENC_SYM` operand of `2^SYM_BITS` or more
raises `IllegalCommand` (R82, R84). A symbol of 2^24 or more, which has no word, raises it too. DESIGN CHOICE, unsafe (log
entry 16). -/
def issueCommand (i : Instr) (s : State) : Result :=
  if i.hasWord then execWord (encode i) s else .next (illegalWord s)

/-- Issues the commands one after another; after a fault "the rest are not issued" (R87). -/
def runCommands : List Instr → State → Result
  | [], s => .next s
  | i :: is, s =>
    match issueCommand i s with
    | .next t => if t.ph = .fault then .next t else runCommands is t
    | .fault f => .fault f
    | .refused r => .refused r

/-- The expansion of `ENCODE s1 ... sn` (R87), `sentinel` being `MODEL.sentinel`. -/
def encodeCommands (text : List Nat) (sentinel : Nat) : List Instr :=
  .encInit :: (text.map Instr.encSym ++ [.encSym sentinel, .encFlush])

/-- `DEC_SYM` "repeated while `STATUS.PH = DEC`" (R88), at most `fuel` = `DEC_FUEL` times. -/
def decodeLoop : Nat → State → Result
  | 0, s => .next s
  | fuel + 1, s =>
    if s.ph = .dec then
      match issueCommand .decSym s with
      | .next t => decodeLoop fuel t
      | .fault f => .fault f
      | .refused r => .refused r
    else .next s

/-- `DECODE` with `DEC_FUEL = fuel` (R88). -/
def decodeSession (fuel : Nat) (s : State) : Result :=
  match issueCommand .decInit s with
  | .next t => decodeLoop fuel t
  | .fault f => .fault f
  | .refused r => .refused r

/-- `DECODE` without a bound (`DEC_FUEL` absent, its default) ends in `t`: the loop has left phase `DEC`. -/
def DecodesTo (s t : State) : Prop := ∃ fuel, decodeSession fuel s = .next t ∧ t.ph ≠ .dec

/-! ### The model builder (R58) -/

/-- Adds one occurrence of `x` to a list of (symbol, count) in ascending symbol value. -/
def countSymbol (x : Nat) : List (Nat × Nat) → List (Nat × Nat)
  | [] => [(x, 1)]
  | (y, n) :: rest =>
    if x < y then (x, 1) :: (y, n) :: rest
    else if x = y then (y, n + 1) :: rest
    else (y, n) :: countSymbol x rest

/-- The count of every symbol of a sequence that occurs, in ascending symbol value. -/
def symbolCounts : List Nat → List (Nat × Nat)
  | [] => []
  | x :: xs => countSymbol x (symbolCounts xs)

/-- `cumulative_low` and `cumulative_high` "by running sum" from `a`. -/
def runningRanges (a : Nat) : List (Nat × Nat) → List Entry
  | [] => []
  | (x, n) :: rest => { symbol := x, frequency := n, cl := a, ch := a + n } :: runningRanges (a + n) rest

/-- The final sum. -/
def sumCounts : List (Nat × Nat) → Nat
  | [] => 0
  | (_, n) :: rest => n + sumCounts rest

/-- `model_built_from(text)` (R58): the counts of the text and exactly one occurrence of the sentinel more. -/
def modelBuiltFrom (text : List Nat) (sentinel : Nat) : ModelTable :=
  let counts := symbolCounts (sentinel :: text)
  { entries := runningRanges 0 counts, total := sumCounts counts, sentinel := sentinel }

/-! ### Packing (R62) -/

/-- Byte `j` of the packed sequence: its bit `7 - k` is bit `8*j + k` of the sequence, 0 past the end. -/
def packedByte (bits : List Bool) (j : Nat) : BitVec 8 :=
  BitVec.ofNat 8 ((List.range 8).foldl (fun acc k => 2 * acc + (bits.getD (8 * j + k) false).toNat) 0)

/-- The packed sequence. -/
def packBits (bits : List Bool) : List (BitVec 8) := (List.range ((bits.length + 7) / 8)).map (packedByte bits)

/-! ### The assembler's lines (R86) -/

/-- What a line of a command stream stands for. -/
inductive AsmLine where
  /-- White space or a comment only. -/
  | blank
  | command (i : Instr)
  /-- Not a line of the form R86 gives. -/
  | illegal
  deriving DecidableEq, Repr

/-- The value of a digit, hexadecimal ones included. -/
def digitValue (c : Char) : Option Nat :=
  if '0'.toNat ≤ c.toNat ∧ c.toNat ≤ '9'.toNat then some (c.toNat - '0'.toNat)
  else if 'a'.toNat ≤ c.toNat ∧ c.toNat ≤ 'f'.toNat then some (c.toNat - 'a'.toNat + 10)
  else if 'A'.toNat ≤ c.toNat ∧ c.toNat ≤ 'F'.toNat then some (c.toNat - 'A'.toNat + 10)
  else none

/-- The number that `digits` write in base `base`, most significant first, after the value `acc`. -/
def readDigits (base acc : Nat) : List Char → Option Nat
  | [] => some acc
  | c :: cs =>
    match digitValue c with
    | some d => if d < base then readDigits base (base * acc + d) cs else none
    | none => none

/-- A symbol value in decimal or hexadecimal (R86). -/
def readSymbol : List Char → Option Nat
  | [] => none
  | '0' :: 'x' :: c :: cs => readDigits 16 0 (c :: cs)
  | c :: cs => readDigits 10 0 (c :: cs)

/-- The line up to a `;`. -/
def dropComment : List Char → List Char
  | [] => []
  | c :: cs => if c = ';' then [] else c :: dropComment cs

/-- The words of a line, `cur` being the word in progress (reversed). -/
def splitWords (cur : List Char) : List Char → List (List Char)
  | [] => if cur.isEmpty then [] else [cur.reverse]
  | c :: cs =>
    if c = ' ' ∨ c = '\t' then
      if cur.isEmpty then splitWords [] cs else cur.reverse :: splitWords [] cs
    else splitWords (c :: cur) cs

/-- A mnemonic without an operand (R81). -/
def plainMnemonic (w : List Char) : Option Instr :=
  if w = "NOP".toList then some .nop
  else if w = "RESET".toList then some .reset
  else if w = "ENC_INIT".toList then some .encInit
  else if w = "ENC_FLUSH".toList then some .encFlush
  else if w = "DEC_INIT".toList then some .decInit
  else if w = "DEC_SYM".toList then some .decSym
  else none

/-- One line of a command stream (R86); its word is `encode` of the command it holds. A line whose symbol no `ARG` can hold (2^24
or more) is `illegal`: the spec does not say what it is. DESIGN CHOICE (log entry 16). A symbol that `ARG` holds but `SYM_BITS`
does not is a line of R86, whose word is an illegal encoding (R82). -/
def assembleLine (line : List Char) : AsmLine :=
  match splitWords [] (dropComment line) with
  | [] => .blank
  | [w] =>
    match plainMnemonic w with
    | some i => .command i
    | none => .illegal
  | [w, n] =>
    if w = "ENC_SYM".toList then
      match readSymbol n with
      | some x => if (Instr.encSym x).hasWord then .command (.encSym x) else .illegal
      | none => .illegal
    else .illegal
  | _ => .illegal

end Sys2Proof.Machine
end

