-- ==== Sys2Proof/Safety.lean ====
section
/-! DEFINITION. The terms claims are stated in: the invariants of a run (R20 to R27, R31, R33, R35, R37, R108, R159),
the micro-step relations of the renormalization loop (R106), which part of a state a session can depend on (R38). -/

namespace Sys2Proof.Machine

/-- What every step keeps, whatever the table holds. `held`, not the phase, says which registers hold a value, because
in `FAULT` "the registers keep what they held when the fault was raised" (R37). -/
structure Inv (s : State) : Prop where
  /-- R31: "`ERR != 0` exactly when `PH = FAULT`". -/
  err_iff : s.err = none ↔ s.ph ≠ .fault
  /-- R37. -/
  held_eq : s.ph ≠ .fault → s.held = s.ph.session
  /-- R26: "`1 <= TOTAL < FIRST_QUARTER`". -/
  total_pos : s.held ≠ none → 0 < s.total
  total_lt : s.held ≠ none → s.total < s.cfg.firstQuarter
  /-- R21. -/
  low_le_high : s.held ≠ none → s.low ≤ s.high
  /-- R23, R108: between commands no renormalization case holds. -/
  stopped : s.held ≠ none → renormCase s = .stop
  /-- R33. -/
  outlen_eq : s.held = some .encoder → s.outlen = s.out.length
  /-- R7, R24: the count never passes `PEND_MAX`. -/
  pend_le : s.held = some .encoder → ∀ m, s.cfg.pendMax = some m → s.pend ≤ m
  /-- R129: "at `ENC_DONE` ... `PEND = 0`". -/
  pend_done : s.ph = .encDone → s.pend = 0
  /-- R35. -/
  symlen_eq : s.held = some .decoder → s.symlen = s.symout.length
  /-- R34: `DEC_INIT` performs `P` reads. -/
  cur_ge : s.held = some .decoder → s.cfg.prec ≤ s.cur
  /-- R110, R152 (e): "`CODE >= LOW` always". -/
  low_le_code : s.held = some .decoder → s.low ≤ s.code

/-- What every step keeps besides `Inv` in a session whose table is well-formed: the latches agree with the table
(R26, R27, R55), `HIGH` is a `P`-bit number (R20), and `CODE` is in the interval under `EXACT` (R159) and exceeds `HIGH`
by no more than the range under `TRUNC` (R152). -/
structure TableInv (s : State) : Prop where
  total_eq : s.model.WF → s.ph.inSession = true → s.total = s.model.total
  sent_eq : s.model.WF → s.ph.inSession = true → s.sent = s.model.sentinel
  high_le : s.model.WF → s.ph.inSession = true → s.high ≤ s.cfg.top
  code_exact : s.model.WF → s.ph = .dec → s.cfg.targetRule = .exact → s.code ≤ s.high
  code_trunc : s.model.WF → s.ph = .dec → s.cfg.targetRule = .trunc → s.code + s.low ≤ 2 * s.high + 1

/-! ### The renormalization loop as a relation (R106) -/

/-- One step of the encoder's loop (R122 to R124). -/
inductive EncStep : State → State → Prop where
  | e1 {s : State} (h : renormCase s = .e1) : EncStep s (encE1 s)
  | e2 {s : State} (h : renormCase s = .e2) : EncStep s (encE2 s)
  | e3 {s : State} (h : renormCase s = .e3) (room : pendFull s = false) : EncStep s (encE3 s)

/-- One step of the decoder's loop (R153 to R155). -/
inductive DecStep : State → State → Prop where
  | d1 {s : State} (h : renormCase s = .e1) : DecStep s (decD1 s)
  | d2 {s : State} (h : renormCase s = .e2) : DecStep s (decD2 s)
  | d3 {s : State} (h : renormCase s = .e3) : DecStep s (decD3 s)

/-- `n` steps of a relation. -/
inductive Steps (r : State → State → Prop) : Nat → State → State → Prop where
  | refl (s : State) : Steps r 0 s s
  | cons {n : Nat} {s t u : State} (h : r s t) (hs : Steps r n t u) : Steps r (n + 1) s u

/-! ### What a session can depend on (R38) -/

/-- The two states differ only in registers and sequences that hold no value (R37), in what the host's queue holds and
in how often registers were forgotten. -/
structure SameSession (a b : State) : Prop where
  cfg : a.cfg = b.cfg
  ph : a.ph = b.ph
  err : a.err = b.err
  held : a.held = b.held
  model : a.model = b.model
  inp : a.inp = b.inp
  low : a.held ≠ none → a.low = b.low
  high : a.held ≠ none → a.high = b.high
  total : a.held ≠ none → a.total = b.total
  sent : a.held ≠ none → a.sent = b.sent
  pend : a.held = some .encoder → a.pend = b.pend
  outlen : a.held = some .encoder → a.outlen = b.outlen
  out : a.held = some .encoder → a.out = b.out
  code : a.held = some .decoder → a.code = b.code
  cur : a.held = some .decoder → a.cur = b.cur
  symlen : a.held = some .decoder → a.symlen = b.symlen
  symout : a.held = some .decoder → a.symout = b.symout

/-- A word whose fields R82, R83 and R84 make an illegal encoding, read off the word's number: a reserved `OP`, a non-zero
`ARG` where it must be zero, an `ENC_SYM` operand of `2^SYM_BITS` or more. -/
def IllegalEncoding (symBits : Nat) (cw : Word) : Prop :=
  let op := cw.toNat / 2 ^ 24
  let arg := cw.toNat % 2 ^ 24
  op ∉ [0x00, 0x01, 0x10, 0x11, 0x12, 0x20, 0x21] ∨ (op ≠ 0x11 ∧ arg ≠ 0) ∨ (op = 0x11 ∧ 2 ^ symBits ≤ arg)

/-- The phases in which R90 accepts a command outside `FAULT`, as the rule's table lists them. -/
def listedPhases : Instr → List Phase
  | .nop => [.idle, .enc, .encEos, .encDone, .dec, .decDone]
  | .reset => [.idle, .enc, .encEos, .encDone, .dec, .decDone]
  | .encInit => [.idle, .encDone, .decDone]
  | .encSym _ => [.enc]
  | .encFlush => [.encEos]
  | .decInit => [.idle, .encDone, .decDone]
  | .decSym => [.dec]

/-- The same state with `k` zero bits more at the end of its source. -/
def padSource (k : Nat) (s : State) : State := { s with inp := s.inp ++ List.replicate k false }

/-- The two answers are of one kind, and their next states are related by `r`. -/
def Result.Related (r : State → State → Prop) : Result → Result → Prop
  | .next a, .next b => r a b
  | .fault f, .fault g => f = g
  | .refused f, .refused g => f = g
  | _, _ => False

end Sys2Proof.Machine
end

