-- ==== Sys2Proof/Certificates/Slice0/Obligations.lean ====
section
/-! DEFINITION. The statements. Each docstring names the rule of spec/ its statement formalises; `2 ≤ prec` is the spec's
premise on the parameter `P` (U14). -/

open Sys2Proof Sys2Proof.Machine

/-! ### Encoding (30_encoding.md) -/

/-- R81, R86: the table's words, and one word of each kind of illegal encoding. -/
def Obligations.TableWordsDecode : Prop :=
  decode 9 0x00000000#32 = .ok .nop ∧ decode 9 0x01000000#32 = .ok .reset ∧
  decode 9 0x10000000#32 = .ok .encInit ∧ decode 9 0x11000061#32 = .ok (.encSym 97) ∧
  decode 9 0x110001FF#32 = .ok (.encSym 511) ∧ decode 9 0x12000000#32 = .ok .encFlush ∧
  decode 9 0x20000000#32 = .ok .decInit ∧ decode 9 0x21000000#32 = .ok .decSym ∧
  decode 9 0x02000000#32 = .error .reservedOpcode ∧ decode 9 0x10000001#32 = .error .nonzeroArg ∧
  decode 9 0x11000200#32 = .error .symbolTooWide

/-- R80 to R83: decoding the word of a well-formed command gives the command back, for every operand and every `SYM_BITS`. -/
def Obligations.DecodeInvertsEncode : Prop :=
  ∀ (n : Nat) (i : Instr), i.wf n = true → decode n (encode i) = .ok i

/-- R81: the decoder accepts exactly the words of the table's match and mask columns. -/
def Obligations.DecodeAgreesWithMatchAndMask : Prop :=
  ∀ (n : Nat) (cw : Word) (i : Instr),
    decode n cw = .ok i ↔
      cw &&& i.maskBits = i.matchBits ∧ i.wf n = true ∧ ∀ x, i = .encSym x → cw.toNat % 2 ^ 24 = x

/-- R82 to R84: which words the decoder rejects. -/
def Obligations.IllegalWordsAreRejected : Prop :=
  ∀ (n : Nat) (cw : Word), (∃ why, decode n cw = .error why) ↔ IllegalEncoding n cw

/-- R39, R80: the word at the head of the host's queue runs, and is taken off the queue. -/
def Obligations.StepRunsDecodedCommand : Prop :=
  ∀ (s : State) (cw : Word) (rest : List HostAction) (i : Instr),
    s.inbox = .command cw :: rest → decode s.cfg.symBits cw = .ok i → step s = exec i { s with inbox := rest }

/-- R84. -/
def Obligations.IllegalWordsRaise : Prop :=
  ∀ (s : State) (cw : Word) (rest : List HostAction), s.inbox = .command cw :: rest →
    (s.ph ≠ .fault →
      (IllegalEncoding s.cfg.symBits cw ∨ ∃ i, decode s.cfg.symBits cw = .ok i ∧ s.ph ∉ listedPhases i) →
      step s = .next { s with inbox := rest, ph := .fault, err := some .illegalCommand }) ∧
    (s.ph = .fault → cw ≠ 0x01000000#32 → step s = .next { s with inbox := rest })

/-- R90: in which phases a command is accepted, and the phase it leaves. -/
def Obligations.PhaseTable : Prop :=
  (∀ (i : Instr) (s : State), s.ph ≠ .fault →
    (exec i s = .next { s with ph := .fault, err := some .illegalCommand } ↔ s.ph ∉ listedPhases i)) ∧
  (∀ (i : Instr) (s t : State), s.ph ≠ .fault → exec i s = .next t → t.ph ≠ .fault →
    match i with
    | .nop => t.ph = s.ph
    | .reset => t.ph = .idle
    | .encInit => t.ph = .enc
    | .encSym x => t.ph = if x = s.sent then .encEos else .enc
    | .encFlush => t.ph = .encDone
    | .decInit => t.ph = .dec
    | .decSym =>
      (t.ph = .dec ∧ ∃ x, x ≠ s.sent ∧ t.symout = s.symout ++ [x]) ∨ (t.ph = .decDone ∧ t.symout = s.symout)) ∧
  (∀ (i : Instr) (s : State), s.ph = .fault →
    if i = .reset then ∃ t, exec i s = .next t ∧ t.ph = .idle else exec i s = .next s)

/-- R87, R88, R39: a queue of the words of any commands but RESET, symbols too wide for `SYM_BITS` included (R82), runs, step by
step, as the same commands issued one after another; after a fault the rest changes nothing. -/
def Obligations.QueueRunsAsIssued : Prop :=
  ∀ (s : State) (is : List Instr),
    (∀ i ∈ is, i.hasWord = true ∧ i ≠ .reset) →
    s.inbox = is.map (fun i => HostAction.command (encode i)) →
    Sys2Proof.core.run is.length s = runCommands is { s with inbox := [] }

/-! ### System commands, reset and the register port (43_system.md, 70_reset_and_hazards.md, 10_state.md) -/

/-- R180. -/
def Obligations.NopChangesNothing : Prop :=
  (∀ s : State, exec .nop s = .next s) ∧
  (∀ (s : State) (cw : Word) (rest : List HostAction), s.inbox = .command cw :: rest → cw.toNat / 2 ^ 24 = 0x00 →
    (cw.toNat % 2 ^ 24 = 0 → step s = .next { s with inbox := rest }) ∧
    (cw.toNat % 2 ^ 24 ≠ 0 → s.ph ≠ .fault →
      step s = .next { s with inbox := rest, ph := .fault, err := some .illegalCommand }))

/-- R181: `RESET` completes in every phase; afterwards `PREC` and `STATUS` alone hold a value; no other command leaves `FAULT`
or leads back to `IDLE`; a word of `RESET` with a non-zero operand is an illegal encoding. -/
def Obligations.ResetReturnsToIdle : Prop :=
  (∀ s : State, ∃ t, exec .reset s = .next t ∧
    t.ph = .idle ∧ t.err = none ∧ t.held = none ∧
    t.cfg = s.cfg ∧ t.model = s.model ∧ t.inp = s.inp ∧ t.inbox = s.inbox ∧
    (∀ draw, readPort t draw 0 = some s.cfg.prec ∧ readPort t draw 1 = some 0) ∧
    (∀ i, holdsValue t.held i = true ↔ i = 0 ∨ i = 1) ∧
    encoderResult t = none ∧ decoderResult t = none) ∧
  (∀ (i : Instr) (s t : State), i ≠ .reset → exec i s = .next t →
    (s.ph = .fault → t.ph = .fault) ∧ (t.ph = .idle → s.ph = .idle)) ∧
  (∀ (s : State) (cw : Word) (rest : List HostAction), s.inbox = .command cw :: rest → cw.toNat / 2 ^ 24 = 0x01 →
    cw.toNat % 2 ^ 24 ≠ 0 →
    (s.ph ≠ .fault → step s = .next { s with inbox := rest, ph := .fault, err := some .illegalCommand }) ∧
    (s.ph = .fault → step s = .next { s with inbox := rest }))

/-- R230: the reset event is the `RESET` command; the power-on state has the values the rule gives, and no other register holds
a value; the engine then waits. What the other registers contain is the model's choice (log entry 2) and nothing is said of
it. -/
def Obligations.ResetEventAndPowerOn : Prop :=
  (∀ (s : State) (rest : List HostAction), s.inbox = .resetLine :: rest →
    step s = exec .reset { s with inbox := rest }) ∧
  (∀ c : Config,
    let s := State.resetWith c
    s.ph = .idle ∧ s.err = none ∧ (∀ draw, readPort s draw 0 = some c.prec ∧ readPort s draw 1 = some 0) ∧
    (∀ i, holdsValue s.held i = true ↔ i = 0 ∨ i = 1) ∧
    encoderResult s = none ∧ decoderResult s = none ∧ step s = .next s)

/-- R36, R37: which register a number names, and in which phase it holds a value; a number of 11 or more names none;
in `FAULT` the registers keep what they held when the fault was raised, for the host to read (R37, R208); R183, R210: results
exist in the two `DONE` phases only. That a read of a register without a value returns `freeRead` is the
model's form of R36's "unspecified value" (log entry 4). -/
def Obligations.RegisterPortAndResults : Prop :=
  ∀ (s : State) (draw : Nat), Inv s →
    readPort s draw 0 = some s.cfg.prec ∧ readPort s draw 1 = some (statusWord s).toNat ∧
    (s.ph = .enc ∨ s.ph = .encEos ∨ s.ph = .encDone ∨ (s.ph = .fault ∧ s.held = some .encoder) →
      readPort s draw 2 = some s.low ∧ readPort s draw 3 = some s.high ∧ readPort s draw 4 = some s.pend ∧
      readPort s draw 6 = some s.total ∧ readPort s draw 7 = some s.sent ∧ readPort s draw 8 = some s.outlen ∧
      ∀ i, i = 5 ∨ i = 9 ∨ i = 10 → readPort s draw i = some (Config.freeRead draw i)) ∧
    (s.ph = .dec ∨ s.ph = .decDone ∨ (s.ph = .fault ∧ s.held = some .decoder) →
      readPort s draw 2 = some s.low ∧ readPort s draw 3 = some s.high ∧ readPort s draw 5 = some s.code ∧
      readPort s draw 6 = some s.total ∧ readPort s draw 7 = some s.sent ∧ readPort s draw 9 = some s.cur ∧
      readPort s draw 10 = some s.symlen ∧
      ∀ i, i = 4 ∨ i = 8 → readPort s draw i = some (Config.freeRead draw i)) ∧
    (s.ph = .idle ∨ (s.ph = .fault ∧ s.held = none) → ∀ i, 2 ≤ i → i ≤ 10 → readPort s draw i = some (Config.freeRead draw i)) ∧
    (∀ i, 11 ≤ i → readPort s draw i = none) ∧
    (∀ k i, i ≠ 1 → readPort (raise k s) draw i = readPort s draw i) ∧
    (∀ bits, encoderResult s = some bits ↔ s.ph = .encDone ∧ bits = s.out) ∧
    (∀ syms, decoderResult s = some syms ↔ s.ph = .decDone ∧ syms = s.symout)

/-- R29 to R32, R163: the codes of the phases and the faults, the fields of `STATUS`, its value, and when the converging flag
is set. -/
def Obligations.StatusWordFields : Prop :=
  [Phase.idle, .enc, .encEos, .encDone, .dec, .decDone, .fault].map Phase.code = [0, 1, 2, 3, 4, 5, 7] ∧
  [none, some EngineFault.emptyModelError, some .unknownSymbolError, some .decodeRangeError, some .precisionOverflowError,
    some .illegalCommand, some .pendingOverflow].map errCode = [0, 1, 2, 3, 4, 5, 6] ∧
  ∀ s : State,
    (statusWord s).extractLsb' 0 3 = BitVec.ofNat 3 s.ph.code ∧
    (statusWord s).extractLsb' 3 4 = BitVec.ofNat 4 (errCode s.err) ∧
    ((statusWord s).getLsbD 7 = true ↔ (s.ph = .enc ∨ s.ph = .encEos) ∧ 0 < s.pend) ∧
    (∀ j, 8 ≤ j → (statusWord s).getLsbD j = false) ∧
    (statusWord s).toNat = s.ph.code + 8 * errCode s.err + 128 * (conv s).toNat ∧
    (intervalView s = if conv s then .converging s.pend else .normal) ∧
    (s.ph = .dec ∨ s.ph = .decDone → conv s = false)

/-! ### Faults (60_exceptions.md) -/

/-- R208: a command that raises changes `STATUS` and nothing else. -/
def Obligations.FaultsArePrecise : Prop :=
  ∀ (i : Instr) (s t : State), s.ph ≠ .fault → exec i s = .next t → t.ph = .fault →
    ∃ k, t = { s with ph := .fault, err := some k } ∧ conv t = false

/-- R209, R211: in `FAULT` any queue of words none of which is `RESET`'s runs off without a trace. -/
def Obligations.FaultIsSticky : Prop :=
  ∀ (s : State) (words : List Word), s.ph = .fault → (∀ w ∈ words, w ≠ 0x01000000#32) →
    s.inbox = words.map HostAction.command →
    Sys2Proof.core.run words.length s = .next { s with inbox := [] }

/-- R200, R207: which kinds of fault each command can raise. -/
def Obligations.FaultKindsPerCommand : Prop :=
  ∀ (i : Instr) (s t : State) (k : EngineFault), s.ph ≠ .fault → exec i s = .next t → t.ph = .fault → t.err = some k →
    match i with
    | .nop => False
    | .reset => False
    | .encInit => k = .illegalCommand ∨ k = .emptyModelError ∨ k = .precisionOverflowError
    | .encSym _ => k = .illegalCommand ∨ k = .unknownSymbolError ∨ k = .pendingOverflow
    | .encFlush => k = .illegalCommand ∨ k = .pendingOverflow
    | .decInit => k = .illegalCommand ∨ k = .emptyModelError ∨ k = .precisionOverflowError
    | .decSym => k = .illegalCommand ∨ k = .decodeRangeError

/-- R201, R202: the two checks the init commands make on the table's total, for every `P >= 2`. -/
def Obligations.InitChecksTotal : Prop :=
  ∀ (i : Instr) (s : State), i = .encInit ∨ i = .decInit → s.ph = .idle ∨ s.ph = .encDone ∨ s.ph = .decDone →
    (s.model.total = 0 → exec i s = .next { s with ph := .fault, err := some .emptyModelError }) ∧
    (2 ≤ s.cfg.prec → 2 ^ (s.cfg.prec - 2) ≤ s.model.total →
      exec i s = .next { s with ph := .fault, err := some .precisionOverflowError })

/-- R203, R204: a symbol without an entry, and a target no entry contains. -/
def Obligations.FailedLookupsRaise : Prop :=
  (∀ (s : State) (x : Nat), s.ph = .enc → (∀ e ∈ s.model.entries, e.symbol ≠ x) →
    exec (.encSym x) s = .next { s with ph := .fault, err := some .unknownSymbolError }) ∧
  (∀ s : State, s.ph = .dec → s.low ≤ s.high → 0 < s.total →
    (∀ e ∈ s.model.entries, ¬ ((e.cl : Int) ≤ targetNow s ∧ targetNow s < e.ch)) →
    exec .decSym s = .next { s with ph := .fault, err := some .decodeRangeError })

/-- R206: an increment of a full pending-bit counter raises `PendingOverflow`; with `PEND_MAX = infinity` it is never raised. -/
def Obligations.PendingOverflowRaises : Prop :=
  (∀ s : State, s.ph = .encEos → s.cfg.pendMax = some s.pend →
    exec .encFlush s = .next { s with ph := .fault, err := some .pendingOverflow }) ∧
  (∀ (s s₁ u : State) (x : Nat) (e : Entry) (n : Nat), 2 ≤ s.cfg.prec → s.ph = .enc → s.low ≤ s.high → 0 < s.total →
    s.model.bySymbol x = some e → narrow e s = some s₁ → s₁.low ≤ s.cfg.top →
    Steps EncStep n s₁ u → renormCase u = .e3 → u.cfg.pendMax = some u.pend →
    exec (.encSym x) s = .next { s with ph := .fault, err := some .pendingOverflow }) ∧
  (∀ (i : Instr) (s t : State), s.cfg.pendMax = none → s.ph ≠ .fault → exec i s = .next t → t.ph = .fault →
    t.err ≠ some .pendingOverflow)

/-! ### The spaces (20_memory.md) -/

/-- R50, R55: no command writes the parameters, the table, the source or the host's queue. -/
def Obligations.CommandsLeaveHostSpaces : Prop :=
  ∀ (i : Instr) (s t : State), exec i s = .next t →
    t.cfg = s.cfg ∧ t.model = s.model ∧ t.inp = s.inp ∧ t.inbox = s.inbox

/-- R50, R55, R233: the host's writes to the table and the source take effect outside a session and have no meaning inside
one (U4 "refuse"). That the model answers a refusal there, and counts `FAULT` as outside a session, is its choice (log entry
6). -/
def Obligations.HostWritesBetweenSessions : Prop :=
  ∀ (s : State) (m : ModelTable) (bits : List Bool) (rest : List HostAction),
    (s.ph = .enc ∨ s.ph = .encEos ∨ s.ph = .dec →
      (s.inbox = .loadModel m :: rest → step s = .refused .spaceChangedInSession) ∧
      (s.inbox = .loadSource bits :: rest → step s = .refused .spaceChangedInSession)) ∧
    (s.ph = .idle ∨ s.ph = .encDone ∨ s.ph = .decDone ∨ s.ph = .fault →
      (s.inbox = .loadModel m :: rest → step s = .next { s with inbox := rest, model := m }) ∧
      (s.inbox = .loadSource bits :: rest → step s = .next { s with inbox := rest, inp := bits }))

/-- R59 to R61: outside the commands that start or drop a session, the sink and the symbol output only grow, their length
registers with them, and the cursor never goes back. -/
def Obligations.SequencesOnlyGrow : Prop :=
  ∀ (i : Instr) (s t : State), i ≠ .reset → i ≠ .encInit → i ≠ .decInit → exec i s = .next t →
    (∃ w, t.out = s.out ++ w ∧ t.outlen = s.outlen + w.length) ∧
    (∃ v, t.symout = s.symout ++ v ∧ t.symlen = s.symlen + v.length ∧ v.length ≤ 1) ∧
    s.cur ≤ t.cur

/-- R60, R62: zero bits after the end of the source change no command. -/
def Obligations.ZeroPaddingIsInvisible : Prop :=
  ∀ (i : Instr) (s : State) (k : Nat),
    Result.Related (fun a b => b = padSource k a) (exec i s) (exec i (padSource k s))

/-- R56: the first entry in table order with the symbol, or none; one entry at most in a well-formed table; what `ENC_SYM`
raises for none. -/
def Obligations.LookupBySymbol : Prop :=
  ∀ (m : ModelTable) (x : Nat),
    (∀ e, m.bySymbol x = some e ↔
      ∃ before after, m.entries = before ++ e :: after ∧ e.symbol = x ∧ ∀ a ∈ before, a.symbol ≠ x) ∧
    (m.bySymbol x = none ↔ ∀ e ∈ m.entries, e.symbol ≠ x) ∧
    (m.WF → ∀ e ∈ m.entries, e.symbol = x → m.bySymbol x = some e) ∧
    (∀ s : State, s.ph = .enc → s.model = m → m.bySymbol x = none →
      exec (.encSym x) s = .next { s with ph := .fault, err := some .unknownSymbolError })

/-- R57: the first entry in table order that contains the target, or none; in a well-formed table any search finds the same;
what `DEC_SYM` raises for none. -/
def Obligations.LookupByTarget : Prop :=
  ∀ (m : ModelTable) (t : Int),
    (∀ e, m.byTarget t = some e ↔
      ∃ before after, m.entries = before ++ e :: after ∧ (e.cl : Int) ≤ t ∧ t < e.ch ∧
        ∀ a ∈ before, ¬ ((a.cl : Int) ≤ t ∧ t < a.ch)) ∧
    (m.byTarget t = none ↔ ∀ e ∈ m.entries, ¬ ((e.cl : Int) ≤ t ∧ t < e.ch)) ∧
    (t < 0 → m.byTarget t = none) ∧
    (m.WF → (m.total : Int) ≤ t → m.byTarget t = none) ∧
    (m.WF → ∀ e ∈ m.entries, (e.cl : Int) ≤ t → t < e.ch → m.byTarget t = some e) ∧
    (∀ s : State, s.ph = .dec → s.low ≤ s.high → 0 < s.total → s.model = m → t = targetNow s → m.byTarget t = none →
      exec .decSym s = .next { s with ph := .fault, err := some .decodeRangeError })

/-- R52: the ranges of a well-formed table are non-empty, disjoint and cover `[0, total)`. -/
def Obligations.WellFormedRangesPartition : Prop :=
  ∀ m : ModelTable, m.WF →
    (∀ e ∈ m.entries, e.cl < e.ch ∧ e.ch ≤ m.total) ∧
    (∀ t, t < m.total → ∃ e ∈ m.entries, e.cl ≤ t ∧ t < e.ch ∧
      ∀ a ∈ m.entries, a.cl ≤ t → t < a.ch → a = e)

/-- R58: the table the host builds from a text is well-formed, counts every symbol, and its total is one more than the length. -/
def Obligations.BuilderMakesWellFormedTable : Prop :=
  ∀ (text : List Nat) (sentinel : Nat),
    (modelBuiltFrom text sentinel).WF ∧
    (modelBuiltFrom text sentinel).total = text.length + 1 ∧
    (modelBuiltFrom text sentinel).sentinel = sentinel ∧
    (∀ x, x ∈ sentinel :: text →
      ∃ e, (modelBuiltFrom text sentinel).bySymbol x = some e ∧ e.frequency = (sentinel :: text).count x) ∧
    (∀ x, x ∉ sentinel :: text → (modelBuiltFrom text sentinel).bySymbol x = none)

/-- R62: bit `i` of the sequence is bit `7 - (i mod 8)` of byte `i / 8`, and the unused low bits of the last byte are 0. -/
def Obligations.PackingOrder : Prop :=
  ∀ bits : List Bool,
    (packBits bits).length = (bits.length + 7) / 8 ∧
    ∀ (i : Nat) (b : BitVec 8), (packBits bits)[i / 8]? = some b → b.getLsbD (7 - i % 8) = bits.getD i false

/-! ### The interval unit (40_interval.md) -/

/-- R100, R101 (a), (b) (derived in the spec): NARROW gives a non-empty part of the interval and changes nothing but `LOW` and
`HIGH`, and the parts of a well-formed table's entries tile the interval: the first starts at `LOW`, each starts one above the
end of the one before, the last ends at `HIGH`, and every code point is in the part of exactly one entry. -/
def Obligations.NarrowTilesTheInterval : Prop :=
  ∀ s : State, s.model.WF → s.total = s.model.total → s.low ≤ s.high → s.total ≤ s.high - s.low + 1 →
    let range := s.high - s.low + 1
    (∀ e ∈ s.model.entries, ∃ t, narrow e s = some t ∧
      t = { s with low := s.low + range * e.cl / s.total, high := s.low + range * e.ch / s.total - 1 } ∧
      s.low ≤ t.low ∧ t.low ≤ t.high ∧ t.high ≤ s.high) ∧
    (∀ a rest t, s.model.entries = a :: rest → narrow a s = some t → t.low = s.low) ∧
    (∀ before a b after t u, s.model.entries = before ++ a :: b :: after → narrow a s = some t → narrow b s = some u →
      u.low = t.high + 1) ∧
    (∀ before a t, s.model.entries = before ++ [a] → narrow a s = some t → t.high = s.high) ∧
    (∀ x, s.low ≤ x → x ≤ s.high → ∃ e ∈ s.model.entries, ∃ t, narrow e s = some t ∧ t.low ≤ x ∧ x ≤ t.high ∧
      ∀ a ∈ s.model.entries, ∀ u, narrow a s = some u → u.low ≤ x → x ≤ u.high → a = e)

/-- R103: the case tests in their order. -/
def Obligations.CaseSelection : Prop :=
  ∀ (c : Config) (low high : Nat), 2 ≤ c.prec → low ≤ high →
    (caseOf c low high = .e1 ↔ high < 2 ^ (c.prec - 1)) ∧
    (caseOf c low high = .e2 ↔ 2 ^ (c.prec - 1) ≤ low) ∧
    (caseOf c low high = .e3 ↔
      low < 2 ^ (c.prec - 1) ∧ 2 ^ (c.prec - 1) ≤ high ∧ 2 ^ (c.prec - 2) ≤ low ∧ high < 3 * 2 ^ (c.prec - 2)) ∧
    (caseOf c low high = .stop ↔
      low < 2 ^ (c.prec - 1) ∧ 2 ^ (c.prec - 1) ≤ high ∧ (low < 2 ^ (c.prec - 2) ∨ 3 * 2 ^ (c.prec - 2) ≤ high))

/-- R107 to R109, which the spec marks as derived: the loop ends after at most `P` steps, encoder and decoder alike; every step
doubles the range and keeps the ends in order and in the code space; where the loop ends the interval straddles the midpoint and
is wider than a quarter. -/
def Obligations.RenormalizationEnds : Prop :=
  ∀ s : State, 2 ≤ s.cfg.prec → s.low ≤ s.high → s.high ≤ s.cfg.top →
    (∃ n t, Steps DecStep n s t ∧ renormCase t = .stop) ∧
    (s.cfg.pendMax = none → ∃ n t, Steps EncStep n s t ∧ renormCase t = .stop) ∧
    (∀ n t, Steps EncStep n s t ∨ Steps DecStep n s t →
      n ≤ s.cfg.prec ∧ t.low ≤ t.high ∧ t.high ≤ 2 ^ s.cfg.prec - 1 ∧ t.high - t.low + 1 = 2 ^ n * (s.high - s.low + 1) ∧
      (renormCase t = .stop →
        t.low < 2 ^ (s.cfg.prec - 1) ∧ 2 ^ (s.cfg.prec - 1) ≤ t.high ∧
        (t.low < 2 ^ (s.cfg.prec - 2) ∨ 3 * 2 ^ (s.cfg.prec - 2) ≤ t.high) ∧
        2 ^ (s.cfg.prec - 2) + 2 ≤ t.high - t.low + 1))

/-- R106: the loops of the model answer exactly where the micro-steps end; their fuel never cuts a loop short. -/
def Obligations.LoopsFollowMicroSteps : Prop :=
  ∀ s t : State, 2 ≤ s.cfg.prec →
    (renormEnc s.cfg.prec s = .done t ↔ ∃ n, Steps EncStep n s t ∧ renormCase t = .stop) ∧
    (renormDec s.cfg.prec s = some t ↔ ∃ n, Steps DecStep n s t ∧ renormCase t = .stop)

/-- R101, U3: what the model's stop for an endless loop (log entry 8) means: from there the micro-steps go on for ever. -/
def Obligations.EndlessMeansEndless : Prop :=
  ∀ (s : State) (x : Nat), 2 ≤ s.cfg.prec →
    (exec (.encSym x) s = .fault .endlessRenormalization →
      ∃ e, s.model.bySymbol x = some e ∧
        (narrow e s = none ∨ ∃ s₁, narrow e s = some s₁ ∧ ∀ n t, Steps EncStep n s₁ t → renormCase t ≠ .stop)) ∧
    (exec .decSym s = .fault .endlessRenormalization →
      ∃ e, s.model.byTarget (targetNow s) = some e ∧
        (narrow e s = none ∨
          ∃ s₁, narrow e (symPut e.symbol s) = some s₁ ∧ ∀ n t, Steps DecStep n s₁ t → renormCase t ≠ .stop)) ∧
    (∀ low high, high < low → caseOf s.cfg low high ≠ .stop ∧
      scale s.cfg (caseOf s.cfg low high) high true < scale s.cfg (caseOf s.cfg low high) low false)

/-- R105 (derived in the spec): where E1 (or E2) and E3 both hold, the two orders reach the same state, bits and registers. -/
def Obligations.OverlapIsHarmless : Prop :=
  ∀ s : State, 2 ≤ s.cfg.prec → s.low ≤ s.high →
    let q := 2 ^ (s.cfg.prec - 2)
    (q ≤ s.low → s.high < 2 * q →
      renormCase s = .e1 ∧ renormCase (encE1 s) = .e2 ∧ renormCase (encE3 s) = .e1 ∧
      encE2 (encE1 s) = encE1 (encE3 s) ∧
      encE2 (encE1 s) = { s with
        low := 4 * s.low - 4 * q, high := 4 * s.high - 4 * q + 3, pend := 0
        out := s.out ++ false :: (List.replicate s.pend true ++ [true]), outlen := s.outlen + (s.pend + 2) }) ∧
    (2 * q ≤ s.low → s.high < 3 * q →
      renormCase s = .e2 ∧ renormCase (encE2 s) = .e1 ∧ renormCase (encE3 s) = .e2 ∧
      encE1 (encE2 s) = encE2 (encE3 s) ∧
      encE1 (encE2 s) = { s with
        low := 4 * s.low - 8 * q, high := 4 * s.high - 8 * q + 3, pend := 0
        out := s.out ++ true :: (List.replicate s.pend false ++ [false]), outlen := s.outlen + (s.pend + 2) })

/-- R106 (derived in the spec): from equal intervals and totals, an encoder given a symbol and a decoder that decodes it end on equal intervals. -/
def Obligations.DecoderMirrorsEncoder : Prop :=
  ∀ (a b a' b' : State) (x : Nat), a.cfg.prec = b.cfg.prec → 2 ≤ a.cfg.prec → a.model.WF → a.model = b.model →
    a.low = b.low → a.high = b.high → a.total = b.total → a.ph = .enc → b.ph = .dec →
    exec (.encSym x) a = .next a' → a'.ph ≠ .fault →
    exec .decSym b = .next b' → b'.symout = b.symout ++ [x] →
    a'.low = b'.low ∧ a'.high = b'.high

/-! ### The encoder (41_encoder.md) -/

/-- R120: what `ENC_INIT` raises, in the order of its tests, and its effect when nothing is raised: every register it writes,
and nothing else; the decoder's registers (5, 9, 10) come to hold no value. -/
def Obligations.EncInitStartsSession : Prop :=
  ∀ s : State, s.ph ≠ .fault → 2 ≤ s.cfg.prec →
    (s.ph ∉ [.idle, .encDone, .decDone] →
      exec .encInit s = .next { s with ph := .fault, err := some .illegalCommand }) ∧
    (s.ph ∈ [.idle, .encDone, .decDone] →
      (s.model.total = 0 → exec .encInit s = .next { s with ph := .fault, err := some .emptyModelError }) ∧
      (2 ^ (s.cfg.prec - 2) ≤ s.model.total →
        exec .encInit s = .next { s with ph := .fault, err := some .precisionOverflowError }) ∧
      (0 < s.model.total → s.model.total < 2 ^ (s.cfg.prec - 2) →
        ∃ t, exec .encInit s = .next t ∧
          t = { s with
            total := s.model.total, sent := s.model.sentinel, low := 0, high := 2 ^ s.cfg.prec - 1, pend := 0
            out := [], outlen := 0, ph := .enc, held := some .encoder
            code := t.code, cur := t.cur, symlen := t.symlen, symout := t.symout, draws := t.draws } ∧
          ∀ i, holdsValue t.held i = true ↔ i ∈ [0, 1, 2, 3, 4, 6, 7, 8]))

/-- R121: the determined bit, then the pending complements, then the count is cleared; nothing else changes. -/
def Obligations.EmitWritesBitThenComplements : Prop :=
  ∀ (b : Bool) (s : State),
    emit b s = { s with
      out := s.out ++ [b] ++ List.replicate s.pend (!b), outlen := s.outlen + 1 + s.pend, pend := 0 }

/-- R122 to R124: the three encoder steps, their conditions and their whole effect; where E3 is due and the counter is full there
is no step, and the loop ends in `PendingOverflow` (which cancels the command, `PendingOverflowRaises`). -/
def Obligations.EncoderMicroSteps : Prop :=
  ∀ s t : State, 2 ≤ s.cfg.prec → s.low ≤ s.high →
    let q := 2 ^ (s.cfg.prec - 2)
    (s.high < 2 * q →
      (EncStep s t ↔ t = { s with
        low := 2 * s.low, high := 2 * s.high + 1, pend := 0
        out := s.out ++ false :: List.replicate s.pend true, outlen := s.outlen + (s.pend + 1) })) ∧
    (2 * q ≤ s.low →
      (EncStep s t ↔ t = { s with
        low := 2 * (s.low - 2 * q), high := 2 * (s.high - 2 * q) + 1, pend := 0
        out := s.out ++ true :: List.replicate s.pend false, outlen := s.outlen + (s.pend + 1) })) ∧
    (q ≤ s.low → s.low < 2 * q → 2 * q ≤ s.high → s.high < 3 * q →
      (EncStep s t ↔ s.cfg.pendMax ≠ some s.pend ∧
        t = { s with low := 2 * (s.low - q), high := 2 * (s.high - q) + 1, pend := s.pend + 1 }) ∧
      (s.cfg.pendMax = some s.pend → ∀ fuel, renormEnc (fuel + 1) s = .overflow))

/-- R126: what `ENC_SYM x` raises, in the order of its tests; otherwise it narrows to the entry's slice, renormalizes and, for
the sentinel, leaves `ENC`, or an E3 step finds the pending-bit counter full and the whole command is cancelled. -/
def Obligations.EncSymNarrowsThenRenormalizes : Prop :=
  ∀ (s : State) (x : Nat), s.ph ≠ .fault → 2 ≤ s.cfg.prec →
    (s.ph ≠ .enc → exec (.encSym x) s = .next { s with ph := .fault, err := some .illegalCommand }) ∧
    (s.ph = .enc → s.model.bySymbol x = none →
      exec (.encSym x) s = .next { s with ph := .fault, err := some .unknownSymbolError }) ∧
    (∀ e, s.ph = .enc → s.model.bySymbol x = some e → s.low ≤ s.high → 0 < s.total →
      let range := s.high - s.low + 1
      let newLow := s.low + range * e.cl / s.total
      let newEnd := s.low + range * e.ch / s.total
      newLow < newEnd → newLow ≤ s.cfg.top →
      let s₁ : State := { s with low := newLow, high := newEnd - 1 }
      (∃ n u, n ≤ s.cfg.prec ∧ Steps EncStep n s₁ u ∧ renormCase u = .stop ∧
        exec (.encSym x) s = .next (if x = s.sent then { u with ph := .encEos } else u)) ∨
      (∃ n u, n < s.cfg.prec ∧ Steps EncStep n s₁ u ∧ renormCase u = .e3 ∧ s.cfg.pendMax = some u.pend ∧
        exec (.encSym x) s = .next { s with ph := .fault, err := some .pendingOverflow }))

/-- R126, R127: in a session on a well-formed table with an unbounded counter, `ENC_SYM` of every symbol of the table
completes. -/
def Obligations.EncSymCompletes : Prop :=
  ∀ (s : State) (x : Nat), Inv s → TableInv s → s.model.WF → s.cfg.pendMax = none → s.ph = .enc →
    (∃ e ∈ s.model.entries, e.symbol = x) →
    ∃ t, exec (.encSym x) s = .next t ∧ t.ph = (if x = s.model.sentinel then .encEos else .enc) ∧
      t.low < 2 ^ (s.cfg.prec - 1) ∧ 2 ^ (s.cfg.prec - 1) ≤ t.high ∧ t.high ≤ 2 ^ s.cfg.prec - 1

/-- R129 (derived in the spec), R239: every renormalization step accounts for one bit, written or pending; so a command that takes
`n` steps raises `OUTLEN + PEND` by `n`, and appends at most `P + PEND` bits; the flush writes the pending ones and two more. -/
def Obligations.EveryStepIsOneBit : Prop :=
  (∀ s t : State, EncStep s t → t.outlen + t.pend = s.outlen + s.pend + 1 ∧ s.outlen ≤ t.outlen) ∧
  (∀ (s t : State) (x : Nat), s.ph = .enc → exec (.encSym x) s = .next t → t.ph ≠ .fault →
    ∃ e s₁ n u, s.model.bySymbol x = some e ∧ narrow e s = some s₁ ∧ Steps EncStep n s₁ u ∧ renormCase u = .stop ∧
      t = (if x = s.sent then { u with ph := .encEos } else u) ∧
      n ≤ s.cfg.prec ∧ t.outlen + t.pend = s.outlen + s.pend + n ∧ s.outlen ≤ t.outlen ∧
      t.outlen ≤ s.outlen + s.pend + s.cfg.prec) ∧
  (∀ s t : State, s.ph = .encEos → exec .encFlush s = .next t → t.ph ≠ .fault →
    t.outlen = s.outlen + s.pend + 2 ∧ t.pend = 0)

/-- R127: the first sentinel, wherever it stands in the host's data, ends the symbol phase: only the phase distinguishes it
from the same symbol in a session with another sentinel, and afterwards only `ENC_FLUSH`, `RESET` and
`NOP` are accepted. -/
def Obligations.SentinelEndsSymbolPhase : Prop :=
  ∀ s t : State, s.ph = .enc → exec (.encSym s.sent) s = .next t → t.ph ≠ .fault →
    t.ph = .encEos ∧
    (∀ other, other ≠ s.sent →
      exec (.encSym s.sent) { s with sent := other } = .next { t with sent := other, ph := .enc }) ∧
    (∀ i : Instr, i ≠ .encFlush → i ≠ .reset → i ≠ .nop →
      exec i t = .next { t with ph := .fault, err := some .illegalCommand }) ∧
    exec .nop t = .next t ∧ (∃ u, exec .reset t = .next u ∧ u.ph = .idle) ∧
    (∃ u, exec .encFlush t = .next u ∧ if t.cfg.pendMax = some t.pend then u.err = some .pendingOverflow else u.ph = .encDone)

/-- R128: what `ENC_FLUSH` raises, in the order of its tests, and otherwise its whole effect. -/
def Obligations.EncFlushWritesFinalBits : Prop :=
  ∀ s : State, s.ph ≠ .fault → 2 ≤ s.cfg.prec →
    (s.ph ≠ .encEos → exec .encFlush s = .next { s with ph := .fault, err := some .illegalCommand }) ∧
    (s.ph = .encEos → s.cfg.pendMax = some s.pend →
      exec .encFlush s = .next { s with ph := .fault, err := some .pendingOverflow }) ∧
    (s.ph = .encEos → s.cfg.pendMax ≠ some s.pend → s.low < 2 ^ (s.cfg.prec - 2) →
      exec .encFlush s = .next { s with
        out := s.out ++ false :: List.replicate (s.pend + 1) true, outlen := s.outlen + (s.pend + 2)
        pend := 0, ph := .encDone }) ∧
    (s.ph = .encEos → s.cfg.pendMax ≠ some s.pend → 2 ^ (s.cfg.prec - 2) ≤ s.low →
      exec .encFlush s = .next { s with
        out := s.out ++ true :: List.replicate (s.pend + 1) false, outlen := s.outlen + (s.pend + 2)
        pend := 0, ph := .encDone })

/-! ### The decoder (42_decoder.md) -/

/-- R150: what `DEC_INIT` raises, in the order of its tests, and its effect when nothing is raised: `CODE` is the first `P`
source bits, the first most significant, zeros past the end; every register it writes, and nothing else; the encoder's registers (4, 8) come to hold no
value. -/
def Obligations.DecInitStartsSession : Prop :=
  ∀ s : State, s.ph ≠ .fault → 2 ≤ s.cfg.prec →
    (s.ph ∉ [.idle, .encDone, .decDone] →
      exec .decInit s = .next { s with ph := .fault, err := some .illegalCommand }) ∧
    (s.ph ∈ [.idle, .encDone, .decDone] →
      (s.model.total = 0 → exec .decInit s = .next { s with ph := .fault, err := some .emptyModelError }) ∧
      (2 ^ (s.cfg.prec - 2) ≤ s.model.total →
        exec .decInit s = .next { s with ph := .fault, err := some .precisionOverflowError }) ∧
      (0 < s.model.total → s.model.total < 2 ^ (s.cfg.prec - 2) →
        ∃ t, exec .decInit s = .next t ∧
          t = { s with
            total := s.model.total, sent := s.model.sentinel, low := 0, high := 2 ^ s.cfg.prec - 1
            code := t.code, cur := s.cfg.prec, symout := [], symlen := 0, ph := .dec, held := some .decoder
            pend := t.pend, out := t.out, outlen := t.outlen, draws := t.draws } ∧
          t.code < 2 ^ s.cfg.prec ∧
          (∀ i, i < s.cfg.prec → t.code.testBit (s.cfg.prec - 1 - i) = s.inp.getD i false) ∧
          ∀ i, holdsValue t.held i = true ↔ i ∈ [0, 1, 2, 3, 5, 6, 7, 9, 10]))

/-- R151: the exact target selects, of a well-formed table, the one entry whose narrowed interval contains `CODE`. -/
def Obligations.ExactTargetSelectsByInterval : Prop :=
  ∀ (m : ModelTable) (low high code : Nat), m.WF → low ≤ code → code ≤ high → m.total ≤ high - low + 1 →
    let range := high - low + 1
    let target := targetOf .exact low high code m.total
    target = ((((code - low + 1) * m.total - 1) / range : Nat) : Int) ∧ target ≤ m.total - 1 ∧
    ∃ e ∈ m.entries, m.byTarget target = some e ∧
      low + range * e.cl / m.total ≤ code ∧ code < low + range * e.ch / m.total ∧
      ∀ a ∈ m.entries, low + range * a.cl / m.total ≤ code → code < low + range * a.ch / m.total → a = e

/-- R152, its consequences (derived in the spec): what the document's literal target does: it never exceeds the exact one; the entry it selects starts at or below
`CODE` and ends at most one below it; once `CODE` is above `HIGH` the next `DEC_SYM` raises `DecodeRangeError`. -/
def Obligations.TruncTargetFallsShort : Prop :=
  (∀ low high code total : Nat, low ≤ code → low ≤ high → 0 < total →
    targetOf .trunc low high code total = (((code - low) * total / (high - low + 1) : Nat) : Int) ∧
    targetOf .trunc low high code total ≤ targetOf .exact low high code total) ∧
  (∀ (m : ModelTable) (low high code : Nat) (e : Entry), m.WF → low ≤ code → low ≤ high →
    m.byTarget (targetOf .trunc low high code m.total) = some e →
    low + (high - low + 1) * e.cl / m.total ≤ code ∧ code ≤ low + (high - low + 1) * e.ch / m.total) ∧
  (∀ (n : Nat) (s t : State), 2 ≤ s.cfg.prec → s.low ≤ s.high → s.high < s.code → Steps DecStep n s t →
    t.high < t.code) ∧
  (∀ s : State, s.cfg.targetRule = .trunc → s.ph = .dec → s.model.WF → s.total = s.model.total → s.low ≤ s.high →
    s.high < s.code →
    exec .decSym s = .next { s with ph := .fault, err := some .decodeRangeError })

/-- R153 to R155: the three decoder steps, their conditions and their whole effect. -/
def Obligations.DecoderMicroSteps : Prop :=
  ∀ s t : State, 2 ≤ s.cfg.prec → s.low ≤ s.high →
    let q := 2 ^ (s.cfg.prec - 2)
    let b := (s.inp.getD s.cur false).toNat
    (s.high < 2 * q →
      (DecStep s t ↔ t = { s with
        low := 2 * s.low, high := 2 * s.high + 1, code := 2 * s.code + b, cur := s.cur + 1 })) ∧
    (2 * q ≤ s.low →
      (DecStep s t ↔ t = { s with
        low := 2 * (s.low - 2 * q), high := 2 * (s.high - 2 * q) + 1, code := 2 * (s.code - 2 * q) + b
        cur := s.cur + 1 })) ∧
    (q ≤ s.low → s.low < 2 * q → 2 * q ≤ s.high → s.high < 3 * q →
      (DecStep s t ↔ t = { s with
        low := 2 * (s.low - q), high := 2 * (s.high - q) + 1, code := 2 * (s.code - q) + b, cur := s.cur + 1 }))

/-- R157: what `DEC_SYM` raises, in the order of its tests; the sentinel only changes the phase; any other symbol is appended,
the interval narrows to its slice and is renormalized, one source bit read per step. -/
def Obligations.DecSymDecodesOneSymbol : Prop :=
  ∀ s : State, s.ph ≠ .fault → 2 ≤ s.cfg.prec →
    (s.ph ≠ .dec → exec .decSym s = .next { s with ph := .fault, err := some .illegalCommand }) ∧
    (s.ph = .dec → s.low ≤ s.high → 0 < s.total →
      let target := targetOf s.cfg.targetRule s.low s.high s.code s.total
      (s.model.byTarget target = none →
        exec .decSym s = .next { s with ph := .fault, err := some .decodeRangeError }) ∧
      (∀ e, s.model.byTarget target = some e → e.symbol = s.sent → exec .decSym s = .next { s with ph := .decDone }) ∧
      (∀ e, s.model.byTarget target = some e → e.symbol ≠ s.sent →
        let range := s.high - s.low + 1
        let newLow := s.low + range * e.cl / s.total
        let newEnd := s.low + range * e.ch / s.total
        newLow < newEnd → newLow ≤ s.cfg.top →
        let s₁ : State := { s with
          symout := s.symout ++ [e.symbol], symlen := s.symlen + 1, low := newLow, high := newEnd - 1 }
        ∃ n u, n ≤ s.cfg.prec ∧ Steps DecStep n s₁ u ∧ renormCase u = .stop ∧ u.cur = s.cur + n ∧
          exec .decSym s = .next u))

/-- R158: decoding the sentinel ends the session and changes nothing but the phase. -/
def Obligations.DecSymStopsAtSentinel : Prop :=
  ∀ (s : State) (e : Entry), s.ph = .dec → s.low ≤ s.high → 0 < s.total →
    s.model.byTarget (targetOf s.cfg.targetRule s.low s.high s.code s.total) = some e → e.symbol = s.sent →
    exec .decSym s = .next { s with ph := .decDone } ∧
    decoderResult { s with ph := .decDone } = some s.symout

/-- R160 (derived in the spec): under `EXACT` with a well-formed table `DEC_SYM` completes, whatever the source holds: `DecodeRangeError` is
unreachable. -/
def Obligations.DecSymCompletesUnderExact : Prop :=
  ∀ s : State, Inv s → TableInv s → s.model.WF → s.cfg.targetRule = .exact → s.ph = .dec →
    ∃ t, exec .decSym s = .next t ∧
      ((t.ph = .decDone ∧ t.symout = s.symout) ∨
       (t.ph = .dec ∧ ∃ x, x ≠ s.model.sentinel ∧ t.symout = s.symout ++ [x]))

/-- R126, R127, R157, R158, R163: what `ENC_SYM` and `DEC_SYM` leave unchanged when they complete: every register that is not
named, every space, and what the sequence they append to already held. -/
def Obligations.SymbolCommandFrames : Prop :=
  (∀ (s t : State) (x : Nat), s.ph = .enc → exec (.encSym x) s = .next t → t.ph ≠ .fault →
    t = { s with low := t.low, high := t.high, pend := t.pend, out := t.out, outlen := t.outlen, ph := t.ph } ∧
    (∀ j, j < s.out.length → t.out[j]? = s.out[j]?)) ∧
  (∀ s t : State, s.ph = .dec → exec .decSym s = .next t → t.ph ≠ .fault →
    t = { s with
      low := t.low, high := t.high, code := t.code, cur := t.cur, symout := t.symout, symlen := t.symlen, ph := t.ph } ∧
    (t.ph = .decDone → t = { s with ph := .decDone }) ∧
    (∀ j, j < s.symout.length → t.symout[j]? = s.symout[j]?))

/-- R159 (derived in the spec): under `EXACT` the window stays in the interval, from `DEC_INIT` on and for every source; under `TRUNC` only its
lower bound is kept. -/
def Obligations.WindowStaysInInterval : Prop :=
  (∀ s t : State, s.ph ≠ .fault → exec .decInit s = .next t → t.ph = .dec → t.low ≤ t.code ∧ t.code ≤ t.high) ∧
  (∀ s t : State, 2 ≤ s.cfg.prec → s.ph = .dec → s.model.WF → s.total = s.model.total →
    s.total ≤ s.high - s.low + 1 → s.low ≤ s.code → s.low ≤ s.high → exec .decSym s = .next t → t.ph ≠ .fault →
    t.low ≤ t.code ∧ (s.cfg.targetRule = .exact → s.code ≤ s.high → t.code ≤ t.high))

/-- R161, and, for the bits that may follow, R62 and R130 (the spec marks R130 and R161's argument as derived): the round trip.
For every `P >= 3`, every text without the sentinel that is short enough for `P`, its symbols `SYM_BITS` wide (R51), the table
built from it, and `EXACT`: encoding ends in `ENC_DONE`, and decoding its output, whatever bits follow it, ends in `DEC_DONE`
with the text; only with a bounded counter can encoding end in `PendingOverflow` instead (R206). -/
def Obligations.RoundTripUnderExact : Prop :=
  ∀ (c : Config) (text : List Nat) (sentinel : Nat) (s : State),
    3 ≤ c.prec → c.symBits ≤ 24 → c.targetRule = .exact →
    (∀ x ∈ sentinel :: text, x < 2 ^ c.symBits) → sentinel ∉ text → text.length + 1 < 2 ^ (c.prec - 2) →
    s.cfg = c → s.ph = .idle → s.model = modelBuiltFrom text sentinel →
    ∃ t, runCommands (encodeCommands text sentinel) s = .next t ∧
      ((c.pendMax ≠ none ∧ t.ph = .fault ∧ t.err = some .pendingOverflow) ∨
       (t.ph = .encDone ∧
        ∀ (d : State) (suffix : List Bool),
          d.cfg = c → d.ph = .idle → d.model = modelBuiltFrom text sentinel → d.inp = t.out ++ suffix →
          ∃ u, decodeSession (text.length + 1) d = .next u ∧ u.ph = .decDone ∧ u.symout = text))

/-- C1, R161: under `TRUNC`, the document's literal formula, the round trip fails (program P4). -/
def Obligations.RoundTripFailsUnderTrunc : Prop :=
  ∃ (text : List Nat) (sentinel : Nat) (c : Config) (t u : State),
    c.targetRule = .trunc ∧ 3 ≤ c.prec ∧ sentinel ∉ text ∧ text.length + 1 < 2 ^ (c.prec - 2) ∧
    runCommands (encodeCommands text sentinel)
      { State.resetWith c with model := modelBuiltFrom text sentinel } = .next t ∧ t.ph = .encDone ∧
    decodeSession (text.length + 1)
      { State.resetWith c with model := modelBuiltFrom text sentinel, inp := t.out } = .next u ∧
    u.ph = .fault ∧ u.err = some .decodeRangeError

/-- R162 (derived in the spec): a decode need not end: on an empty source and the table of R162, no number of `DEC_SYM` commands leaves `DEC`, and
each decodes one more 97. -/
def Obligations.DecodeNeedNotEnd : Prop :=
  let table : ModelTable :=
    { entries := [{ symbol := 97, frequency := 1, cl := 0, ch := 1 }, { symbol := 256, frequency := 1, cl := 1, ch := 2 }]
      total := 2, sentinel := 256 }
  ∀ (s : State), s.cfg = Config.vectors → s.ph = .idle → s.model = table → s.inp = [] →
    (∀ fuel, ∃ t, decodeSession fuel s = .next t ∧ t.ph = .dec ∧ t.low = 0 ∧ t.high = 255 ∧ t.code = 0 ∧
      t.cur = 8 + fuel ∧ t.symout = List.replicate fuel 97) ∧
    ∀ t, ¬ DecodesTo s t

/-! ### The whole machine -/

/-- R20 to R37, R108: the invariant holds at reset, for every choice of the parameters, and so does the table's. -/
def Obligations.ResetMeetsInvariants : Prop :=
  ∀ c : Config, Inv (State.resetWith c) ∧ TableInv (State.resetWith c)

/-- R21, R23, R24, R26, R31, R33, R35, R37: every step keeps the invariant, from every state that meets it. -/
def Obligations.StepKeepsInv : Prop :=
  ∀ s t : State, Inv s → step s = .next t → Inv t

/-- R20, R26, R27, R159: every step keeps what a well-formed table gives its sessions. -/
def Obligations.StepKeepsTableInv : Prop :=
  ∀ s t : State, Inv s → TableInv s → step s = .next t → TableInv t

/-- R101, R107, R110: on a well-formed table nothing the host issues stops the engine: every step that is not a host's write
inside a session answers a next state. -/
def Obligations.LegalRunsNeverStop : Prop :=
  ∀ s : State, Inv s → TableInv s → s.model.WF →
    (s.ph.inSession = true → ∀ m bits rest, s.inbox ≠ .loadModel m :: rest ∧ s.inbox ≠ .loadSource bits :: rest) →
    ∃ t, step s = .next t

/-- R38: a register that holds no value influences nothing: states that agree on everything else answer every command alike,
so no session depends on what an earlier one left. -/
def Obligations.SessionsForgetThePast : Prop :=
  ∀ (a b : State) (i : Instr), Inv a → Inv b → SameSession a b →
    Result.Related SameSession (exec i a) (exec i b)
end

