-- ==== Sys2Proof/Laws/Interval.lean ====
section
/-! SUPPORT. The arithmetic of the interval unit: the constants as multiples of the quarter, what each case means, what a
scaling does to an interval, what narrowing leaves (R101, R103 to R109). -/

namespace Sys2Proof.Machine

open Sys2Proof

/-! ### The constants (R5) -/

theorem firstQuarter_pos (c : Config) : 0 < c.firstQuarter := Nat.pow_pos (by decide)

theorem pow_prec_eq {c : Config} (hP : 2 ≤ c.prec) : 2 ^ c.prec = 4 * c.firstQuarter := by
  obtain ⟨k, hk⟩ := Nat.exists_eq_add_of_le hP
  simp only [Config.firstQuarter, hk, Nat.add_sub_cancel_left, Nat.pow_add]

theorem half_eq {c : Config} (hP : 2 ≤ c.prec) : c.half = 2 * c.firstQuarter := by
  obtain ⟨k, hk⟩ := Nat.exists_eq_add_of_le hP
  have : 2 + k - 1 = 1 + k := by omega
  simp only [Config.half, Config.firstQuarter, hk, Nat.add_sub_cancel_left, this, Nat.pow_add]

theorem top_eq {c : Config} (hP : 2 ≤ c.prec) : c.top = 4 * c.firstQuarter - 1 := by
  rw [Config.top, pow_prec_eq hP]

theorem thirdQuarter_eq (c : Config) : c.thirdQuarter = 3 * c.firstQuarter := rfl

/-- A total that a session accepts needs `P >= 3` (R4). -/
theorem three_le_prec {c : Config} {t : Nat} (h0 : 0 < t) (h : t < c.firstQuarter) : 3 ≤ c.prec := by
  by_contra hP
  have : c.prec - 2 = 0 := by omega
  simp only [Config.firstQuarter, this] at h
  omega

/-! ### The cases (R103) -/

theorem caseOf_e1_iff {c : Config} {l h : Nat} : caseOf c l h = .e1 ↔ h < c.half := by
  unfold caseOf; split_ifs <;> simp_all

theorem caseOf_e2_iff {c : Config} {l h : Nat} : caseOf c l h = .e2 ↔ c.half ≤ h ∧ c.half ≤ l := by
  unfold caseOf; split_ifs <;> simp_all

theorem caseOf_e3_iff {c : Config} {l h : Nat} :
    caseOf c l h = .e3 ↔ c.half ≤ h ∧ l < c.half ∧ c.firstQuarter ≤ l ∧ h < c.thirdQuarter := by
  unfold caseOf; split_ifs <;> simp_all

theorem caseOf_stop_iff {c : Config} {l h : Nat} :
    caseOf c l h = .stop ↔ c.half ≤ h ∧ l < c.half ∧ (l < c.firstQuarter ∨ c.thirdQuarter ≤ h) := by
  unfold caseOf; split_ifs <;> simp_all; omega

/-- What a case subtracts never exceeds `LOW` (R104, R111), nor `HIGH` even where the interval is empty. -/
theorem offset_le_low {c : Config} {l h : Nat} : offsetOf c (caseOf c l h) ≤ l := by
  cases hk : caseOf c l h with
  | e1 => simp [offsetOf]
  | e2 => exact (caseOf_e2_iff.1 hk).2
  | e3 => exact (caseOf_e3_iff.1 hk).2.2.1
  | stop => simp [offsetOf]

theorem offset_le_high {c : Config} {l h : Nat} (hP : 2 ≤ c.prec) : offsetOf c (caseOf c l h) ≤ h := by
  cases hk : caseOf c l h with
  | e1 => simp [offsetOf]
  | e2 => exact (caseOf_e2_iff.1 hk).1
  | e3 =>
    have h1 := (caseOf_e3_iff.1 hk).1
    rw [half_eq hP] at h1
    simp only [offsetOf]; omega
  | stop => simp [offsetOf]

/-! ### A scaling keeps the order of the ends and doubles the interval (R104, R107, R109) -/

/-- `Sk` is increasing in the value and in the bit (R159). -/
theorem scale_mono {c : Config} {k : RenormCase} {x y : Nat} {f g : Bool}
    (h : x ≤ y) (hfg : f.toNat ≤ g.toNat) : scale c k x f ≤ scale c k y g := by
  simp only [scale]; omega

/-- The number of code points doubles: "each step maps `range` to `2*range`" (R107). -/
theorem scale_range {c : Config} {k : RenormCase} {l h : Nat} (hk : offsetOf c k ≤ l) (hlh : l ≤ h) :
    rangeOf (scale c k l false) (scale c k h true) = 2 * rangeOf l h := by
  simp only [scale, rangeOf, Bool.toNat_false, Bool.toNat_true]; omega

/-- The ends stay in the code space (R109). -/
theorem scale_high_le {c : Config} {l h : Nat} (hP : 2 ≤ c.prec) (hh : h ≤ c.top) (hk : caseOf c l h ≠ .stop) :
    scale c (caseOf c l h) h true ≤ c.top := by
  have hq := firstQuarter_pos c
  have h2 := half_eq hP
  have h4 := top_eq hP
  have h3 := thirdQuarter_eq c
  cases hc : caseOf c l h with
  | e1 => have := caseOf_e1_iff.1 hc; simp only [scale, offsetOf, Bool.toNat_true]; omega
  | e2 => have := caseOf_e2_iff.1 hc; simp only [scale, offsetOf, Bool.toNat_true]; omega
  | e3 => have := caseOf_e3_iff.1 hc; simp only [scale, offsetOf, Bool.toNat_true]; omega
  | stop => exact absurd hc hk

/-- The code points of `[l, h]` inside the code space. -/
def span (c : Config) (l h : Nat) : Nat := min (h + 1) (2 ^ c.prec) - l

/-- A step is possible only while at most half of the code space is covered (R107). -/
theorem span_le_half {c : Config} {l h : Nat} (hP : 2 ≤ c.prec) (hk : caseOf c l h ≠ .stop) : span c l h ≤ c.half := by
  have h2 := half_eq hP
  have h4 := pow_prec_eq hP
  have h3 := thirdQuarter_eq c
  simp only [span, h4]
  cases hc : caseOf c l h with
  | e1 => have := caseOf_e1_iff.1 hc; omega
  | e2 => have := caseOf_e2_iff.1 hc; omega
  | e3 => have := caseOf_e3_iff.1 hc; omega
  | stop => exact absurd hc hk

/-- A step doubles what is covered. -/
theorem span_scale {c : Config} {l h : Nat} (hP : 2 ≤ c.prec) (hlh : l ≤ h) (hl : l ≤ c.top) (hk : caseOf c l h ≠ .stop) :
    span c (scale c (caseOf c l h) l false) (scale c (caseOf c l h) h true) = 2 * span c l h ∧
      scale c (caseOf c l h) l false ≤ scale c (caseOf c l h) h true ∧
      scale c (caseOf c l h) l false ≤ c.top := by
  have hq := firstQuarter_pos c
  have h2 := half_eq hP
  have ht := top_eq hP
  have h4 := pow_prec_eq hP
  have h3 := thirdQuarter_eq c
  simp only [span, h4, scale, Bool.toNat_true, Bool.toNat_false]
  cases hc : caseOf c l h with
  | e1 => have := caseOf_e1_iff.1 hc; simp only [offsetOf]; omega
  | e2 => have := caseOf_e2_iff.1 hc; simp only [offsetOf]; omega
  | e3 => have := caseOf_e3_iff.1 hc; simp only [offsetOf]; omega
  | stop => exact absurd hc hk

/-- Where the loop stops, the interval straddles the midpoint and is wider than a quarter (R108). -/
theorem range_of_stop {c : Config} {l h : Nat} (hP : 2 ≤ c.prec) (hs : caseOf c l h = .stop) :
    c.firstQuarter + 2 ≤ rangeOf l h := by
  have h2 := half_eq hP
  have h3 := thirdQuarter_eq c
  have := caseOf_stop_iff.1 hs
  simp only [rangeOf]; omega

/-! ### Intervals the loop cannot end on -/

/-- From an empty interval no case test answers NONE, and the scaled interval is empty again: the loop of R106 never ends. -/
theorem empty_never_stops {c : Config} {l h : Nat} (he : h < l) :
    caseOf c l h ≠ .stop ∧
      scale c (caseOf c l h) h true < scale c (caseOf c l h) l false := by
  have hk : caseOf c l h = .e1 ∨ caseOf c l h = .e2 := by
    rcases Nat.lt_or_ge h c.half with h1 | h1
    · exact .inl (caseOf_e1_iff.2 h1)
    · exact .inr (caseOf_e2_iff.2 ⟨h1, by omega⟩)
  rcases hk with hk | hk <;> rw [hk] <;> refine ⟨by decide, ?_⟩
  · simp only [scale, offsetOf, Bool.toNat_true, Bool.toNat_false]; omega
  · have := caseOf_e2_iff.1 hk
    simp only [scale, offsetOf, Bool.toNat_true, Bool.toNat_false]; omega

/-- From an interval above the code space the loop never ends either. -/
theorem above_never_stops {c : Config} {l h : Nat} (hP : 2 ≤ c.prec) (hlh : l ≤ h) (ha : c.top < l) :
    caseOf c l h ≠ .stop ∧ c.top < scale c (caseOf c l h) l false ∧
      scale c (caseOf c l h) l false ≤ scale c (caseOf c l h) h true := by
  have hq := firstQuarter_pos c
  have h2 := half_eq hP
  have ht := top_eq hP
  have hk : caseOf c l h = .e2 := caseOf_e2_iff.2 ⟨by omega, by omega⟩
  rw [hk]
  refine ⟨by decide, ?_⟩
  simp only [scale, offsetOf, Bool.toNat_true, Bool.toNat_false]; omega

/-! ### Narrowing (R101) -/

theorem narrowLow_ge {l h t cl : Nat} : l ≤ narrowLow l h t cl := Nat.le_add_right _ _

theorem narrowEnd_le {l h t ch : Nat} (hch : ch ≤ t) (hlh : l ≤ h) : narrowEnd l h t ch ≤ h + 1 := by
  have : rangeOf l h * ch / t ≤ rangeOf l h :=
    Nat.div_le_of_le_mul (by rw [Nat.mul_comm t]; exact Nat.mul_le_mul_left _ hch)
  simp only [narrowEnd]; simp only [rangeOf] at *; omega

/-- A symbol of frequency at least 1 keeps a non-empty interval when the range is no smaller than the total. -/
theorem narrow_nonempty {l h t cl ch : Nat} (ht : 0 < t) (hc : cl < ch) (hr : t ≤ rangeOf l h) :
    narrowLow l h t cl < narrowEnd l h t ch := by
  have h1 : rangeOf l h * cl + t ≤ rangeOf l h * ch := by
    calc rangeOf l h * cl + t ≤ rangeOf l h * cl + rangeOf l h := Nat.add_le_add_left hr _
      _ = rangeOf l h * (cl + 1) := by ring
      _ ≤ rangeOf l h * ch := Nat.mul_le_mul_left _ hc
  have h2 : rangeOf l h * cl / t + 1 ≤ rangeOf l h * ch / t := by
    rw [Nat.le_div_iff_mul_le ht, Nat.add_mul, Nat.one_mul]
    have := Nat.div_mul_le_self (rangeOf l h * cl) t
    omega
  simp only [narrowLow, narrowEnd]; omega

/-- The end of one entry's interval is the start of the next one's: both are computed from the same count. -/
theorem narrowEnd_eq_narrowLow {l h t x : Nat} : narrowEnd l h t x = narrowLow l h t x := rfl

/-! ### The two targets (R151, R152) -/

/-- `EXACT` selects a range exactly when its narrowed interval holds `CODE` (R151). -/
theorem targetExact_le_iff {l h x t : Nat} {n : Nat} (hlh : l ≤ h) (hlx : l ≤ x) (ht : 0 < t) :
    (n : Int) ≤ targetExact l h x t ↔ narrowLow l h t n ≤ x := by
  have hr : 0 < rangeOf l h := by simp only [rangeOf]; omega
  obtain ⟨d, rfl⟩ := Nat.exists_eq_add_of_le hlx
  have e1 : ((((l + d : Nat) : Int) - l + 1) * t - 1) = (((d + 1) * t - 1 : Nat) : Int) := by
    have : 1 ≤ (d + 1) * t := Nat.one_le_iff_ne_zero.2 (by positivity)
    push_cast [Nat.cast_sub this]; ring
  simp only [targetExact]
  rw [e1, ← Int.natCast_ediv, Int.ofNat_le, Nat.le_div_iff_mul_le hr, narrowLow, Nat.add_le_add_iff_left,
    Nat.div_le_iff_le_mul_add_pred ht]
  have e2 : t * d + (t - 1) = (d + 1) * t - 1 := by
    have : (d + 1) * t = t * d + t := by ring
    omega
  rw [e2, Nat.mul_comm n]

theorem targetExact_lt_iff {l h x t : Nat} {n : Nat} (hlh : l ≤ h) (hlx : l ≤ x) (ht : 0 < t) :
    targetExact l h x t < (n : Int) ↔ x < narrowEnd l h t n := by
  have := targetExact_le_iff (n := n) hlh hlx ht
  rw [narrowEnd_eq_narrowLow]
  constructor
  · intro h1; by_contra h2; exact absurd (this.2 (by omega)) (by omega)
  · intro h1; by_contra h2; have := this.1 (by omega); omega

/-- `TRUNC` never selects a range whose narrowed interval starts above `CODE` (R152 (b)). -/
theorem targetTrunc_le {l h x t : Nat} {n : Nat} (hlh : l ≤ h) (hlx : l ≤ x) (ht : 0 < t)
    (hn : (n : Int) ≤ targetTrunc l h x t) : narrowLow l h t n ≤ x := by
  have hr : 0 < rangeOf l h := by simp only [rangeOf]; omega
  obtain ⟨d, rfl⟩ := Nat.exists_eq_add_of_le hlx
  have e1 : ((((l + d : Nat) : Int) - l) * t) = ((d * t : Nat) : Int) := by push_cast; ring
  simp only [targetTrunc] at hn
  rw [e1, ← Int.natCast_ediv, Int.ofNat_le, Nat.le_div_iff_mul_le hr] at hn
  rw [narrowLow, Nat.add_le_add_iff_left]
  calc rangeOf l h * n / t ≤ d * t / t := Nat.div_le_div_right (by rw [Nat.mul_comm]; exact hn)
    _ = d := Nat.mul_div_cancel _ ht

/-- ... and the narrowed interval it selects ends at most one below `CODE` (R152 (b)). -/
theorem targetTrunc_lt {l h x t : Nat} {n : Nat} (hlh : l ≤ h) (hlx : l ≤ x) (ht : 0 < t)
    (hn : targetTrunc l h x t < (n : Int)) : x ≤ narrowEnd l h t n := by
  have hr : 0 < rangeOf l h := by simp only [rangeOf]; omega
  obtain ⟨d, rfl⟩ := Nat.exists_eq_add_of_le hlx
  have e1 : ((((l + d : Nat) : Int) - l) * t) = ((d * t : Nat) : Int) := by push_cast; ring
  simp only [targetTrunc] at hn
  rw [e1, ← Int.natCast_ediv, Int.ofNat_lt, Nat.div_lt_iff_lt_mul hr] at hn
  rw [narrowEnd, Nat.add_le_add_iff_left, Nat.le_div_iff_mul_le ht, Nat.mul_comm (rangeOf l h)]
  omega

end Sys2Proof.Machine
end

