-- ==== Sys2Proof/Laws/State.lean ====
section
/-! SUPPORT. What each field of State is after each record-updating operation of Machine/Ops.lean, one lemma per field per
operation, so that no later proof unfolds an update. -/

namespace Sys2Proof.Machine

/-! ### raise -/

@[simp] theorem raise_cfg (e : EngineFault) (s : State) : (raise e s).cfg = s.cfg := rfl
@[simp] theorem raise_ph (e : EngineFault) (s : State) : (raise e s).ph = .fault := rfl
@[simp] theorem raise_err (e : EngineFault) (s : State) : (raise e s).err = some e := rfl
@[simp] theorem raise_held (e : EngineFault) (s : State) : (raise e s).held = s.held := rfl
@[simp] theorem raise_low (e : EngineFault) (s : State) : (raise e s).low = s.low := rfl
@[simp] theorem raise_high (e : EngineFault) (s : State) : (raise e s).high = s.high := rfl
@[simp] theorem raise_pend (e : EngineFault) (s : State) : (raise e s).pend = s.pend := rfl
@[simp] theorem raise_code (e : EngineFault) (s : State) : (raise e s).code = s.code := rfl
@[simp] theorem raise_total (e : EngineFault) (s : State) : (raise e s).total = s.total := rfl
@[simp] theorem raise_sent (e : EngineFault) (s : State) : (raise e s).sent = s.sent := rfl
@[simp] theorem raise_outlen (e : EngineFault) (s : State) : (raise e s).outlen = s.outlen := rfl
@[simp] theorem raise_cur (e : EngineFault) (s : State) : (raise e s).cur = s.cur := rfl
@[simp] theorem raise_symlen (e : EngineFault) (s : State) : (raise e s).symlen = s.symlen := rfl
@[simp] theorem raise_out (e : EngineFault) (s : State) : (raise e s).out = s.out := rfl
@[simp] theorem raise_symout (e : EngineFault) (s : State) : (raise e s).symout = s.symout := rfl
@[simp] theorem raise_model (e : EngineFault) (s : State) : (raise e s).model = s.model := rfl
@[simp] theorem raise_inp (e : EngineFault) (s : State) : (raise e s).inp = s.inp := rfl
@[simp] theorem raise_inbox (e : EngineFault) (s : State) : (raise e s).inbox = s.inbox := rfl
@[simp] theorem raise_draws (e : EngineFault) (s : State) : (raise e s).draws = s.draws := rfl
@[simp] theorem raise_renormCase (e : EngineFault) (s : State) : renormCase (raise e s) = renormCase s := rfl
@[simp] theorem raise_sourceBit (e : EngineFault) (s : State) : sourceBit (raise e s) = sourceBit s := rfl
@[simp] theorem raise_pendFull (e : EngineFault) (s : State) : pendFull (raise e s) = pendFull s := rfl

/-! ### sinkPut -/

@[simp] theorem sinkPut_cfg (b : Bool) (s : State) : (sinkPut b s).cfg = s.cfg := rfl
@[simp] theorem sinkPut_ph (b : Bool) (s : State) : (sinkPut b s).ph = s.ph := rfl
@[simp] theorem sinkPut_err (b : Bool) (s : State) : (sinkPut b s).err = s.err := rfl
@[simp] theorem sinkPut_held (b : Bool) (s : State) : (sinkPut b s).held = s.held := rfl
@[simp] theorem sinkPut_low (b : Bool) (s : State) : (sinkPut b s).low = s.low := rfl
@[simp] theorem sinkPut_high (b : Bool) (s : State) : (sinkPut b s).high = s.high := rfl
@[simp] theorem sinkPut_pend (b : Bool) (s : State) : (sinkPut b s).pend = s.pend := rfl
@[simp] theorem sinkPut_code (b : Bool) (s : State) : (sinkPut b s).code = s.code := rfl
@[simp] theorem sinkPut_total (b : Bool) (s : State) : (sinkPut b s).total = s.total := rfl
@[simp] theorem sinkPut_sent (b : Bool) (s : State) : (sinkPut b s).sent = s.sent := rfl
@[simp] theorem sinkPut_outlen (b : Bool) (s : State) : (sinkPut b s).outlen = s.outlen + 1 := rfl
@[simp] theorem sinkPut_cur (b : Bool) (s : State) : (sinkPut b s).cur = s.cur := rfl
@[simp] theorem sinkPut_symlen (b : Bool) (s : State) : (sinkPut b s).symlen = s.symlen := rfl
@[simp] theorem sinkPut_out (b : Bool) (s : State) : (sinkPut b s).out = s.out ++ [b] := rfl
@[simp] theorem sinkPut_symout (b : Bool) (s : State) : (sinkPut b s).symout = s.symout := rfl
@[simp] theorem sinkPut_model (b : Bool) (s : State) : (sinkPut b s).model = s.model := rfl
@[simp] theorem sinkPut_inp (b : Bool) (s : State) : (sinkPut b s).inp = s.inp := rfl
@[simp] theorem sinkPut_inbox (b : Bool) (s : State) : (sinkPut b s).inbox = s.inbox := rfl
@[simp] theorem sinkPut_draws (b : Bool) (s : State) : (sinkPut b s).draws = s.draws := rfl
@[simp] theorem sinkPut_renormCase (b : Bool) (s : State) : renormCase (sinkPut b s) = renormCase s := rfl
@[simp] theorem sinkPut_sourceBit (b : Bool) (s : State) : sourceBit (sinkPut b s) = sourceBit s := rfl
@[simp] theorem sinkPut_pendFull (b : Bool) (s : State) : pendFull (sinkPut b s) = pendFull s := rfl

/-! ### sourceAdvance -/

@[simp] theorem sourceAdvance_cfg (s : State) : (sourceAdvance s).cfg = s.cfg := rfl
@[simp] theorem sourceAdvance_ph (s : State) : (sourceAdvance s).ph = s.ph := rfl
@[simp] theorem sourceAdvance_err (s : State) : (sourceAdvance s).err = s.err := rfl
@[simp] theorem sourceAdvance_held (s : State) : (sourceAdvance s).held = s.held := rfl
@[simp] theorem sourceAdvance_low (s : State) : (sourceAdvance s).low = s.low := rfl
@[simp] theorem sourceAdvance_high (s : State) : (sourceAdvance s).high = s.high := rfl
@[simp] theorem sourceAdvance_pend (s : State) : (sourceAdvance s).pend = s.pend := rfl
@[simp] theorem sourceAdvance_code (s : State) : (sourceAdvance s).code = s.code := rfl
@[simp] theorem sourceAdvance_total (s : State) : (sourceAdvance s).total = s.total := rfl
@[simp] theorem sourceAdvance_sent (s : State) : (sourceAdvance s).sent = s.sent := rfl
@[simp] theorem sourceAdvance_outlen (s : State) : (sourceAdvance s).outlen = s.outlen := rfl
@[simp] theorem sourceAdvance_cur (s : State) : (sourceAdvance s).cur = s.cur + 1 := rfl
@[simp] theorem sourceAdvance_symlen (s : State) : (sourceAdvance s).symlen = s.symlen := rfl
@[simp] theorem sourceAdvance_out (s : State) : (sourceAdvance s).out = s.out := rfl
@[simp] theorem sourceAdvance_symout (s : State) : (sourceAdvance s).symout = s.symout := rfl
@[simp] theorem sourceAdvance_model (s : State) : (sourceAdvance s).model = s.model := rfl
@[simp] theorem sourceAdvance_inp (s : State) : (sourceAdvance s).inp = s.inp := rfl
@[simp] theorem sourceAdvance_inbox (s : State) : (sourceAdvance s).inbox = s.inbox := rfl
@[simp] theorem sourceAdvance_draws (s : State) : (sourceAdvance s).draws = s.draws := rfl
@[simp] theorem sourceAdvance_renormCase (s : State) : renormCase (sourceAdvance s) = renormCase s := rfl
@[simp] theorem sourceAdvance_pendFull (s : State) : pendFull (sourceAdvance s) = pendFull s := rfl

/-! ### symPut -/

@[simp] theorem symPut_cfg (x : Nat) (s : State) : (symPut x s).cfg = s.cfg := rfl
@[simp] theorem symPut_ph (x : Nat) (s : State) : (symPut x s).ph = s.ph := rfl
@[simp] theorem symPut_err (x : Nat) (s : State) : (symPut x s).err = s.err := rfl
@[simp] theorem symPut_held (x : Nat) (s : State) : (symPut x s).held = s.held := rfl
@[simp] theorem symPut_low (x : Nat) (s : State) : (symPut x s).low = s.low := rfl
@[simp] theorem symPut_high (x : Nat) (s : State) : (symPut x s).high = s.high := rfl
@[simp] theorem symPut_pend (x : Nat) (s : State) : (symPut x s).pend = s.pend := rfl
@[simp] theorem symPut_code (x : Nat) (s : State) : (symPut x s).code = s.code := rfl
@[simp] theorem symPut_total (x : Nat) (s : State) : (symPut x s).total = s.total := rfl
@[simp] theorem symPut_sent (x : Nat) (s : State) : (symPut x s).sent = s.sent := rfl
@[simp] theorem symPut_outlen (x : Nat) (s : State) : (symPut x s).outlen = s.outlen := rfl
@[simp] theorem symPut_cur (x : Nat) (s : State) : (symPut x s).cur = s.cur := rfl
@[simp] theorem symPut_symlen (x : Nat) (s : State) : (symPut x s).symlen = s.symlen + 1 := rfl
@[simp] theorem symPut_out (x : Nat) (s : State) : (symPut x s).out = s.out := rfl
@[simp] theorem symPut_symout (x : Nat) (s : State) : (symPut x s).symout = s.symout ++ [x] := rfl
@[simp] theorem symPut_model (x : Nat) (s : State) : (symPut x s).model = s.model := rfl
@[simp] theorem symPut_inp (x : Nat) (s : State) : (symPut x s).inp = s.inp := rfl
@[simp] theorem symPut_inbox (x : Nat) (s : State) : (symPut x s).inbox = s.inbox := rfl
@[simp] theorem symPut_draws (x : Nat) (s : State) : (symPut x s).draws = s.draws := rfl
@[simp] theorem symPut_renormCase (x : Nat) (s : State) : renormCase (symPut x s) = renormCase s := rfl
@[simp] theorem symPut_sourceBit (x : Nat) (s : State) : sourceBit (symPut x s) = sourceBit s := rfl
@[simp] theorem symPut_pendFull (x : Nat) (s : State) : pendFull (symPut x s) = pendFull s := rfl

/-! ### latchSession -/

@[simp] theorem latchSession_cfg (s : State) : (latchSession s).cfg = s.cfg := rfl
@[simp] theorem latchSession_ph (s : State) : (latchSession s).ph = s.ph := rfl
@[simp] theorem latchSession_err (s : State) : (latchSession s).err = s.err := rfl
@[simp] theorem latchSession_held (s : State) : (latchSession s).held = s.held := rfl
@[simp] theorem latchSession_low (s : State) : (latchSession s).low = 0 := rfl
@[simp] theorem latchSession_high (s : State) : (latchSession s).high = s.cfg.top := rfl
@[simp] theorem latchSession_pend (s : State) : (latchSession s).pend = s.pend := rfl
@[simp] theorem latchSession_code (s : State) : (latchSession s).code = s.code := rfl
@[simp] theorem latchSession_total (s : State) : (latchSession s).total = s.model.total := rfl
@[simp] theorem latchSession_sent (s : State) : (latchSession s).sent = s.model.sentinel := rfl
@[simp] theorem latchSession_outlen (s : State) : (latchSession s).outlen = s.outlen := rfl
@[simp] theorem latchSession_cur (s : State) : (latchSession s).cur = s.cur := rfl
@[simp] theorem latchSession_symlen (s : State) : (latchSession s).symlen = s.symlen := rfl
@[simp] theorem latchSession_out (s : State) : (latchSession s).out = s.out := rfl
@[simp] theorem latchSession_symout (s : State) : (latchSession s).symout = s.symout := rfl
@[simp] theorem latchSession_model (s : State) : (latchSession s).model = s.model := rfl
@[simp] theorem latchSession_inp (s : State) : (latchSession s).inp = s.inp := rfl
@[simp] theorem latchSession_inbox (s : State) : (latchSession s).inbox = s.inbox := rfl
@[simp] theorem latchSession_draws (s : State) : (latchSession s).draws = s.draws := rfl
@[simp] theorem latchSession_sourceBit (s : State) : sourceBit (latchSession s) = sourceBit s := rfl
@[simp] theorem latchSession_pendFull (s : State) : pendFull (latchSession s) = pendFull s := rfl

/-! ### forgetInterval -/

@[simp] theorem forgetInterval_cfg (s : State) : (forgetInterval s).cfg = s.cfg := rfl
@[simp] theorem forgetInterval_ph (s : State) : (forgetInterval s).ph = s.ph := rfl
@[simp] theorem forgetInterval_err (s : State) : (forgetInterval s).err = s.err := rfl
@[simp] theorem forgetInterval_held (s : State) : (forgetInterval s).held = s.held := rfl
@[simp] theorem forgetInterval_low (s : State) : (forgetInterval s).low = Config.freeReg s.draws 2 := rfl
@[simp] theorem forgetInterval_high (s : State) : (forgetInterval s).high = Config.freeReg s.draws 3 := rfl
@[simp] theorem forgetInterval_pend (s : State) : (forgetInterval s).pend = s.pend := rfl
@[simp] theorem forgetInterval_code (s : State) : (forgetInterval s).code = s.code := rfl
@[simp] theorem forgetInterval_total (s : State) : (forgetInterval s).total = Config.freeReg s.draws 6 := rfl
@[simp] theorem forgetInterval_sent (s : State) : (forgetInterval s).sent = Config.freeReg s.draws 7 := rfl
@[simp] theorem forgetInterval_outlen (s : State) : (forgetInterval s).outlen = s.outlen := rfl
@[simp] theorem forgetInterval_cur (s : State) : (forgetInterval s).cur = s.cur := rfl
@[simp] theorem forgetInterval_symlen (s : State) : (forgetInterval s).symlen = s.symlen := rfl
@[simp] theorem forgetInterval_out (s : State) : (forgetInterval s).out = s.out := rfl
@[simp] theorem forgetInterval_symout (s : State) : (forgetInterval s).symout = s.symout := rfl
@[simp] theorem forgetInterval_model (s : State) : (forgetInterval s).model = s.model := rfl
@[simp] theorem forgetInterval_inp (s : State) : (forgetInterval s).inp = s.inp := rfl
@[simp] theorem forgetInterval_inbox (s : State) : (forgetInterval s).inbox = s.inbox := rfl
@[simp] theorem forgetInterval_draws (s : State) : (forgetInterval s).draws = s.draws + 1 := rfl
@[simp] theorem forgetInterval_sourceBit (s : State) : sourceBit (forgetInterval s) = sourceBit s := rfl
@[simp] theorem forgetInterval_pendFull (s : State) : pendFull (forgetInterval s) = pendFull s := rfl

/-! ### forgetEncoder -/

@[simp] theorem forgetEncoder_cfg (s : State) : (forgetEncoder s).cfg = s.cfg := rfl
@[simp] theorem forgetEncoder_ph (s : State) : (forgetEncoder s).ph = s.ph := rfl
@[simp] theorem forgetEncoder_err (s : State) : (forgetEncoder s).err = s.err := rfl
@[simp] theorem forgetEncoder_held (s : State) : (forgetEncoder s).held = s.held := rfl
@[simp] theorem forgetEncoder_low (s : State) : (forgetEncoder s).low = s.low := rfl
@[simp] theorem forgetEncoder_high (s : State) : (forgetEncoder s).high = s.high := rfl
@[simp] theorem forgetEncoder_pend (s : State) : (forgetEncoder s).pend = Config.freeReg s.draws 4 := rfl
@[simp] theorem forgetEncoder_code (s : State) : (forgetEncoder s).code = s.code := rfl
@[simp] theorem forgetEncoder_total (s : State) : (forgetEncoder s).total = s.total := rfl
@[simp] theorem forgetEncoder_sent (s : State) : (forgetEncoder s).sent = s.sent := rfl
@[simp] theorem forgetEncoder_outlen (s : State) : (forgetEncoder s).outlen = Config.freeReg s.draws 8 := rfl
@[simp] theorem forgetEncoder_cur (s : State) : (forgetEncoder s).cur = s.cur := rfl
@[simp] theorem forgetEncoder_symlen (s : State) : (forgetEncoder s).symlen = s.symlen := rfl
@[simp] theorem forgetEncoder_out (s : State) : (forgetEncoder s).out = Config.freeBits s.draws := rfl
@[simp] theorem forgetEncoder_symout (s : State) : (forgetEncoder s).symout = s.symout := rfl
@[simp] theorem forgetEncoder_model (s : State) : (forgetEncoder s).model = s.model := rfl
@[simp] theorem forgetEncoder_inp (s : State) : (forgetEncoder s).inp = s.inp := rfl
@[simp] theorem forgetEncoder_inbox (s : State) : (forgetEncoder s).inbox = s.inbox := rfl
@[simp] theorem forgetEncoder_draws (s : State) : (forgetEncoder s).draws = s.draws + 1 := rfl
@[simp] theorem forgetEncoder_renormCase (s : State) : renormCase (forgetEncoder s) = renormCase s := rfl
@[simp] theorem forgetEncoder_sourceBit (s : State) : sourceBit (forgetEncoder s) = sourceBit s := rfl

/-! ### forgetDecoder -/

@[simp] theorem forgetDecoder_cfg (s : State) : (forgetDecoder s).cfg = s.cfg := rfl
@[simp] theorem forgetDecoder_ph (s : State) : (forgetDecoder s).ph = s.ph := rfl
@[simp] theorem forgetDecoder_err (s : State) : (forgetDecoder s).err = s.err := rfl
@[simp] theorem forgetDecoder_held (s : State) : (forgetDecoder s).held = s.held := rfl
@[simp] theorem forgetDecoder_low (s : State) : (forgetDecoder s).low = s.low := rfl
@[simp] theorem forgetDecoder_high (s : State) : (forgetDecoder s).high = s.high := rfl
@[simp] theorem forgetDecoder_pend (s : State) : (forgetDecoder s).pend = s.pend := rfl
@[simp] theorem forgetDecoder_code (s : State) : (forgetDecoder s).code = Config.freeReg s.draws 5 := rfl
@[simp] theorem forgetDecoder_total (s : State) : (forgetDecoder s).total = s.total := rfl
@[simp] theorem forgetDecoder_sent (s : State) : (forgetDecoder s).sent = s.sent := rfl
@[simp] theorem forgetDecoder_outlen (s : State) : (forgetDecoder s).outlen = s.outlen := rfl
@[simp] theorem forgetDecoder_cur (s : State) : (forgetDecoder s).cur = Config.freeReg s.draws 9 := rfl
@[simp] theorem forgetDecoder_symlen (s : State) : (forgetDecoder s).symlen = Config.freeReg s.draws 10 := rfl
@[simp] theorem forgetDecoder_out (s : State) : (forgetDecoder s).out = s.out := rfl
@[simp] theorem forgetDecoder_symout (s : State) : (forgetDecoder s).symout = Config.freeSyms s.draws := rfl
@[simp] theorem forgetDecoder_model (s : State) : (forgetDecoder s).model = s.model := rfl
@[simp] theorem forgetDecoder_inp (s : State) : (forgetDecoder s).inp = s.inp := rfl
@[simp] theorem forgetDecoder_inbox (s : State) : (forgetDecoder s).inbox = s.inbox := rfl
@[simp] theorem forgetDecoder_draws (s : State) : (forgetDecoder s).draws = s.draws + 1 := rfl
@[simp] theorem forgetDecoder_renormCase (s : State) : renormCase (forgetDecoder s) = renormCase s := rfl
@[simp] theorem forgetDecoder_pendFull (s : State) : pendFull (forgetDecoder s) = pendFull s := rfl

/-! ### scaleInterval -/

@[simp] theorem scaleInterval_cfg (k : RenormCase) (s : State) : (scaleInterval k s).cfg = s.cfg := rfl
@[simp] theorem scaleInterval_ph (k : RenormCase) (s : State) : (scaleInterval k s).ph = s.ph := rfl
@[simp] theorem scaleInterval_err (k : RenormCase) (s : State) : (scaleInterval k s).err = s.err := rfl
@[simp] theorem scaleInterval_held (k : RenormCase) (s : State) : (scaleInterval k s).held = s.held := rfl
@[simp] theorem scaleInterval_low (k : RenormCase) (s : State) : (scaleInterval k s).low = scale s.cfg k s.low false := rfl
@[simp] theorem scaleInterval_high (k : RenormCase) (s : State) : (scaleInterval k s).high = scale s.cfg k s.high true := rfl
@[simp] theorem scaleInterval_pend (k : RenormCase) (s : State) : (scaleInterval k s).pend = s.pend := rfl
@[simp] theorem scaleInterval_code (k : RenormCase) (s : State) : (scaleInterval k s).code = s.code := rfl
@[simp] theorem scaleInterval_total (k : RenormCase) (s : State) : (scaleInterval k s).total = s.total := rfl
@[simp] theorem scaleInterval_sent (k : RenormCase) (s : State) : (scaleInterval k s).sent = s.sent := rfl
@[simp] theorem scaleInterval_outlen (k : RenormCase) (s : State) : (scaleInterval k s).outlen = s.outlen := rfl
@[simp] theorem scaleInterval_cur (k : RenormCase) (s : State) : (scaleInterval k s).cur = s.cur := rfl
@[simp] theorem scaleInterval_symlen (k : RenormCase) (s : State) : (scaleInterval k s).symlen = s.symlen := rfl
@[simp] theorem scaleInterval_out (k : RenormCase) (s : State) : (scaleInterval k s).out = s.out := rfl
@[simp] theorem scaleInterval_symout (k : RenormCase) (s : State) : (scaleInterval k s).symout = s.symout := rfl
@[simp] theorem scaleInterval_model (k : RenormCase) (s : State) : (scaleInterval k s).model = s.model := rfl
@[simp] theorem scaleInterval_inp (k : RenormCase) (s : State) : (scaleInterval k s).inp = s.inp := rfl
@[simp] theorem scaleInterval_inbox (k : RenormCase) (s : State) : (scaleInterval k s).inbox = s.inbox := rfl
@[simp] theorem scaleInterval_draws (k : RenormCase) (s : State) : (scaleInterval k s).draws = s.draws := rfl
@[simp] theorem scaleInterval_sourceBit (k : RenormCase) (s : State) : sourceBit (scaleInterval k s) = sourceBit s := rfl
@[simp] theorem scaleInterval_pendFull (k : RenormCase) (s : State) : pendFull (scaleInterval k s) = pendFull s := rfl

/-! ### shiftCode -/

@[simp] theorem shiftCode_cfg (k : RenormCase) (s : State) : (shiftCode k s).cfg = s.cfg := rfl
@[simp] theorem shiftCode_ph (k : RenormCase) (s : State) : (shiftCode k s).ph = s.ph := rfl
@[simp] theorem shiftCode_err (k : RenormCase) (s : State) : (shiftCode k s).err = s.err := rfl
@[simp] theorem shiftCode_held (k : RenormCase) (s : State) : (shiftCode k s).held = s.held := rfl
@[simp] theorem shiftCode_low (k : RenormCase) (s : State) : (shiftCode k s).low = s.low := rfl
@[simp] theorem shiftCode_high (k : RenormCase) (s : State) : (shiftCode k s).high = s.high := rfl
@[simp] theorem shiftCode_pend (k : RenormCase) (s : State) : (shiftCode k s).pend = s.pend := rfl
@[simp] theorem shiftCode_code (k : RenormCase) (s : State) : (shiftCode k s).code = scale s.cfg k s.code (sourceBit s) := rfl
@[simp] theorem shiftCode_total (k : RenormCase) (s : State) : (shiftCode k s).total = s.total := rfl
@[simp] theorem shiftCode_sent (k : RenormCase) (s : State) : (shiftCode k s).sent = s.sent := rfl
@[simp] theorem shiftCode_outlen (k : RenormCase) (s : State) : (shiftCode k s).outlen = s.outlen := rfl
@[simp] theorem shiftCode_cur (k : RenormCase) (s : State) : (shiftCode k s).cur = s.cur + 1 := rfl
@[simp] theorem shiftCode_symlen (k : RenormCase) (s : State) : (shiftCode k s).symlen = s.symlen := rfl
@[simp] theorem shiftCode_out (k : RenormCase) (s : State) : (shiftCode k s).out = s.out := rfl
@[simp] theorem shiftCode_symout (k : RenormCase) (s : State) : (shiftCode k s).symout = s.symout := rfl
@[simp] theorem shiftCode_model (k : RenormCase) (s : State) : (shiftCode k s).model = s.model := rfl
@[simp] theorem shiftCode_inp (k : RenormCase) (s : State) : (shiftCode k s).inp = s.inp := rfl
@[simp] theorem shiftCode_inbox (k : RenormCase) (s : State) : (shiftCode k s).inbox = s.inbox := rfl
@[simp] theorem shiftCode_draws (k : RenormCase) (s : State) : (shiftCode k s).draws = s.draws := rfl
@[simp] theorem shiftCode_renormCase (k : RenormCase) (s : State) : renormCase (shiftCode k s) = renormCase s := rfl
@[simp] theorem shiftCode_pendFull (k : RenormCase) (s : State) : pendFull (shiftCode k s) = pendFull s := rfl

/-! ### resetEngine: what the reset gives and what it leaves; the forgotten registers hold free values -/

@[simp] theorem resetEngine_cfg (s : State) : (resetEngine s).cfg = s.cfg := rfl
@[simp] theorem resetEngine_ph (s : State) : (resetEngine s).ph = .idle := rfl
@[simp] theorem resetEngine_err (s : State) : (resetEngine s).err = none := rfl
@[simp] theorem resetEngine_held (s : State) : (resetEngine s).held = none := rfl
@[simp] theorem resetEngine_model (s : State) : (resetEngine s).model = s.model := rfl
@[simp] theorem resetEngine_inp (s : State) : (resetEngine s).inp = s.inp := rfl
@[simp] theorem resetEngine_inbox (s : State) : (resetEngine s).inbox = s.inbox := rfl

/-! ### The layout of the status word -/

theorem packStatus_ph : ∀ (ph : BitVec 3) (err : BitVec 4) (cv : Bool), (packStatus ph err cv).extractLsb' 0 3 = ph := by
  decide

theorem packStatus_err : ∀ (ph : BitVec 3) (err : BitVec 4) (cv : Bool), (packStatus ph err cv).extractLsb' 3 4 = err := by
  decide

theorem packStatus_conv : ∀ (ph : BitVec 3) (err : BitVec 4) (cv : Bool), (packStatus ph err cv).getLsbD 7 = cv := by
  decide

theorem packStatus_toNat : ∀ (ph : BitVec 3) (err : BitVec 4) (cv : Bool),
    (packStatus ph err cv).toNat = ph.toNat + 8 * err.toNat + 128 * cv.toNat := by
  decide

end Sys2Proof.Machine
end

