-- ==== Sys2Proof/Laws/Renorm.lean ====
section
/-! SUPPORT. What EMIT and one micro-step of each loop change (R121 to R124, R153 to R155), and what the two loops of
Machine/Ops.lean answer: they follow the micro-steps until no case holds, in at most `P` steps (R106, R107). -/

namespace Sys2Proof.Machine

open Sys2Proof

/-! ### EMIT (R121) -/

theorem sinkPutMany_eq (n : Nat) (b : Bool) (s : State) :
    sinkPutMany n b s = { s with out := s.out ++ List.replicate n b, outlen := s.outlen + n } := by
  induction n generalizing s with
  | zero => simp [sinkPutMany]
  | succ n ih => simp [sinkPutMany, ih, List.replicate_succ, Nat.add_assoc, Nat.add_comm 1 n]

/-- The whole effect of EMIT. -/
theorem emit_eq (b : Bool) (s : State) :
    emit b s = { s with
      out := s.out ++ b :: List.replicate s.pend (!b)
      outlen := s.outlen + (s.pend + 1)
      pend := 0 } := by
  simp [emit, sinkPutMany_eq, Nat.add_comm, Nat.add_left_comm]

/-! ### One step -/

/-- Everything an encoder step can do. -/
theorem EncStep.effect {s t : State} (h : EncStep s t) :
    ∃ k, renormCase s = k ∧ k ≠ .stop ∧
      t.low = scale s.cfg k s.low false ∧ t.high = scale s.cfg k s.high true ∧
      ((k = .e3 ∧ pendFull s = false ∧ t.pend = s.pend + 1 ∧ t.out = s.out ∧ t.outlen = s.outlen) ∨
       (∃ b, (b = false ∧ k = .e1 ∨ b = true ∧ k = .e2) ∧ t.pend = 0 ∧
        t.out = s.out ++ b :: List.replicate s.pend (!b) ∧ t.outlen = s.outlen + (s.pend + 1))) ∧
      t = { s with low := t.low, high := t.high, pend := t.pend, out := t.out, outlen := t.outlen } := by
  cases h with
  | e1 hk =>
    refine ⟨.e1, hk, by decide, ?_⟩
    simp [encE1, emit_eq, scaleInterval]
  | e2 hk =>
    refine ⟨.e2, hk, by decide, ?_⟩
    simp [encE2, emit_eq, scaleInterval]
  | e3 hk room =>
    refine ⟨.e3, hk, by decide, ?_⟩
    simp [encE3, scaleInterval, room]

/-- Everything a decoder step can do. -/
theorem DecStep.effect {s t : State} (h : DecStep s t) :
    ∃ k, renormCase s = k ∧ k ≠ .stop ∧
      t.low = scale s.cfg k s.low false ∧ t.high = scale s.cfg k s.high true ∧
      t.code = scale s.cfg k s.code (sourceBit s) ∧ t.cur = s.cur + 1 ∧
      t = { s with low := t.low, high := t.high, code := t.code, cur := t.cur } := by
  cases h with
  | d1 hk => exact ⟨.e1, hk, by decide, rfl, rfl, rfl, rfl, rfl⟩
  | d2 hk => exact ⟨.e2, hk, by decide, rfl, rfl, rfl, rfl, rfl⟩
  | d3 hk => exact ⟨.e3, hk, by decide, rfl, rfl, rfl, rfl, rfl⟩

/-- Encoder and decoder steps treat the interval alike (R106). -/
structure IntervalStep (s t : State) : Prop where
  cfg : t.cfg = s.cfg
  moves : renormCase s ≠ .stop
  low : t.low = scale s.cfg (renormCase s) s.low false
  high : t.high = scale s.cfg (renormCase s) s.high true

theorem EncStep.interval {s t : State} (h : EncStep s t) : IntervalStep s t := by
  obtain ⟨k, rfl, hk, hl, hh, -, hf⟩ := h.effect
  exact ⟨by rw [hf], hk, hl, hh⟩

theorem DecStep.interval {s t : State} (h : DecStep s t) : IntervalStep s t := by
  obtain ⟨k, rfl, hk, hl, hh, -, -, hf⟩ := h.effect
  exact ⟨by rw [hf], hk, hl, hh⟩

/-- The steps of a relation that moves the interval as R104 says: the ends stay ordered and in the code space, the range
doubles (R107, R109). -/
theorem IntervalStep.keeps {s t : State} (h : IntervalStep s t) (hlh : s.low ≤ s.high) :
    t.low ≤ t.high ∧ rangeOf t.low t.high = 2 * rangeOf s.low s.high ∧
      (2 ≤ s.cfg.prec → s.high ≤ s.cfg.top → t.high ≤ t.cfg.top) := by
  rw [h.low, h.high, h.cfg]
  exact ⟨scale_mono hlh (by simp), scale_range offset_le_low hlh, fun hP hh => scale_high_le hP hh h.moves⟩

theorem Steps.interval {r : State → State → Prop} (hr : ∀ a b, r a b → IntervalStep a b) {n : Nat} {s t : State}
    (h : Steps r n s t) (hlh : s.low ≤ s.high) :
    t.cfg = s.cfg ∧ t.low ≤ t.high ∧ rangeOf t.low t.high = 2 ^ n * rangeOf s.low s.high ∧
      (2 ≤ s.cfg.prec → s.high ≤ s.cfg.top → t.high ≤ t.cfg.top) := by
  induction h with
  | refl s => simp [hlh]
  | cons hst _ ih =>
    have hi := hr _ _ hst
    obtain ⟨h1, h2, h3⟩ := hi.keeps hlh
    obtain ⟨i0, i1, i2, i3⟩ := ih h1
    refine ⟨i0.trans hi.cfg, i1, ?_, fun hP hh => i3 (by rw [hi.cfg]; exact hP) (h3 hP hh)⟩
    rw [i2, h2, Nat.pow_succ]; ring

/-- After `n` steps that are not the last the interval covers `2^n` times as much, so `n < P` (R107). -/
theorem Steps.lt_prec {r : State → State → Prop} (hr : ∀ a b, r a b → IntervalStep a b) {n : Nat} {s t : State}
    (h : Steps r n s t) (hP : 2 ≤ s.cfg.prec) (hlh : s.low ≤ s.high) (hl : s.low ≤ s.cfg.top)
    (ht : renormCase t ≠ .stop) : n < s.cfg.prec := by
  have key : t.cfg = s.cfg ∧ span t.cfg t.low t.high = 2 ^ n * span s.cfg s.low s.high := by
    clear ht
    induction h with
    | refl s => simp
    | cons hst _ ih =>
      have hi := hr _ _ hst
      obtain ⟨h1, h2, h3⟩ := span_scale hP hlh hl hi.moves
      have := ih (by rw [hi.cfg]; exact hP) (by rw [hi.low, hi.high]; exact h2)
        (by rw [hi.low, hi.cfg]; exact h3)
      refine ⟨this.1.trans hi.cfg, ?_⟩
      rw [this.2, hi.cfg, hi.low, hi.high]
      simp only [renormCase]
      rw [h1, Nat.pow_succ]; ring
  have hhalf := span_le_half (c := t.cfg) (l := t.low) (h := t.high) (by rw [key.1]; exact hP) ht
  rw [key.2, key.1, Config.half] at hhalf
  have hpos : 1 ≤ span s.cfg s.low s.high := by
    have h4 := pow_prec_eq hP
    have ht4 := top_eq hP
    have := firstQuarter_pos s.cfg
    simp only [span, h4]; omega
  have : 2 ^ n ≤ 2 ^ (s.cfg.prec - 1) :=
    (Nat.le_mul_of_pos_right _ hpos).trans hhalf
  have := (Nat.pow_le_pow_iff_right (by decide : 1 < 2)).1 this
  omega

/-- The last of some steps. -/
theorem Steps.last {r : State → State → Prop} {n : Nat} {s u : State} (h : Steps r (n + 1) s u) :
    ∃ t, Steps r n s t ∧ r t u := by
  induction n generalizing s with
  | zero => cases h with | cons h hs => cases hs with | refl => exact ⟨s, .refl s, h⟩
  | succ n ih =>
    cases h with
    | cons h hs =>
      obtain ⟨t, h1, h2⟩ := ih hs
      exact ⟨t, .cons h h1, h2⟩

/-- No run of steps from a non-empty interval in the code space is longer than `P` (R107). -/
theorem Steps.le_prec {r : State → State → Prop} (hr : ∀ a b, r a b → IntervalStep a b) {n : Nat} {s t : State}
    (h : Steps r n s t) (hP : 2 ≤ s.cfg.prec) (hlh : s.low ≤ s.high) (hl : s.low ≤ s.cfg.top) : n ≤ s.cfg.prec := by
  cases n with
  | zero => exact Nat.zero_le _
  | succ n =>
    obtain ⟨u, h1, h2⟩ := h.last
    exact h1.lt_prec hr hP hlh hl (hr _ _ h2).moves

/-- Steps are determined, so a run that has reached the end of the loop cannot go on. -/
theorem Steps.stop_unique {r : State → State → Prop} (hr : ∀ a b, r a b → IntervalStep a b)
    (hu : ∀ a b c, r a b → r a c → b = c) {n m : Nat} {s t u : State}
    (h : Steps r n s t) (h' : Steps r m s u) (ht : renormCase t = .stop) : m ≤ n ∧ Steps r (n - m) u t := by
  induction h generalizing m with
  | refl s =>
    cases h' with
    | refl => exact ⟨Nat.le_refl _, .refl _⟩
    | cons hst _ => exact absurd ht (hr _ _ hst).moves
  | @cons n s v t hst hs ih =>
    cases h' with
    | refl => exact ⟨Nat.zero_le _, .cons hst hs⟩
    | @cons m _ w _ hst' hs' =>
      have : v = w := hu _ _ _ hst hst'
      subst this
      obtain ⟨h1, h2⟩ := ih hs' ht
      exact ⟨by omega, by rwa [Nat.add_sub_add_right]⟩

/-! ### The encoder's loop -/

theorem EncStep.unique {s t u : State} (h : EncStep s t) (h' : EncStep s u) : t = u := by
  cases h <;> cases h' <;> first | rfl | simp_all

theorem DecStep.unique {s t u : State} (h : DecStep s t) (h' : DecStep s u) : t = u := by
  cases h <;> cases h' <;> first | rfl | simp_all

/-- What the encoder's loop answers: it follows the steps of R122 to R124 until no case holds, until an E3 step finds the
counter full, or until its fuel is spent. -/
theorem renormEnc_cases (fuel : Nat) (s : State) :
    match renormEnc fuel s with
    | .done t => ∃ n, n ≤ fuel ∧ Steps EncStep n s t ∧ renormCase t = .stop
    | .overflow => ∃ n t, n < fuel ∧ Steps EncStep n s t ∧ renormCase t = .e3 ∧ pendFull t = true
    | .endless => ∃ t, Steps EncStep fuel s t ∧ renormCase t ≠ .stop := by
  induction fuel generalizing s with
  | zero =>
    simp only [renormEnc]
    by_cases hk : renormCase s = .stop
    · rw [if_pos hk]; exact ⟨0, Nat.le_refl _, .refl s, hk⟩
    · rw [if_neg hk]; exact ⟨s, .refl s, hk⟩
  | succ fuel ih =>
    have lift : ∀ t, EncStep s t →
        match renormEnc fuel t with
        | .done u => ∃ n, n ≤ fuel + 1 ∧ Steps EncStep n s u ∧ renormCase u = .stop
        | .overflow => ∃ n u, n < fuel + 1 ∧ Steps EncStep n s u ∧ renormCase u = .e3 ∧ pendFull u = true
        | .endless => ∃ u, Steps EncStep (fuel + 1) s u ∧ renormCase u ≠ .stop := by
      intro t hst
      have := ih t
      split <;> rename_i heq <;> rw [heq] at this
      · obtain ⟨n, hn, hs, hk⟩ := this; exact ⟨n + 1, by omega, .cons hst hs, hk⟩
      · obtain ⟨n, u, hn, hs, hk⟩ := this; exact ⟨n + 1, u, by omega, .cons hst hs, hk⟩
      · obtain ⟨u, hs, hk⟩ := this; exact ⟨u, .cons hst hs, hk⟩
    cases hk : renormCase s with
    | stop => simp only [renormEnc, hk]; exact ⟨0, by omega, .refl s, trivial⟩
    | e1 => simp only [renormEnc, hk]; exact lift _ (.e1 hk)
    | e2 => simp only [renormEnc, hk]; exact lift _ (.e2 hk)
    | e3 =>
      simp only [renormEnc, hk]
      cases hp : pendFull s with
      | true => exact ⟨0, s, by omega, .refl s, hk, hp⟩
      | false => exact lift _ (.e3 hk hp)

/-- With `P` steps of fuel the loop of a non-empty interval in the code space is never cut short (R107). -/
theorem renormEnc_not_endless {s : State} (hP : 2 ≤ s.cfg.prec) (hlh : s.low ≤ s.high) (hl : s.low ≤ s.cfg.top) :
    renormEnc s.cfg.prec s ≠ .endless := by
  intro h
  have := renormEnc_cases s.cfg.prec s
  rw [h] at this
  obtain ⟨t, hs, hk⟩ := this
  exact absurd (hs.lt_prec (fun _ _ => EncStep.interval) hP hlh hl hk) (Nat.lt_irrefl _)

/-- The loop's answer is the only end the steps can reach. -/
theorem renormEnc_of_steps {n fuel : Nat} {s t : State} (h : Steps EncStep n s t) (hn : n ≤ fuel)
    (ht : renormCase t = .stop) : renormEnc fuel s = .done t := by
  induction h generalizing fuel with
  | refl s => cases fuel <;> simp [renormEnc, ht]
  | cons hst _ ih =>
    obtain ⟨fuel, rfl⟩ : ∃ f, fuel = f + 1 := ⟨fuel - 1, by omega⟩
    have := ih (fuel := fuel) (by omega) ht
    cases hst with
    | e1 hk => simpa [renormEnc, hk] using this
    | e2 hk => simpa [renormEnc, hk] using this
    | e3 hk room => simpa [renormEnc, hk, room] using this

/-! ### The decoder's loop -/

/-- What the decoder's loop answers. -/
theorem renormDec_cases (fuel : Nat) (s : State) :
    match renormDec fuel s with
    | some t => ∃ n, n ≤ fuel ∧ Steps DecStep n s t ∧ renormCase t = .stop
    | none => ∃ t, Steps DecStep fuel s t ∧ renormCase t ≠ .stop := by
  induction fuel generalizing s with
  | zero =>
    simp only [renormDec]
    by_cases hk : renormCase s = .stop
    · rw [if_pos hk]; exact ⟨0, Nat.le_refl _, .refl s, hk⟩
    · rw [if_neg hk]; exact ⟨s, .refl s, hk⟩
  | succ fuel ih =>
    have lift : ∀ t, DecStep s t →
        match renormDec fuel t with
        | some u => ∃ n, n ≤ fuel + 1 ∧ Steps DecStep n s u ∧ renormCase u = .stop
        | none => ∃ u, Steps DecStep (fuel + 1) s u ∧ renormCase u ≠ .stop := by
      intro t hst
      have := ih t
      split <;> rename_i heq <;> rw [heq] at this
      · obtain ⟨n, hn, hs, hk⟩ := this; exact ⟨n + 1, by omega, .cons hst hs, hk⟩
      · obtain ⟨u, hs, hk⟩ := this; exact ⟨u, .cons hst hs, hk⟩
    cases hk : renormCase s with
    | stop => simp only [renormDec, hk]; exact ⟨0, by omega, .refl s, trivial⟩
    | e1 => simp only [renormDec, hk]; exact lift _ (.d1 hk)
    | e2 => simp only [renormDec, hk]; exact lift _ (.d2 hk)
    | e3 => simp only [renormDec, hk]; exact lift _ (.d3 hk)

theorem renormDec_ne_none {s : State} (hP : 2 ≤ s.cfg.prec) (hlh : s.low ≤ s.high) (hl : s.low ≤ s.cfg.top) :
    renormDec s.cfg.prec s ≠ none := by
  intro h
  have := renormDec_cases s.cfg.prec s
  rw [h] at this
  obtain ⟨t, hs, hk⟩ := this
  exact absurd (hs.lt_prec (fun _ _ => DecStep.interval) hP hlh hl hk) (Nat.lt_irrefl _)

theorem renormDec_of_steps {n fuel : Nat} {s t : State} (h : Steps DecStep n s t) (hn : n ≤ fuel)
    (ht : renormCase t = .stop) : renormDec fuel s = some t := by
  induction h generalizing fuel with
  | refl s => cases fuel <;> simp [renormDec, ht]
  | cons hst _ ih =>
    obtain ⟨fuel, rfl⟩ : ∃ f, fuel = f + 1 := ⟨fuel - 1, by omega⟩
    have := ih (fuel := fuel) (by omega) ht
    cases hst with
    | d1 hk => simpa [renormDec, hk] using this
    | d2 hk => simpa [renormDec, hk] using this
    | d3 hk => simpa [renormDec, hk] using this

/-! ### What the steps leave alone -/

/-- The frame of the encoder's steps. -/
theorem Steps.encFrame {n : Nat} {s t : State} (h : Steps EncStep n s t) :
    t = { s with low := t.low, high := t.high, pend := t.pend, out := t.out, outlen := t.outlen } := by
  induction h with
  | refl s => rfl
  | cons hst _ ih =>
    obtain ⟨-, -, -, -, -, -, hf⟩ := hst.effect
    rw [hf] at ih; exact ih

/-- The frame of the decoder's steps. -/
theorem Steps.decFrame {n : Nat} {s t : State} (h : Steps DecStep n s t) :
    t = { s with low := t.low, high := t.high, code := t.code, cur := t.cur } := by
  induction h with
  | refl s => rfl
  | cons hst _ ih =>
    obtain ⟨-, -, -, -, -, -, -, hf⟩ := hst.effect
    rw [hf] at ih; exact ih

/-- The sink only grows, its length register with it, and every step accounts for one bit, written or pending (R129). -/
theorem Steps.encCounts {n : Nat} {s t : State} (h : Steps EncStep n s t) :
    (∃ w, t.out = s.out ++ w ∧ t.outlen = s.outlen + w.length ∧ w.length + t.pend = s.pend + n) ∧
      (∀ m, s.cfg.pendMax = some m → s.pend ≤ m → t.pend ≤ m) := by
  induction h with
  | refl s => exact ⟨⟨[], by simp⟩, fun _ _ h => h⟩
  | @cons n s u t hst _ ih =>
    obtain ⟨k, -, -, -, -, hcase, hf⟩ := hst.effect
    have hcfg : u.cfg = s.cfg := by rw [hf]
    obtain ⟨⟨w, h1, h2, h3⟩, h4⟩ := ih
    rw [hcfg] at h4
    rcases hcase with ⟨-, room, hp, ho, hl⟩ | ⟨b, -, hp, ho, hl⟩
    · refine ⟨⟨w, by rw [h1, ho], by rw [h2, hl], by omega⟩, fun m hm hle => h4 m hm ?_⟩
      rw [hp]
      simp only [pendFull, hm, decide_eq_false_iff_not, Option.some.injEq] at room
      omega
    · refine ⟨⟨b :: List.replicate s.pend (!b) ++ w, by rw [h1, ho, List.append_assoc],
        by rw [h2, hl]; simp; omega, by simp; omega⟩, fun m hm hle => h4 m hm (by omega)⟩

/-- One source read per step (R156). -/
theorem Steps.decCur {n : Nat} {s t : State} (h : Steps DecStep n s t) : t.cur = s.cur + n := by
  induction h with
  | refl s => rfl
  | cons hst _ ih =>
    obtain ⟨-, -, -, -, -, -, hc, -⟩ := hst.effect
    omega

/-- `CODE` keeps its side of each end of the interval (R159, R152 (c), (e)). -/
theorem Steps.decWindow {n : Nat} {s t : State} (h : Steps DecStep n s t) (hP : 2 ≤ s.cfg.prec)
    (hl : s.low ≤ s.code) :
    t.low ≤ t.code ∧ (s.code ≤ s.high → t.code ≤ t.high) ∧
      (s.high < s.code → t.high < t.code ∧ t.code ≤ t.high + 2 ^ n * (s.code - s.high)) := by
  induction h with
  | refl s => refine ⟨hl, id, fun h => ⟨h, by omega⟩⟩
  | @cons n s u t hst _ ih =>
    obtain ⟨k, hk, hk', h1, h2, h3, -, hf⟩ := hst.effect
    have hcfg : u.cfg = s.cfg := by rw [hf]
    have hol : offsetOf s.cfg k ≤ s.low := by rw [← hk]; exact offset_le_low
    have hoh : offsetOf s.cfg k ≤ s.high := by rw [← hk]; exact offset_le_high hP
    have hb : (sourceBit s).toNat ≤ 1 := Bool.toNat_le _
    have hul : u.low ≤ u.code := by rw [h1, h3]; exact scale_mono hl (by simp)
    obtain ⟨i1, i2, i3⟩ := ih (by rw [hcfg]; exact hP) hul
    refine ⟨i1, fun hch => i2 (by rw [h2, h3]; exact scale_mono hch (by simpa using hb)), fun hch => ?_⟩
    have huc : u.high < u.code ∧ u.code - u.high ≤ 2 * (s.code - s.high) := by
      rw [h2, h3]; simp only [scale, Bool.toNat_true]; omega
    obtain ⟨j1, j2⟩ := i3 huc.1
    refine ⟨j1, j2.trans ?_⟩
    have : 2 ^ n * (u.code - u.high) ≤ 2 ^ n * (2 * (s.code - s.high)) := Nat.mul_le_mul_left _ huc.2
    rw [Nat.pow_succ, Nat.mul_assoc]; omega

/-! ### Loops that never end -/

/-- From an empty interval, and from one above the code space, the encoder's loop takes a step for ever; so the fault
`endlessRenormalization` stands for a command that has no end. -/
theorem endless_forever {s : State} (hP : 2 ≤ s.cfg.prec)
    (h : s.high < s.low ∨ (s.low ≤ s.high ∧ s.cfg.top < s.low)) {r : State → State → Prop}
    (hr : ∀ a b, r a b → IntervalStep a b) {n : Nat} {t : State} (hs : Steps r n s t) : renormCase t ≠ .stop := by
  induction hs with
  | refl s =>
    rcases h with h | h
    · exact (empty_never_stops h).1
    · exact (above_never_stops hP h.1 h.2).1
  | cons hst _ ih =>
    have hi := hr _ _ hst
    refine ih (by rw [hi.cfg]; exact hP) ?_
    rw [hi.low, hi.high, hi.cfg]
    rcases h with h | h
    · exact .inl (empty_never_stops h).2
    · exact .inr ⟨(above_never_stops hP h.1 h.2).2.2, (above_never_stops hP h.1 h.2).2.1⟩

end Sys2Proof.Machine
end

