-- ==== Sys2Proof/Laws/Commands.lean ====
section
/-! SUPPORT. What each command's rule answers, once: the phase check, the two session starts, ENC_SYM, ENC_FLUSH, DEC_SYM, the
window DEC_INIT fills, and what the host's port does. -/

namespace Sys2Proof.Machine

open Sys2Proof

/-! ### The phase check (R207, R209, R90) -/

theorem guarded_fault {i : Instr} {body : State → Result} {s : State} (h : s.ph = .fault) :
    guarded i body s = .next s := by simp [guarded, h]

theorem guarded_illegal {i : Instr} {body : State → Result} {s : State} (h : s.ph ≠ .fault) (ha : accepts i s.ph = false) :
    guarded i body s = .next (raise .illegalCommand s) := by simp [guarded, h, ha]

theorem guarded_accepted {i : Instr} {body : State → Result} {s : State} (h : s.ph ≠ .fault) (ha : accepts i s.ph = true) :
    guarded i body s = body s := by simp [guarded, h, ha]

/-- Everything the phase check can lead to. -/
theorem guarded_cases (i : Instr) (body : State → Result) (s : State) :
    (s.ph = .fault ∧ guarded i body s = .next s) ∨
    (s.ph ≠ .fault ∧ accepts i s.ph = false ∧ guarded i body s = .next (raise .illegalCommand s)) ∨
    (s.ph ≠ .fault ∧ accepts i s.ph = true ∧ guarded i body s = body s) := by
  by_cases h : s.ph = .fault
  · exact .inl ⟨h, guarded_fault h⟩
  · cases ha : accepts i s.ph with
    | false => exact .inr (.inl ⟨h, rfl, guarded_illegal h ha⟩)
    | true => exact .inr (.inr ⟨h, rfl, guarded_accepted h ha⟩)

/-! ### Session start (R120, R150, R201, R202) -/

theorem openSession_cases (start : State → State) (s : State) :
    (s.model.total = 0 ∧ openSession start s = .next (raise .emptyModelError s)) ∨
    (0 < s.model.total ∧ s.cfg.firstQuarter ≤ s.model.total ∧
      openSession start s = .next (raise .precisionOverflowError s)) ∨
    (0 < s.model.total ∧ s.model.total < s.cfg.firstQuarter ∧ openSession start s = .next (start s)) := by
  unfold openSession
  split_ifs with h1 h2
  · exact .inl ⟨h1, rfl⟩
  · exact .inr (.inl ⟨by omega, h2, rfl⟩)
  · exact .inr (.inr ⟨by omega, by omega, rfl⟩)

/-- The whole effect of `ENC_INIT` (R120). -/
theorem startEncoder_eq (s : State) :
    startEncoder s = { s with
      total := s.model.total, sent := s.model.sentinel, low := 0, high := s.cfg.top, pend := 0, out := [], outlen := 0,
      ph := .enc, held := some .encoder
      code := Config.freeReg s.draws 5, cur := Config.freeReg s.draws 9, symlen := Config.freeReg s.draws 10,
      symout := Config.freeSyms s.draws, draws := s.draws + 1 } := rfl

/-- What filling the window changes (R150). -/
theorem fillWindow_frame (n : Nat) (s : State) :
    fillWindow n s = { s with code := (fillWindow n s).code, cur := s.cur + n } := by
  induction n generalizing s with
  | zero => rfl
  | succ n ih =>
    rw [fillWindow, ih]
    simp [sourceAdvance, Nat.add_assoc, Nat.add_comm 1 n]

/-- The bits read stand below what `CODE` held. -/
theorem fillWindow_div (n : Nat) (s : State) : (fillWindow n s).code / 2 ^ n = s.code := by
  induction n generalizing s with
  | zero => simp [fillWindow]
  | succ n ih =>
    rw [fillWindow, Nat.pow_succ, ← Nat.div_div_eq_div_mul, ih]
    have : (sourceBit s).toNat ≤ 1 := Bool.toNat_le _
    simp only [sourceAdvance]; omega

/-- The first bit read is the most significant one (R150, R62). -/
theorem fillWindow_testBit (n : Nat) (s : State) (i : Nat) (hi : i < n) :
    (fillWindow n s).code.testBit (n - 1 - i) = s.inp.getD (s.cur + i) false := by
  induction n generalizing s i with
  | zero => omega
  | succ n ih =>
    rw [fillWindow]
    cases i with
    | zero =>
      have h := fillWindow_div n (sourceAdvance { s with code := 2 * s.code + (sourceBit s).toNat })
      rw [Nat.sub_zero, Nat.add_sub_cancel, Nat.testBit_eq_decide_div_mod_eq, h]
      simp only [sourceAdvance, sourceBit, Nat.add_zero]
      have key : ∀ b : Bool, decide ((2 * s.code + b.toNat) % 2 = 1) = b := by
        intro b; cases b <;> simp [Nat.add_mod]
      exact key _
    | succ i =>
      have h := ih (sourceAdvance { s with code := 2 * s.code + (sourceBit s).toNat }) i (by omega)
      have e : n + 1 - 1 - (i + 1) = n - 1 - i := by omega
      rw [e, h]
      simp only [sourceAdvance]
      congr 1; omega

/-- The window is a `P`-bit number (R150). -/
theorem fillWindow_lt (n : Nat) (s : State) (h : s.code = 0) : (fillWindow n s).code < 2 ^ n := by
  have := fillWindow_div n s
  rw [h] at this
  exact (Nat.div_eq_zero_iff_lt (Nat.pow_pos (by decide))).1 this

/-- The whole effect of `DEC_INIT` (R150), its window named by `fillWindow`. -/
theorem startDecoder_eq (s : State) :
    startDecoder s = { s with
      total := s.model.total, sent := s.model.sentinel, low := 0, high := s.cfg.top
      code := (fillWindow s.cfg.prec { latchSession (forgetEncoder s) with cur := 0, code := 0 }).code
      cur := s.cfg.prec, symout := [], symlen := 0, ph := .dec, held := some .decoder
      pend := Config.freeReg s.draws 4, outlen := Config.freeReg s.draws 8, out := Config.freeBits s.draws,
      draws := s.draws + 1 } := by
  rw [startDecoder, fillWindow_frame]
  simp [latchSession, forgetEncoder]

/-! ### NARROW on the registers (R100) -/

theorem narrow_eq_some {e : Entry} {s t : State} :
    narrow e s = some t ↔
      narrowLow s.low s.high s.total e.cl < narrowEnd s.low s.high s.total e.ch ∧
      t = { s with
        low := narrowLow s.low s.high s.total e.cl, high := narrowEnd s.low s.high s.total e.ch - 1 } := by
  unfold narrow
  split_ifs with h
  · simp [h, eq_comm]
  · simp [h]

theorem narrow_eq_none {e : Entry} {s : State} :
    narrow e s = none ↔ narrowEnd s.low s.high s.total e.ch ≤ narrowLow s.low s.high s.total e.cl := by
  unfold narrow
  split_ifs with h <;> simp <;> omega

/-- What NARROW leaves is not empty. -/
theorem narrow_low_le_high {e : Entry} {s t : State} (h : narrow e s = some t) : t.low ≤ t.high := by
  obtain ⟨h1, rfl⟩ := narrow_eq_some.1 h
  simp only; omega

theorem hasInterval_iff {s : State} : hasInterval s = true ↔ s.low ≤ s.high ∧ 0 < s.total := by
  simp [hasInterval]

/-! ### ENC_SYM (R126) -/

/-- Everything the rule of `ENC_SYM x` can answer in its phase. -/
theorem encSymBody_cases (x : Nat) (s : State) :
    (s.model.bySymbol x = none ∧ encSymBody x s = .next (raise .unknownSymbolError s)) ∨
    (∃ e, s.model.bySymbol x = some e ∧
      ((hasInterval s = false ∧ encSymBody x s = .fault .noInterval) ∨
       (hasInterval s = true ∧ narrow e s = none ∧ encSymBody x s = .fault .endlessRenormalization) ∨
       (hasInterval s = true ∧ ∃ s₁, narrow e s = some s₁ ∧
        ((∃ n u, n ≤ s.cfg.prec ∧ Steps EncStep n s₁ u ∧ renormCase u = .stop ∧
            encSymBody x s = .next (endEncSym x u)) ∨
         (∃ n u, n < s.cfg.prec ∧ Steps EncStep n s₁ u ∧ renormCase u = .e3 ∧ pendFull u = true ∧
            encSymBody x s = .next (raise .pendingOverflow s)) ∨
         (∃ u, Steps EncStep s.cfg.prec s₁ u ∧ renormCase u ≠ .stop ∧
            encSymBody x s = .fault .endlessRenormalization))))) := by
  unfold encSymBody
  cases hm : s.model.bySymbol x with
  | none => simp
  | some e =>
    refine .inr ⟨e, rfl, ?_⟩
    cases hi : hasInterval s with
    | false => simp
    | true =>
      refine .inr ?_
      simp only [if_true, encodeEntry]
      cases hn : narrow e s with
      | none => simp
      | some s₁ =>
        refine .inr ⟨by trivial, s₁, rfl, ?_⟩
        have := renormEnc_cases s.cfg.prec s₁
        split at this <;> rename_i heq <;> simp only [heq]
        · obtain ⟨n, hn, hs, hk⟩ := this; exact .inl ⟨n, _, hn, hs, hk, by trivial⟩
        · obtain ⟨n, u, hn, hs, hk, hp⟩ := this; exact .inr (.inl ⟨n, u, hn, hs, hk, hp, by trivial⟩)
        · obtain ⟨u, hs, hk⟩ := this; exact .inr (.inr ⟨u, hs, hk, by trivial⟩)

/-! ### ENC_FLUSH (R128) -/

/-- Everything the rule of `ENC_FLUSH` can answer in its phase. -/
theorem encFlushBody_eq (s : State) :
    encFlushBody s =
      if pendFull s then .next (raise .pendingOverflow s)
      else
        let b := !decide (s.low < s.cfg.firstQuarter)
        .next { s with
          out := s.out ++ b :: List.replicate (s.pend + 1) (!b)
          outlen := s.outlen + (s.pend + 2)
          pend := 0, ph := .encDone } := by
  unfold encFlushBody
  split_ifs with h
  · rfl
  · simp only [emit_eq]

/-! ### DEC_SYM (R157, R158) -/

/-- Everything the rule of `DEC_SYM` can answer in its phase. -/
theorem decSymBody_cases (s : State) :
    (hasInterval s = false ∧ decSymBody s = .fault .noInterval) ∨
    (hasInterval s = true ∧ s.model.byTarget (targetNow s) = none ∧ decSymBody s = .next (raise .decodeRangeError s)) ∨
    (hasInterval s = true ∧ ∃ e, s.model.byTarget (targetNow s) = some e ∧
      ((e.symbol = s.sent ∧ decSymBody s = .next { s with ph := .decDone }) ∨
       (e.symbol ≠ s.sent ∧ narrow e (symPut e.symbol s) = none ∧ decSymBody s = .fault .endlessRenormalization) ∨
       (e.symbol ≠ s.sent ∧ ∃ s₁, narrow e (symPut e.symbol s) = some s₁ ∧
        ((∃ n u, n ≤ s.cfg.prec ∧ Steps DecStep n s₁ u ∧ renormCase u = .stop ∧ decSymBody s = .next u) ∨
         (∃ u, Steps DecStep s.cfg.prec s₁ u ∧ renormCase u ≠ .stop ∧
            decSymBody s = .fault .endlessRenormalization))))) := by
  unfold decSymBody
  cases hi : hasInterval s with
  | false => simp
  | true =>
    refine .inr ?_
    simp only [if_true]
    cases hm : s.model.byTarget (targetNow s) with
    | none => simp
    | some e =>
      refine .inr ⟨by trivial, e, rfl, ?_⟩
      by_cases hse : e.symbol = s.sent
      · exact .inl ⟨hse, by simp [hse]⟩
      · refine .inr ?_
        simp only [if_neg hse, decodeEntry]
        cases hn : narrow e (symPut e.symbol s) with
        | none => simp [hse]
        | some s₁ =>
          refine .inr ⟨hse, s₁, rfl, ?_⟩
          have := renormDec_cases s.cfg.prec s₁
          split at this <;> rename_i heq <;> simp only [heq]
          · obtain ⟨n, hn, hs, hk⟩ := this; exact .inl ⟨n, _, hn, hs, hk, by trivial⟩
          · obtain ⟨u, hs, hk⟩ := this; exact .inr ⟨u, hs, hk, by trivial⟩

/-! ### The two lookups (R56, R57) -/

/-- What `ModelByTarget` finds contains the target. -/
theorem byTarget_some {m : ModelTable} {t : Int} {e : Entry} (h : m.byTarget t = some e) :
    e ∈ m.entries ∧ (e.cl : Int) ≤ t ∧ t < e.ch := by
  have h1 := List.find?_some h
  exact ⟨List.mem_of_find?_eq_some h, by simpa using h1⟩

theorem bySymbol_some {m : ModelTable} {x : Nat} {e : Entry} (h : m.bySymbol x = some e) :
    e ∈ m.entries ∧ e.symbol = x := by
  have h1 := List.find?_some h
  exact ⟨List.mem_of_find?_eq_some h, by simpa using h1⟩

/-! ### The host's port (R39, R80, R84, R230, R233) -/

theorem execWord_ok {cw : Word} {s : State} {i : Instr} (h : decode s.cfg.symBits cw = .ok i) : execWord cw s = exec i s := by
  simp [execWord, h]

theorem execWord_error {cw : Word} {s : State} {why : DecodeError} (h : decode s.cfg.symBits cw = .error why) :
    execWord cw s = .next (illegalWord s) := by
  simp [execWord, h]

/-- Everything one step can be. -/
theorem step_cases (s : State) :
    (s.inbox = [] ∧ step s = .next s) ∨
    (∃ cw rest i, s.inbox = .command cw :: rest ∧ decode s.cfg.symBits cw = .ok i ∧
      step s = exec i { s with inbox := rest }) ∨
    (∃ cw rest err, s.inbox = .command cw :: rest ∧ decode s.cfg.symBits cw = .error err ∧
      step s = .next (illegalWord { s with inbox := rest })) ∨
    (∃ rest, s.inbox = .resetLine :: rest ∧ step s = .next (resetEngine { s with inbox := rest })) ∨
    (∃ m rest, s.inbox = .loadModel m :: rest ∧ step s = loadModel m { s with inbox := rest }) ∨
    (∃ bits rest, s.inbox = .loadSource bits :: rest ∧ step s = loadSource bits { s with inbox := rest }) := by
  unfold step takeAction
  cases hb : s.inbox with
  | nil => simp
  | cons a rest =>
    refine .inr ?_
    cases a with
    | command cw =>
      cases hd : decode s.cfg.symBits cw with
      | ok i => exact .inl ⟨cw, rest, i, rfl, hd, execWord_ok hd⟩
      | error err => exact .inr (.inl ⟨cw, rest, err, rfl, hd, execWord_error hd⟩)
    | resetLine => exact .inr (.inr (.inl ⟨rest, rfl, rfl⟩))
    | loadModel m => exact .inr (.inr (.inr (.inl ⟨m, rest, rfl, rfl⟩)))
    | loadSource bits => exact .inr (.inr (.inr (.inr ⟨bits, rest, rfl, rfl⟩)))

end Sys2Proof.Machine
end

