-- ==== Sys2Proof/Laws/Decode.lean ====
section
/-! SUPPORT. The fields of a word as numbers, the fields of an encoded command, and what the decoder accepts. -/

namespace Sys2Proof

theorem opField_toNat (cw : Word) : (opField cw).toNat = cw.toNat / 2 ^ 24 := by
  have := cw.isLt
  simp [opField, BitVec.extractLsb'_toNat, Nat.shiftRight_eq_div_pow]; omega

theorem argField_toNat (cw : Word) : (argField cw).toNat = cw.toNat % 2 ^ 24 := by
  simp [argField, BitVec.extractLsb'_toNat]

/-- The word of a command as a number: opcode above, operand field below (R80). -/
theorem encode_toNat (i : Instr) : (encode i).toNat = i.opcode.toNat * 2 ^ 24 + i.arg.toNat := by
  have h : (encode i).toNat = i.opcode.toNat <<< 24 ||| i.arg.toNat := BitVec.toNat_append i.opcode i.arg
  rw [h, Nat.shiftLeft_eq, Nat.mul_comm, Nat.two_pow_add_eq_or_of_lt i.arg.isLt]

@[simp] theorem opField_encode (i : Instr) : opField (encode i) = i.opcode := by
  have := i.arg.isLt
  apply BitVec.eq_of_toNat_eq
  rw [opField_toNat, encode_toNat]; omega

@[simp] theorem argField_encode (i : Instr) : argField (encode i) = i.arg := by
  have := i.arg.isLt
  apply BitVec.eq_of_toNat_eq
  rw [argField_toNat, encode_toNat]; omega

/-- Two words with the same fields are one word. -/
theorem word_ext {a b : Word} (ho : opField a = opField b) (ha : argField a = argField b) : a = b := by
  have h1 := congrArg BitVec.toNat ho
  have h2 := congrArg BitVec.toNat ha
  rw [opField_toNat, opField_toNat] at h1
  rw [argField_toNat, argField_toNat] at h2
  apply BitVec.eq_of_toNat_eq; omega

/-- Everything the decoder accepts: the command's opcode, its operand field, and a well-formed operand. -/
theorem decode_ok_iff {n : Nat} {cw : Word} {i : Instr} :
    decode n cw = .ok i ↔
      (opField cw).toNat = i.opcode.toNat ∧ i.wf n = true ∧
        (argField cw).toNat = (match i with | .encSym x => x | _ => 0) := by
  have hl := (argField cw).isLt
  unfold decode
  dsimp only
  generalize (argField cw).toNat = a at *
  generalize (opField cw).toNat = o at *
  split <;> cases i <;> simp [withoutArg, Instr.opcode, Instr.wf] <;> grind

end Sys2Proof
end

