-- ==== Sys2Proof/Laws/Exec.lean ====
section
/-! SUPPORT. Everything a command can do, once for the whole instruction set (`Effect`, `exec_next`): the inversion later
proofs use instead of unfolding `exec`; and the steps of the host's queue for each outcome of decoding. -/

namespace Sys2Proof.Machine

open Sys2Proof

/-- Why a command raises which fault (R200 to R207). -/
inductive Raises : Instr → EngineFault → State → Prop where
  | phase {i : Instr} {s : State} (h : accepts i s.ph = false) : Raises i .illegalCommand s
  | emptyModel {i : Instr} {s : State} (hi : i = .encInit ∨ i = .decInit) (ha : accepts i s.ph = true)
      (h : s.model.total = 0) : Raises i .emptyModelError s
  | precision {i : Instr} {s : State} (hi : i = .encInit ∨ i = .decInit) (ha : accepts i s.ph = true)
      (h0 : 0 < s.model.total) (h : s.cfg.firstQuarter ≤ s.model.total) : Raises i .precisionOverflowError s
  | unknownSymbol {x : Nat} {s : State} (hp : s.ph = .enc) (h : s.model.bySymbol x = none) :
      Raises (.encSym x) .unknownSymbolError s
  | symbolOverflow {x : Nat} {e : Entry} {n : Nat} {s s₁ u : State} (hp : s.ph = .enc)
      (he : s.model.bySymbol x = some e) (hi : hasInterval s = true) (hn : narrow e s = some s₁)
      (hs : Steps EncStep n s₁ u) (hk : renormCase u = .e3) (hf : pendFull u = true) :
      Raises (.encSym x) .pendingOverflow s
  | flushOverflow {s : State} (hp : s.ph = .encEos) (h : pendFull s = true) : Raises .encFlush .pendingOverflow s
  | decodeRange {s : State} (hp : s.ph = .dec) (hi : hasInterval s = true)
      (h : s.model.byTarget (targetNow s) = none) : Raises .decSym .decodeRangeError s

/-- Everything a command that answers a next state can have done. -/
inductive Effect : Instr → State → State → Prop where
  | nop (s : State) : Effect .nop s s
  | reset (s : State) : Effect .reset s (resetEngine s)
  | ignored {i : Instr} {s : State} (hp : s.ph = .fault) (hi : i ≠ .reset) : Effect i s s
  | raised {i : Instr} {s : State} {k : EngineFault} (hp : s.ph ≠ .fault) (why : Raises i k s) : Effect i s (raise k s)
  | encInit {s : State} (ha : accepts .encInit s.ph = true) (h0 : 0 < s.model.total)
      (h : s.model.total < s.cfg.firstQuarter) : Effect .encInit s (startEncoder s)
  | decInit {s : State} (ha : accepts .decInit s.ph = true) (h0 : 0 < s.model.total)
      (h : s.model.total < s.cfg.firstQuarter) : Effect .decInit s (startDecoder s)
  | encSym {x : Nat} {e : Entry} {n : Nat} {s s₁ u : State} (hp : s.ph = .enc)
      (he : s.model.bySymbol x = some e) (hi : hasInterval s = true) (hn : narrow e s = some s₁)
      (hle : n ≤ s.cfg.prec) (hs : Steps EncStep n s₁ u) (hk : renormCase u = .stop) :
      Effect (.encSym x) s (endEncSym x u)
  | encFlush {s : State} (b : Bool) (hp : s.ph = .encEos) (hf : pendFull s = false)
      (hb : b = !decide (s.low < s.cfg.firstQuarter)) :
      Effect .encFlush s { s with
        out := s.out ++ b :: List.replicate (s.pend + 1) (!b), outlen := s.outlen + (s.pend + 2), pend := 0
        ph := .encDone }
  | decSentinel {e : Entry} {s : State} (hp : s.ph = .dec) (hi : hasInterval s = true)
      (he : s.model.byTarget (targetNow s) = some e) (hx : e.symbol = s.sent) :
      Effect .decSym s { s with ph := .decDone }
  | decSymbol {e : Entry} {n : Nat} {s s₁ u : State} (hp : s.ph = .dec) (hi : hasInterval s = true)
      (he : s.model.byTarget (targetNow s) = some e) (hx : e.symbol ≠ s.sent)
      (hn : narrow e (symPut e.symbol s) = some s₁) (hle : n ≤ s.cfg.prec) (hs : Steps DecStep n s₁ u)
      (hk : renormCase u = .stop) : Effect .decSym s u

theorem next_inj {a b : State} (h : (Host.Outcome.next a : Result) = .next b) : a = b := Host.Outcome.next.inj h

/-- What NARROW and the encoder's steps leave alone. -/
theorem narrow_enc_frame {e : Entry} {n : Nat} {s s₁ u : State} (hn : narrow e s = some s₁) (hs : Steps EncStep n s₁ u) :
    u = { s with low := u.low, high := u.high, pend := u.pend, out := u.out, outlen := u.outlen } := by
  have h1 := hs.encFrame
  rw [(narrow_eq_some.1 hn).2] at h1
  exact h1

/-- What SYMPUT, NARROW and the decoder's steps leave alone. -/
theorem narrow_dec_frame {e : Entry} {n : Nat} {s s₁ u : State} (hn : narrow e (symPut e.symbol s) = some s₁)
    (hs : Steps DecStep n s₁ u) :
    u = { s with
      low := u.low, high := u.high, code := u.code, cur := s.cur + n
      symout := s.symout ++ [e.symbol], symlen := s.symlen + 1 } := by
  have h1 := hs.decFrame
  have h2 := hs.decCur
  rw [(narrow_eq_some.1 hn).2] at h1 h2
  rw [h2] at h1
  exact h1

/-- What the end of `ENC_SYM` changes. -/
theorem endEncSym_eq (x : Nat) (s : State) : endEncSym x s = { s with ph := if x = s.sent then .encEos else s.ph } := by
  unfold endEncSym; split_ifs <;> rfl

/-- What a phase-checked command did, given what its own rule can do. -/
theorem guarded_next {i : Instr} {body : State → Result} {s t : State} (hi : i ≠ .reset)
    (hbody : s.ph ≠ .fault → accepts i s.ph = true → body s = .next t → Effect i s t)
    (h : guarded i body s = .next t) : Effect i s t := by
  rcases guarded_cases i body s with ⟨hp, e⟩ | ⟨hp, ha, e⟩ | ⟨hp, ha, e⟩ <;> rw [e] at h
  · rw [← next_inj h]; exact .ignored hp hi
  · rw [← next_inj h]; exact .raised hp (.phase ha)
  · exact hbody hp ha h

theorem openSession_next {i : Instr} {start : State → State} {s t : State} (hi : i = .encInit ∨ i = .decInit)
    (hp : s.ph ≠ .fault) (ha : accepts i s.ph = true)
    (hstart : 0 < s.model.total → s.model.total < s.cfg.firstQuarter → Effect i s (start s))
    (h : openSession start s = .next t) : Effect i s t := by
  rcases openSession_cases start s with ⟨h0, e⟩ | ⟨h0, h1, e⟩ | ⟨h0, h1, e⟩ <;> rw [e] at h <;> rw [← next_inj h]
  · exact .raised hp (.emptyModel hi ha h0)
  · exact .raised hp (.precision hi ha h0 h1)
  · exact hstart h0 h1

/-- Everything a command that answers a next state did. -/
theorem exec_next {i : Instr} {s t : State} (h : exec i s = .next t) : Effect i s t := by
  cases i with
  | nop => rw [← next_inj h]; exact .nop s
  | reset => rw [← next_inj h]; exact .reset s
  | encInit =>
    exact guarded_next (by simp) (fun hp ha => openSession_next (.inl rfl) hp ha fun h0 h1 => .encInit ha h0 h1) h
  | decInit =>
    exact guarded_next (by simp) (fun hp ha => openSession_next (.inr rfl) hp ha fun h0 h1 => .decInit ha h0 h1) h
  | encSym x =>
    refine guarded_next (by simp) (fun hp ha hb => ?_) h
    have hp' : s.ph = .enc := by simpa [accepts] using ha
    rcases encSymBody_cases x s with ⟨hm, e⟩ | ⟨e, hm, ⟨_, e'⟩ | ⟨_, _, e'⟩ |
      ⟨hi, s₁, hn, ⟨n, u, hle, hs, hk, e'⟩ | ⟨n, u, _, hs, hk, hf, e'⟩ | ⟨u, _, _, e'⟩⟩⟩
    · rw [e] at hb; rw [← next_inj hb]; exact .raised hp (.unknownSymbol hp' hm)
    · rw [e'] at hb; cases hb
    · rw [e'] at hb; cases hb
    · rw [e'] at hb; rw [← next_inj hb]; exact .encSym hp' hm hi hn hle hs hk
    · rw [e'] at hb; rw [← next_inj hb]; exact .raised hp (.symbolOverflow hp' hm hi hn hs hk hf)
    · rw [e'] at hb; cases hb
  | encFlush =>
    refine guarded_next (by simp) (fun hp ha hb => ?_) h
    have hp' : s.ph = .encEos := by simpa [accepts] using ha
    rw [encFlushBody_eq] at hb
    cases hf : pendFull s with
    | true => rw [if_pos hf] at hb; rw [← next_inj hb]; exact .raised hp (.flushOverflow hp' hf)
    | false => rw [if_neg (by simp [hf])] at hb; rw [← next_inj hb]; exact .encFlush _ hp' hf rfl
  | decSym =>
    refine guarded_next (by simp) (fun hp ha hb => ?_) h
    have hp' : s.ph = .dec := by simpa [accepts] using ha
    rcases decSymBody_cases s with ⟨_, e⟩ | ⟨hi, hm, e⟩ | ⟨hi, e, hm, ⟨hx, e'⟩ | ⟨_, _, e'⟩ |
      ⟨hx, s₁, hn, ⟨n, u, hle, hs, hk, e'⟩ | ⟨u, _, _, e'⟩⟩⟩
    · rw [e] at hb; cases hb
    · rw [e] at hb; rw [← next_inj hb]; exact .raised hp (.decodeRange hp' hi hm)
    · rw [e'] at hb; rw [← next_inj hb]; exact .decSentinel hp' hi hm hx
    · rw [e'] at hb; cases hb
    · rw [e'] at hb; rw [← next_inj hb]; exact .decSymbol hp' hi hm hx hn hle hs hk
    · rw [e'] at hb; cases hb

/-! ### Running a command whose outcome is known -/

theorem exec_ignored {i : Instr} {s : State} (hp : s.ph = .fault) (hi : i ≠ .reset) : exec i s = .next s := by
  cases i with
  | nop => rfl
  | reset => exact absurd rfl hi
  | encInit | encSym | encFlush | decInit | decSym => exact guarded_fault hp

theorem exec_encSym {x : Nat} {s : State} (hp : s.ph = .enc) : exec (.encSym x) s = encSymBody x s :=
  guarded_accepted (by simp [hp]) (by simp [accepts, hp])

theorem exec_encFlush {s : State} (hp : s.ph = .encEos) : exec .encFlush s = encFlushBody s :=
  guarded_accepted (by simp [hp]) (by simp [accepts, hp])

theorem exec_decSym {s : State} (hp : s.ph = .dec) : exec .decSym s = decSymBody s :=
  guarded_accepted (by simp [hp]) (by simp [accepts, hp])

theorem exec_encInit {s : State} (ha : accepts .encInit s.ph = true) :
    exec .encInit s = openSession startEncoder s :=
  guarded_accepted (by intro h; simp [accepts, h] at ha) ha

theorem exec_decInit {s : State} (ha : accepts .decInit s.ph = true) :
    exec .decInit s = openSession startDecoder s :=
  guarded_accepted (by intro h; simp [accepts, h] at ha) ha

/-- The phases a command is accepted in are the ones the statements list. -/
theorem accepts_iff_listed {i : Instr} {ph : Phase} (h : ph ≠ .fault) : accepts i ph = true ↔ ph ∈ listedPhases i := by
  cases i <;> cases ph <;> simp [accepts, listedPhases] at h ⊢

/-! ### Steps of the host's queue -/

theorem step_ok {s : State} {cw : Word} {rest : List HostAction} {i : Instr} (hb : s.inbox = .command cw :: rest)
    (hd : decode s.cfg.symBits cw = .ok i) : step s = exec i { s with inbox := rest } := by
  simpa [step, takeAction, hb] using execWord_ok (s := { s with inbox := rest }) hd

theorem step_error {s : State} {cw : Word} {rest : List HostAction} {why : DecodeError}
    (hb : s.inbox = .command cw :: rest) (hd : decode s.cfg.symBits cw = .error why) :
    step s = .next (illegalWord { s with inbox := rest }) := by
  simpa [step, takeAction, hb] using execWord_error (s := { s with inbox := rest }) hd

/-! ### Commands as the host issues them -/

/-- What issuing a command comes to (R80, R82, R84): a well-formed one runs, any other is an illegal encoding. -/
theorem issueCommand_eq (i : Instr) (s : State) :
    issueCommand i s = if i.wf s.cfg.symBits then exec i s else .next (illegalWord s) := by
  unfold issueCommand execWord
  cases i with
  | encSym x =>
    by_cases hx : x < 16777216
    · by_cases hn : x < 2 ^ s.cfg.symBits <;>
        simp [Instr.hasWord, Instr.wf, decode, Instr.opcode, Instr.arg, Nat.mod_eq_of_lt hx, hx, hn]
    · simp [Instr.hasWord, Instr.wf, hx]
  | nop | reset | encInit | encFlush | decInit | decSym =>
    simp [Instr.hasWord, Instr.wf, decode, Instr.opcode, Instr.arg, withoutArg]

theorem issueCommand_of_wf {i : Instr} {s : State} (h : i.wf s.cfg.symBits = true) : issueCommand i s = exec i s := by
  rw [issueCommand_eq, if_pos h]

@[simp] theorem issueCommand_decInit (s : State) : issueCommand .decInit s = exec .decInit s := issueCommand_of_wf rfl

@[simp] theorem issueCommand_decSym (s : State) : issueCommand .decSym s = exec .decSym s := issueCommand_of_wf rfl

/-- A step on the word of a command is the command issued. -/
theorem step_issue {s : State} {rest : List HostAction} {i : Instr} (hw : i.hasWord = true)
    (hb : s.inbox = .command (encode i) :: rest) : step s = issueCommand i { s with inbox := rest } := by
  simp [step, takeAction, issueCommand, hb, hw]

/-- The only word of `RESET` (R81). -/
theorem reset_word {n : Nat} {cw : Word} (h : decode n cw = .ok .reset) : cw = 0x01000000#32 := by
  rw [decode_ok_iff] at h
  exact word_ext (BitVec.eq_of_toNat_eq h.1) (BitVec.eq_of_toNat_eq h.2.2)

end Sys2Proof.Machine
end

