-- ==== Sys2Proof/Laws/PerInstr.lean ====
section
/-! SUPPORT. Per command, its word in the terms of the opcode table: the bits of the table's `mask` are those of its `match`
(R81). -/

namespace Sys2Proof.Laws.Encoding

open Sys2Proof

/-- The command's word has the table's fixed bits, and the bits outside the mask are the operand's. -/
def Statement (i : Instr) : Prop :=
  encode i &&& i.maskBits = i.matchBits ∧ encode i &&& ~~~ i.maskBits = BitVec.setWidth 32 i.arg &&& ~~~ i.maskBits

theorem nop : Statement .nop := by unfold Statement; decide
theorem reset : Statement .reset := by unfold Statement; decide
theorem encInit : Statement .encInit := by unfold Statement; decide

theorem encSym (s : Nat) : Statement (.encSym s) := by
  have h : ∀ j, (encode (.encSym s)).getLsbD j =
      if j < 24 then (BitVec.ofNat 24 s).getLsbD j else (0x11#8).getLsbD (j - 24) := fun j =>
    BitVec.getLsbD_append (x := 0x11#8) (y := BitVec.ofNat 24 s)
  constructor
  · apply BitVec.eq_of_getLsbD_eq
    intro j hj
    rw [BitVec.getLsbD_and, h]
    simp only [Instr.maskBits, Instr.matchBits]
    by_cases hlt : j < 24
    · rw [if_pos hlt]; interval_cases j <;> simp
    · rw [if_neg hlt]; interval_cases j <;> first | omega | decide
  · apply BitVec.eq_of_getLsbD_eq
    intro j hj
    rw [BitVec.getLsbD_and, h, BitVec.getLsbD_and, BitVec.getLsbD_setWidth]
    simp only [Instr.maskBits, Instr.arg]
    by_cases hlt : j < 24
    · simp [hlt, hj]
    · rw [if_neg hlt]; interval_cases j <;> first | omega | simp

theorem encFlush : Statement .encFlush := by unfold Statement; decide
theorem decInit : Statement .decInit := by unfold Statement; decide
theorem decSym : Statement .decSym := by unfold Statement; decide

end Sys2Proof.Laws.Encoding
end

