-- ==== Sys2Proof/Laws/Reframe.lean ====
section
/-! SUPPORT. What a command reads of the host's side: the bits of the source, zeros past its end, and nothing of the queue
(R39, R60): `exec_reframe`. -/

namespace Sys2Proof.Machine

open Sys2Proof

/-- The same state with another source and another queue. -/
def reframe (p : List Bool) (b : List HostAction) (s : State) : State := { s with inp := p, inbox := b }

theorem sourceBit_reframe {p : List Bool} {b : List HostAction} {s : State}
    (h : ∀ i, p.getD i false = s.inp.getD i false) : sourceBit (reframe p b s) = sourceBit s := h s.cur

theorem narrow_reframe (p : List Bool) (b : List HostAction) (e : Entry) (s : State) :
    narrow e (reframe p b s) = (narrow e s).map (reframe p b) := by
  unfold narrow
  by_cases h : narrowLow s.low s.high s.total e.cl < narrowEnd s.low s.high s.total e.ch
  · rw [if_pos h]; exact if_pos h
  · rw [if_neg h]; exact if_neg h

/-- An ended loop's state with another source and another queue. -/
def RenormEnd.reframe (p : List Bool) (b : List HostAction) : RenormEnd → RenormEnd
  | .done s => .done (Machine.reframe p b s)
  | .overflow => .overflow
  | .endless => .endless

theorem emit_reframe (p : List Bool) (b : List HostAction) (v : Bool) (s : State) :
    emit v (reframe p b s) = reframe p b (emit v s) := by
  simp only [emit_eq, reframe]

theorem renormEnc_reframe (p : List Bool) (b : List HostAction) (n : Nat) (s : State) :
    renormEnc n (reframe p b s) = (renormEnc n s).reframe p b := by
  induction n generalizing s with
  | zero =>
    simp only [renormEnc]
    have : renormCase (reframe p b s) = renormCase s := rfl
    rw [this]; split_ifs <;> rfl
  | succ n ih =>
    simp only [renormEnc]
    have : renormCase (reframe p b s) = renormCase s := rfl
    rw [this]
    cases renormCase s with
    | stop => rfl
    | e1 => simp only [encE1, emit_reframe]; exact ih (scaleInterval .e1 (emit false s))
    | e2 => simp only [encE2, emit_reframe]; exact ih (scaleInterval .e2 (emit true s))
    | e3 =>
      have : pendFull (reframe p b s) = pendFull s := rfl
      simp only [this]
      split_ifs
      · rfl
      · exact ih (encE3 s)

theorem renormDec_reframe {p : List Bool} {b : List HostAction} (n : Nat) {s : State}
    (h : ∀ i, p.getD i false = s.inp.getD i false) :
    renormDec n (reframe p b s) = (renormDec n s).map (reframe p b) := by
  induction n generalizing s with
  | zero =>
    simp only [renormDec]
    have : renormCase (reframe p b s) = renormCase s := rfl
    rw [this]; split_ifs <;> rfl
  | succ n ih =>
    have hs : ∀ k, shiftCode k (reframe p b s) = reframe p b (shiftCode k s) := fun k => by
      simp only [shiftCode, sourceBit_reframe h]; rfl
    simp only [renormDec]
    have : renormCase (reframe p b s) = renormCase s := rfl
    rw [this]
    cases renormCase s with
    | stop => rfl
    | e1 => simp only [decD1, hs]; exact ih (s := scaleInterval .e1 (shiftCode .e1 s)) h
    | e2 => simp only [decD2, hs]; exact ih (s := scaleInterval .e2 (shiftCode .e2 s)) h
    | e3 => simp only [decD3, hs]; exact ih (s := scaleInterval .e3 (shiftCode .e3 s)) h

theorem fillWindow_reframe {p : List Bool} {b : List HostAction} (n : Nat) {s : State}
    (h : ∀ i, p.getD i false = s.inp.getD i false) :
    fillWindow n (reframe p b s) = reframe p b (fillWindow n s) := by
  induction n generalizing s with
  | zero => rfl
  | succ n ih =>
    simp only [fillWindow, sourceBit_reframe h]
    exact ih (s := sourceAdvance { s with code := 2 * s.code + (sourceBit s).toNat }) h

/-- Every command answers alike whatever the queue holds and whatever zeros follow the source (R60, R62, R39). -/
theorem exec_reframe (i : Instr) {p : List Bool} (b : List HostAction) {s : State}
    (h : ∀ i, p.getD i false = s.inp.getD i false) :
    exec i (reframe p b s) =
      match exec i s with
      | .next t => .next (reframe p b t)
      | .fault f => .fault f
      | .refused r => .refused r := by
  have hg : ∀ (i : Instr) (body : State → Result),
      (body (reframe p b s) = match body s with
        | .next t => .next (reframe p b t) | .fault f => .fault f | .refused r => .refused r) →
      guarded i body (reframe p b s) = match guarded i body s with
        | .next t => .next (reframe p b t) | .fault f => .fault f | .refused r => .refused r := by
    intro i body hb
    have hph : (reframe p b s).ph = s.ph := rfl
    simp only [guarded, hph]
    split_ifs
    · rfl
    · exact hb
    · rfl
  have ho : ∀ start : State → State, start (reframe p b s) = reframe p b (start s) →
      openSession start (reframe p b s) = match openSession start s with
        | .next t => .next (reframe p b t) | .fault f => .fault f | .refused r => .refused r := by
    intro start hs
    have h1 : (reframe p b s).model = s.model := rfl
    have h2 : (reframe p b s).cfg = s.cfg := rfl
    simp only [openSession, h1, h2]
    split_ifs
    · rfl
    · rfl
    · simp only [hs]
  cases i with
  | nop => rfl
  | reset => rfl
  | encInit => exact hg _ _ (ho _ rfl)
  | decInit =>
    refine hg _ _ (ho _ ?_)
    simp only [startDecoder]
    have := fillWindow_reframe (p := p) (b := b) s.cfg.prec
      (s := { latchSession (forgetEncoder s) with cur := 0, code := 0 }) h
    have h1 : ({ latchSession (forgetEncoder (reframe p b s)) with cur := 0, code := 0 } : State) =
      reframe p b { latchSession (forgetEncoder s) with cur := 0, code := 0 } := rfl
    have h2 : (reframe p b s).cfg = s.cfg := rfl
    rw [h1, h2, this]; rfl
  | encSym x =>
    refine hg _ _ ?_
    have h1 : (reframe p b s).model = s.model := rfl
    have h2 : hasInterval (reframe p b s) = hasInterval s := rfl
    have h3 : (reframe p b s).cfg = s.cfg := rfl
    simp only [encSymBody, h1, h2]
    cases s.model.bySymbol x with
    | none => rfl
    | some e =>
      dsimp only
      split_ifs
      · simp only [encodeEntry, narrow_reframe, h3]
        cases narrow e s with
        | none => rfl
        | some s₁ =>
          simp only [Option.map_some, renormEnc_reframe]
          cases renormEnc s.cfg.prec s₁ with
          | done u => simp only [RenormEnd.reframe, endEncSym_eq]; rfl
          | overflow => rfl
          | endless => rfl
      · rfl
  | encFlush =>
    refine hg _ _ ?_
    have h1 : pendFull (reframe p b s) = pendFull s := rfl
    simp only [encFlushBody_eq, h1]
    split_ifs <;> rfl
  | decSym =>
    refine hg _ _ ?_
    have h1 : (reframe p b s).model = s.model := rfl
    have h2 : hasInterval (reframe p b s) = hasInterval s := rfl
    have h3 : (reframe p b s).cfg = s.cfg := rfl
    have h4 : targetNow (reframe p b s) = targetNow s := rfl
    have h5 : (reframe p b s).sent = s.sent := rfl
    have h6 : ∀ x, symPut x (reframe p b s) = reframe p b (symPut x s) := fun _ => rfl
    simp only [decSymBody, h1, h2, h4, h5]
    split_ifs
    · cases s.model.byTarget (targetNow s) with
      | none => rfl
      | some e =>
        dsimp only
        split_ifs
        · rfl
        · simp only [decodeEntry, h6, narrow_reframe, h3]
          cases hn : narrow e (symPut e.symbol s) with
          | none => rfl
          | some s₁ =>
            have hin : s₁.inp = s.inp := by rw [(narrow_eq_some.1 hn).2]; rfl
            simp only [Option.map_some, renormDec_reframe s.cfg.prec (s := s₁) (by rw [hin]; exact h)]
            cases renormDec s.cfg.prec s₁ <;> rfl
    · rfl

end Sys2Proof.Machine
end

