-- ==== Sys2Proof/Laws/Table.lean ====
section
/-! SUPPORT. Tables: what ranges that tile are (R52, R57), what NARROW leaves of a well-formed table's entries (R101), and
what the model builder counts (R58). -/

namespace Sys2Proof.Machine

open Sys2Proof

/-! ### Ranges that tile (R52) -/

/-- The ranges of entries that tile `[a, z)` are non-empty and lie in it. -/
theorem tiles_bounds {a z : Nat} {es : List Entry} (h : tiles a es z = true)
    (hf : ∀ e ∈ es, 1 ≤ e.frequency ∧ e.ch = e.cl + e.frequency) :
    a ≤ z ∧ ∀ e ∈ es, a ≤ e.cl ∧ e.cl < e.ch ∧ e.ch ≤ z := by
  induction es generalizing a with
  | nil => simp [tiles] at h; simp [h]
  | cons e es ih =>
    simp [tiles] at h
    have h1 := hf e (by simp)
    obtain ⟨i1, i2⟩ := ih h.2 (fun x hx => hf x (by simp [hx]))
    refine ⟨by omega, fun x hx => ?_⟩
    rcases List.mem_cons.1 hx with rfl | hx
    · omega
    · have := i2 x hx; omega

/-- Where ranges that tile meet (R52). -/
theorem tiles_adjacent {a z : Nat} {before after : List Entry} {x y : Entry}
    (h : tiles a (before ++ x :: y :: after) z = true) : y.cl = x.ch := by
  induction before generalizing a with
  | nil => simp [tiles] at h; exact h.2.1
  | cons e es ih => simp [tiles] at h; exact ih h.2

/-- Where ranges that tile end (R52). -/
theorem tiles_last {a z : Nat} {before : List Entry} {x : Entry} (h : tiles a (before ++ [x]) z = true) : x.ch = z := by
  induction before generalizing a with
  | nil => simp [tiles] at h; exact h.2
  | cons e es ih => simp [tiles] at h; exact ih h.2

/-- A monotone image of ranges that tile `[a, z)` covers what lies between the images of `a` and `z`, each point once. -/
theorem tiles_image_cover {f : Nat → Nat} (hmono : ∀ {x y}, x ≤ y → f x ≤ f y) {a z : Nat} {es : List Entry}
    (h : tiles a es z = true) (hf : ∀ e ∈ es, 1 ≤ e.frequency ∧ e.ch = e.cl + e.frequency)
    (t : Nat) (h1 : f a ≤ t) (h2 : t < f z) :
    ∃ e ∈ es, f e.cl ≤ t ∧ t < f e.ch ∧ ∀ b ∈ es, f b.cl ≤ t → t < f b.ch → b = e := by
  induction es generalizing a with
  | nil => simp [tiles] at h; subst h; omega
  | cons e es ih =>
    simp [tiles] at h
    obtain ⟨hea, ht⟩ := h
    subst hea
    have hf' : ∀ e ∈ es, 1 ≤ e.frequency ∧ e.ch = e.cl + e.frequency := fun x hx => hf x (by simp [hx])
    have hle := tiles_bounds ht hf'
    by_cases hlt : t < f e.ch
    · refine ⟨e, by simp, h1, hlt, fun b hb hb1 hb2 => ?_⟩
      rcases List.mem_cons.1 hb with rfl | hb
      · rfl
      · have := hmono (hle.2 b hb).1; omega
    · obtain ⟨x, hx, i1, i2, i3⟩ := ih ht hf' (by omega)
      refine ⟨x, by simp [hx], i1, i2, fun b hb hb1 hb2 => ?_⟩
      rcases List.mem_cons.1 hb with rfl | hb
      · omega
      · exact i3 b hb hb1 hb2

/-- What NARROW leaves of an entry of a well-formed table is a non-empty part of the interval (R101 (a)). -/
theorem ModelTable.WF.narrow_bounds {m : ModelTable} (h : m.WF) {low high : Nat} (hlh : low ≤ high)
    (hr : m.total ≤ rangeOf low high) {e : Entry} (he : e ∈ m.entries) :
    low ≤ narrowLow low high m.total e.cl ∧
      narrowLow low high m.total e.cl < narrowEnd low high m.total e.ch ∧ narrowEnd low high m.total e.ch ≤ high + 1 := by
  have hb := (tiles_bounds h.2.1 h.2.2.1).2 e he
  exact ⟨narrowLow_ge, narrow_nonempty h.2.2.2.2.2 hb.2.1 hr, narrowEnd_le hb.2.2 hlh⟩

theorem narrowLow_mono {low high total x y : Nat} (h : x ≤ y) :
    narrowLow low high total x ≤ narrowLow low high total y :=
  Nat.add_le_add_left (Nat.div_le_div_right (Nat.mul_le_mul_left _ h)) _

/-- Symbols ascend strictly, so an entry is the first of its symbol (R53, R56). -/
theorem ModelTable.WF.bySymbol_eq {m : ModelTable} (h : m.WF) {e : Entry} (he : e ∈ m.entries) :
    m.bySymbol e.symbol = some e := by
  cases hf : m.bySymbol e.symbol with
  | none => simp [ModelTable.bySymbol] at hf; exact absurd rfl (hf e he)
  | some e' =>
    obtain ⟨h1, h2⟩ := bySymbol_some hf
    have hp := List.pairwise_iff_getElem.1 h.2.2.2.1
    obtain ⟨i, hi, rfl⟩ := List.getElem_of_mem he
    obtain ⟨j, hj, rfl⟩ := List.getElem_of_mem h1
    rcases Nat.lt_trichotomy i j with hij | rfl | hij
    · have := hp i j hi hj hij; omega
    · rfl
    · have := hp j i hj hi hij; omega

/-- The lookup by target answers exactly the entry whose range holds a target below the total (R57). -/
theorem ModelTable.WF.byTarget_total {m : ModelTable} (h : m.WF) {t : Int} (h0 : 0 ≤ t) (ht : t < m.total) :
    ∃ e, m.byTarget t = some e := by
  obtain ⟨n, rfl⟩ := Int.eq_ofNat_of_zero_le h0
  obtain ⟨e, he, h1, h2, -⟩ := tiles_image_cover (f := id) (fun h => h) h.2.1 h.2.2.1 n (Nat.zero_le _) (by simpa using ht)
  cases hf : m.byTarget n with
  | some e => exact ⟨e, rfl⟩
  | none =>
    simp only [ModelTable.byTarget, List.find?_eq_none, decide_eq_true_eq] at hf
    simp only [id] at h1 h2
    exact absurd ⟨by omega, by omega⟩ (hf e he)

/-! ### The model builder (R58) -/

theorem runningRanges_tiles (a : Nat) (cs : List (Nat × Nat)) :
    tiles a (runningRanges a cs) (a + sumCounts cs) = true := by
  induction cs generalizing a with
  | nil => simp [tiles, runningRanges, sumCounts]
  | cons c cs ih => obtain ⟨x, n⟩ := c; simp [tiles, runningRanges, sumCounts, ← Nat.add_assoc, ih]

/-- The entries keep the order, the symbols and the counts of the list they are made from. -/
theorem runningRanges_entries (a : Nat) (cs : List (Nat × Nat)) :
    (runningRanges a cs).map (fun e => (e.symbol, e.frequency)) = cs ∧
      ∀ e ∈ runningRanges a cs, e.ch = e.cl + e.frequency := by
  induction cs generalizing a with
  | nil => simp [runningRanges]
  | cons c cs ih =>
    obtain ⟨x, n⟩ := c
    simp only [runningRanges, List.map_cons, ih, List.forall_mem_cons, true_and]
    exact (ih (a + n)).2

theorem sumCounts_countSymbol (x : Nat) (cs : List (Nat × Nat)) : sumCounts (countSymbol x cs) = sumCounts cs + 1 := by
  induction cs with
  | nil => simp [countSymbol, sumCounts]
  | cons c cs ih => obtain ⟨y, n⟩ := c; simp only [countSymbol]; split_ifs <;> simp [sumCounts, ih] <;> omega

theorem mem_countSymbol {x : Nat} {cs : List (Nat × Nat)} {p : Nat × Nat} (h : p ∈ countSymbol x cs) :
    p.1 = x ∨ p ∈ cs := by
  induction cs with
  | nil => simp [countSymbol] at h; simp [h]
  | cons c cs ih =>
    obtain ⟨y, n⟩ := c
    simp only [countSymbol] at h
    split_ifs at h with h1 h2
    · simp at h; rcases h with h | h | h <;> simp [h]
    · simp at h; rcases h with h | h <;> simp [h, h2]
    · simp at h
      rcases h with h | h
      · simp [h]
      · rcases ih h with h | h <;> simp [h]

/-- Counting a symbol keeps the list ascending. -/
theorem countSymbol_ascending (x : Nat) (cs : List (Nat × Nat)) (h : cs.Pairwise (fun a b => a.1 < b.1)) :
    (countSymbol x cs).Pairwise (fun a b => a.1 < b.1) := by
  induction cs with
  | nil => simp [countSymbol]
  | cons c cs ih =>
    obtain ⟨y, n⟩ := c
    simp only [countSymbol]
    have h' := List.pairwise_cons.1 h
    split_ifs with h1 h2
    · refine List.pairwise_cons.2 ⟨fun p hp => ?_, h⟩
      rcases List.mem_cons.1 hp with rfl | hp
      · exact h1
      · have := h'.1 p hp; simp at this ⊢; omega
    · exact List.pairwise_cons.2 ⟨fun p hp => h'.1 p hp, h'.2⟩
    · refine List.pairwise_cons.2 ⟨fun p hp => ?_, ih h'.2⟩
      rcases mem_countSymbol hp with h | h
      · simp [h]; omega
      · exact h'.1 p h

theorem countSymbol_pos (x : Nat) (cs : List (Nat × Nat)) (h : ∀ p ∈ cs, 1 ≤ p.2) : ∀ p ∈ countSymbol x cs, 1 ≤ p.2 := by
  induction cs with
  | nil => simp [countSymbol]
  | cons c cs ih =>
    obtain ⟨y, n⟩ := c
    simp only [countSymbol]
    simp at h
    split_ifs
    · simp; exact ⟨h.1, by simpa using h.2⟩
    · simp; simpa using h.2
    · simp; exact ⟨h.1, by simpa using ih (by simpa using h.2)⟩

/-- The count a list of (symbol, count) gives a symbol, 0 where it lists none. -/
def countIn (x : Nat) : List (Nat × Nat) → Nat
  | [] => 0
  | (y, n) :: cs => if x = y then n else countIn x cs

theorem countIn_of_mem {z k : Nat} {cs : List (Nat × Nat)} (hp : cs.Pairwise (fun a b => a.1 < b.1)) (h : (z, k) ∈ cs) :
    countIn z cs = k := by
  induction cs with
  | nil => simp at h
  | cons c cs ih =>
    obtain ⟨y, n⟩ := c
    have h1 := List.pairwise_cons.1 hp
    have h2 := h1.1 (z, k)
    simp only [countIn]
    simp at h
    grind

theorem mem_of_countIn_pos {z : Nat} {cs : List (Nat × Nat)} (h : 0 < countIn z cs) : (z, countIn z cs) ∈ cs := by
  induction cs with
  | nil => simp [countIn] at h
  | cons c cs ih => obtain ⟨y, n⟩ := c; simp only [countIn] at h ⊢; grind

theorem countIn_countSymbol (x z : Nat) (cs : List (Nat × Nat)) (h : cs.Pairwise (fun a b => a.1 < b.1)) :
    countIn z (countSymbol x cs) = countIn z cs + if z = x then 1 else 0 := by
  have absent : ∀ (w : Nat) (cs : List (Nat × Nat)), (∀ p ∈ cs, p.1 ≠ w) → countIn w cs = 0 := by
    intro w cs hne
    by_contra hc
    exact hne _ (mem_of_countIn_pos (Nat.pos_of_ne_zero hc)) rfl
  induction cs with
  | nil => simp [countSymbol, countIn]
  | cons c cs ih =>
    obtain ⟨y, n⟩ := c
    simp only [countSymbol]
    have h' := List.pairwise_cons.1 h
    have hno : ∀ w, w < y → countIn w cs = 0 :=
      fun w hw => absent w cs (fun p hp => by have := h'.1 p hp; simp at this; omega)
    have := ih h'.2
    split_ifs with h1 h2 <;> simp only [countIn] <;> grind

/-- Everything the counts of a sequence are: ascending, positive, of the sequence's length together, and the true counts. -/
theorem symbolCounts_spec (xs : List Nat) :
    (symbolCounts xs).Pairwise (fun a b => a.1 < b.1) ∧ (∀ p ∈ symbolCounts xs, 1 ≤ p.2) ∧
      sumCounts (symbolCounts xs) = xs.length ∧ ∀ z, countIn z (symbolCounts xs) = xs.count z := by
  induction xs with
  | nil => simp [symbolCounts, sumCounts, countIn]
  | cons x xs ih =>
    obtain ⟨h1, h2, h3, h4⟩ := ih
    refine ⟨countSymbol_ascending _ _ h1, countSymbol_pos _ _ h2, ?_, fun z => ?_⟩
    · rw [symbolCounts, sumCounts_countSymbol, h3]; simp
    · rw [symbolCounts, countIn_countSymbol _ _ _ h1, h4, List.count_cons]
      by_cases hz : z = x <;> grind

end Sys2Proof.Machine
end

