-- ==== Sys2Proof/Laws/RoundTrip.lean ====
section
/-! SUPPORT. Encoder and decoder in lockstep (R106, R130, R161): the number a bit sequence gives a decoder that stands where
an encoder stands (`codeAt`), how a micro-step of the encoder moves it, where `ENC_FLUSH` puts it, and that the decoder's
micro-steps compute it (`Lockstep`). -/

namespace Sys2Proof.Machine

open Sys2Proof

/-! ### Numbers read from a bit sequence -/

/-- The number the `n` bits of `S` from place `k` on write, the first bit most significant. -/
def bitsFrom (S : Nat → Bool) (k : Nat) : Nat → Nat
  | 0 => 0
  | n + 1 => 2 * bitsFrom S k n + (S (k + n)).toNat

theorem bitsFrom_add (S : Nat → Bool) (k a b : Nat) :
    bitsFrom S k (a + b) = 2 ^ b * bitsFrom S k a + bitsFrom S (k + a) b := by
  induction b with
  | zero => simp [bitsFrom]
  | succ b ih => rw [← Nat.add_assoc, bitsFrom, ih, bitsFrom, Nat.pow_succ, ← Nat.add_assoc]; ring

theorem bitsFrom_lt (S : Nat → Bool) (k n : Nat) : bitsFrom S k n < 2 ^ n := by
  induction n with
  | zero => simp [bitsFrom]
  | succ n ih =>
    have := Bool.toNat_le (S (k + n))
    rw [bitsFrom, Nat.pow_succ]; omega

theorem bitsFrom_const {S : Nat → Bool} {b : Bool} {k n : Nat} (h : ∀ i, i < n → S (k + i) = b) :
    bitsFrom S k n + b.toNat = b.toNat * 2 ^ n := by
  induction n with
  | zero => simp [bitsFrom]
  | succ n ih =>
    have := ih (fun i hi => h i (by omega))
    rw [bitsFrom, h n (by omega), Nat.pow_succ]
    cases b <;> simp_all; omega

/-- `DEC_INIT` reads the first `P` bits as a number (R150). -/
theorem fillWindow_bits (n : Nat) (s : State) :
    (fillWindow n s).code = 2 ^ n * s.code + bitsFrom (fun i => s.inp.getD i false) s.cur n := by
  induction n generalizing s with
  | zero => simp [fillWindow, bitsFrom]
  | succ n ih =>
    have h1 := bitsFrom_add (fun i => s.inp.getD i false) s.cur 1 n
    rw [Nat.add_comm 1 n] at h1
    rw [fillWindow, ih, h1]
    simp only [sourceAdvance, sourceBit, bitsFrom, Nat.pow_succ, Nat.add_zero]
    ring

/-- `l` is the beginning of `S`. -/
def Begins (l : List Bool) (S : Nat → Bool) : Prop := ∀ i, i < l.length → S i = l.getD i false

theorem Begins.of_append {l w : List Bool} {S : Nat → Bool} (h : Begins (l ++ w) S) : Begins l S := by
  intro i hi
  rw [h i (by simp; omega)]
  simp [List.getD, List.getElem?_append_left hi]

theorem Begins.tail {l w : List Bool} {S : Nat → Bool} (h : Begins (l ++ w) S) (i : Nat) (hi : i < w.length) :
    S (l.length + i) = w.getD i false := by
  rw [h _ (by simp; omega)]
  simp [List.getD, List.getElem?_append_right (Nat.le_add_right _ _)]

/-- What emitting a determined bit and its complements says of the sequence that follows. -/
theorem Begins.emitted {l : List Bool} {b : Bool} {n : Nat} {S : Nat → Bool}
    (h : Begins (l ++ b :: List.replicate n (!b)) S) :
    S l.length = b ∧ ∀ i, i < n → S (l.length + 1 + i) = !b := by
  refine ⟨by simpa using h.tail 0 (by simp), fun i hi => ?_⟩
  have := h.tail (i + 1) (by simp; omega)
  rw [Nat.add_assoc, Nat.add_comm 1 i, this]
  simp [List.getD, hi]

/-! ### The code an encoder's state stands for -/

/-- What `CODE` is in a decoder whose interval is `s`'s and whose source is `S`: the next `P + PEND` bits, less the leading
part that the `PEND` undetermined bits have already taken from the interval. -/
def codeAt (S : Nat → Bool) (s : State) : Int :=
  (bitsFrom S s.out.length (s.cfg.prec + s.pend) : Int) - (2 ^ s.pend - 1) * s.cfg.half

/-- Where that decoder's cursor stands. -/
def cursorAt (s : State) : Nat := s.out.length + s.pend + s.cfg.prec

/-- The first two groups of the bits at an encoder's place: a determined bit, `p` complements, and `n` bits more. -/
theorem bitsFrom_emitted {S : Nat → Bool} {k p n : Nat} {b : Bool} (h0 : S k = b)
    (h1 : ∀ i, i < p → S (k + 1 + i) = !b) :
    (bitsFrom S k (1 + p + n) : Int) =
      2 ^ n * (if b then 2 ^ p else 2 ^ p - 1) + bitsFrom S (k + (1 + p)) n := by
  have hc := bitsFrom_const h1
  rw [bitsFrom_add S k (1 + p) n, bitsFrom_add S k 1 p]
  have : bitsFrom S k 1 = b.toNat := by simp [bitsFrom, h0]
  rw [this]
  cases b
  · have hz : (bitsFrom S (k + 1) p : Int) = 2 ^ p - 1 := by
      have := congrArg (Nat.cast : Nat → Int) hc
      push_cast at this
      simp at this
      omega
    push_cast
    simp [hz]
  · have hz : bitsFrom S (k + 1) p = 0 := by simpa using hc
    simp [hz]

/-- A micro-step of the encoder moves the code as the decoder's does (R106): one more bit is read. -/
theorem EncStep.codeAt {s t : State} {S : Nat → Bool} (h : EncStep s t) (hP : 2 ≤ s.cfg.prec) (hS : Begins t.out S) :
    codeAt S t = 2 * (codeAt S s - offsetOf s.cfg (renormCase s)) + (S (cursorAt s)).toNat ∧
      cursorAt t = cursorAt s + 1 := by
  obtain ⟨k, hk, -, -, -, hcase, hf⟩ := h.effect
  have hcfg : t.cfg = s.cfg := by rw [hf]
  have h2 := half_eq hP
  rw [hk]
  rcases hcase with ⟨rfl, -, hp, ho, -⟩ | ⟨b, hb, hp, ho, -⟩
  · refine ⟨?_, by simp only [cursorAt, hp, ho, hcfg]; omega⟩
    have : s.cfg.prec + (s.pend + 1) = (s.cfg.prec + s.pend) + 1 := by omega
    simp only [Machine.codeAt, hp, ho, hcfg, this, bitsFrom, offsetOf, cursorAt, h2]
    have : s.out.length + (s.cfg.prec + s.pend) = s.out.length + s.pend + s.cfg.prec := by omega
    rw [this]
    push_cast
    ring
  · rw [ho] at hS
    obtain ⟨e0, e1⟩ := hS.emitted
    have hlen : t.out.length = s.out.length + (1 + s.pend) := by rw [ho]; simp; omega
    refine ⟨?_, by simp only [cursorAt, hp, hlen, hcfg]; omega⟩
    obtain ⟨m, hm⟩ : ∃ m, s.cfg.prec = m + 1 := ⟨s.cfg.prec - 1, by omega⟩
    have hhalf : s.cfg.half = 2 ^ m := by simp [Config.half, hm]
    have hsplit : s.cfg.prec + s.pend = 1 + s.pend + m := by omega
    have hcur : cursorAt s = s.out.length + (1 + s.pend) + m := by simp only [cursorAt, hm]; omega
    simp only [Machine.codeAt, hp, hlen, hcfg, Nat.add_zero, hsplit, bitsFrom_emitted e0 e1, hhalf, hcur]
    rw [hm, bitsFrom]
    rcases hb with ⟨rfl, rfl⟩ | ⟨rfl, rfl⟩
    · simp [offsetOf]; ring
    · simp [offsetOf, hhalf]; ring

/-- `ENC_FLUSH` puts the code between the quarters: in the interval (R130). -/
theorem codeAt_flush {s : State} {S : Nat → Bool} (hP : 2 ≤ s.cfg.prec) (hstop : renormCase s = .stop)
    (hS : Begins (s.out ++ (!decide (s.low < s.cfg.firstQuarter)) ::
      List.replicate (s.pend + 1) (decide (s.low < s.cfg.firstQuarter))) S) :
    (s.low : Int) ≤ codeAt S s ∧ codeAt S s ≤ s.high := by
  have h2 := half_eq hP
  have h3 := thirdQuarter_eq s.cfg
  have hs := caseOf_stop_iff.1 hstop
  obtain ⟨m, hm⟩ : ∃ m, s.cfg.prec = m + 2 := ⟨s.cfg.prec - 2, by omega⟩
  have hq : s.cfg.firstQuarter = 2 ^ m := by simp [Config.firstQuarter, hm]
  have hsplit : s.cfg.prec + s.pend = 1 + (s.pend + 1) + m := by omega
  by_cases hl : s.low < s.cfg.firstQuarter
  · simp only [hl, decide_true, Bool.not_true] at hS
    obtain ⟨e0, e1⟩ := hS.emitted (b := false)
    have hlt := bitsFrom_lt S (s.out.length + (1 + (s.pend + 1))) m
    have key : codeAt S s = 2 ^ m + bitsFrom S (s.out.length + (1 + (s.pend + 1))) m := by
      simp only [codeAt, hsplit, bitsFrom_emitted e0 e1, h2, hq]
      push_cast
      ring
    rw [key]
    have : ((2 ^ m : Nat) : Int) = 2 ^ m := by push_cast; rfl
    omega
  · simp only [hl, decide_false, Bool.not_false] at hS
    obtain ⟨e0, e1⟩ := hS.emitted (b := true)
    have hlt := bitsFrom_lt S (s.out.length + (1 + (s.pend + 1))) m
    have key : codeAt S s = 2 * 2 ^ m + bitsFrom S (s.out.length + (1 + (s.pend + 1))) m := by
      simp only [codeAt, hsplit, bitsFrom_emitted e0 e1, h2, hq]
      push_cast
      ring
    rw [key]
    have : ((2 ^ m : Nat) : Int) = 2 ^ m := by push_cast; rfl
    omega

/-- If the code is in the interval after a micro-step, it was before (R159 read backwards). -/
theorem EncStep.codeAt_back {s t : State} {S : Nat → Bool} (h : EncStep s t) (hP : 2 ≤ s.cfg.prec) (hlh : s.low ≤ s.high)
    (hS : Begins t.out S) (hl : (t.low : Int) ≤ Machine.codeAt S t) (hh : Machine.codeAt S t ≤ t.high) :
    (s.low : Int) ≤ Machine.codeAt S s ∧ Machine.codeAt S s ≤ s.high := by
  have hi := h.interval
  have hc := (h.codeAt hP hS).1
  have ho := offset_le_low (c := s.cfg) (l := s.low) (h := s.high)
  have hb := Bool.toNat_le (S (cursorAt s))
  rw [hi.low] at hl
  rw [hi.high] at hh
  simp only [renormCase] at hl hh hc
  rw [hc] at hl hh
  simp only [scale, Bool.toNat_true, Bool.toNat_false] at hl hh
  constructor <;> omega

theorem Steps.encOut {n : Nat} {s t : State} (h : Steps EncStep n s t) : ∃ w, t.out = s.out ++ w := by
  obtain ⟨⟨w, hw, -⟩, -⟩ := h.encCounts
  exact ⟨w, hw⟩

theorem Steps.codeAt_back {n : Nat} {s t : State} {S : Nat → Bool} (h : Steps EncStep n s t) (hP : 2 ≤ s.cfg.prec)
    (hlh : s.low ≤ s.high) (hS : Begins t.out S) (hl : (t.low : Int) ≤ codeAt S t) (hh : codeAt S t ≤ t.high) :
    (s.low : Int) ≤ codeAt S s ∧ codeAt S s ≤ s.high := by
  induction h with
  | refl s => exact ⟨hl, hh⟩
  | cons hst hs ih =>
    have hi := hst.interval
    obtain ⟨w, hw⟩ := hs.encOut
    rw [hw] at hS
    have := ih (by rw [hi.cfg]; exact hP) (hi.keeps hlh).1 (hw ▸ hS) hl hh
    exact hst.codeAt_back hP hlh hS.of_append this.1 this.2

/-! ### Lockstep -/

/-- A decoder that stands where an encoder stands, on the source `S`. -/
structure Lockstep (S : Nat → Bool) (e d : State) : Prop where
  cfg : d.cfg = e.cfg
  low : d.low = e.low
  high : d.high = e.high
  code : (d.code : Int) = codeAt S e
  cur : d.cur = cursorAt e
  source : ∀ i, d.inp.getD i false = S i

/-- The decoder takes the step the encoder takes, and stays in lockstep (R106). -/
theorem Lockstep.step {S : Nat → Bool} {e e' d : State} (h : Lockstep S e d) (hst : EncStep e e') (hP : 2 ≤ e.cfg.prec)
    (hlc : (e.low : Int) ≤ codeAt S e) (hS : Begins e'.out S) :
    ∃ d', DecStep d d' ∧ Lockstep S e' d' := by
  have hi := hst.interval
  obtain ⟨c1, c2⟩ := hst.codeAt hP hS
  have hcase : renormCase d = renormCase e := by simp only [renormCase, h.cfg, h.low, h.high]
  have ho := offset_le_low (c := e.cfg) (l := e.low) (h := e.high)
  have hbit : sourceBit d = S (cursorAt e) := by rw [sourceBit, h.cur, h.source]
  have build : ∀ d', DecStep d d' → Lockstep S e' d' := by
    intro d' hd
    obtain ⟨k, hk, -, l1, l2, l3, l4, hf⟩ := hd.effect
    have hk' : k = renormCase e := by rw [← hk, hcase]
    have hcfg : d'.cfg = d.cfg := by rw [hf]
    have hinp : d'.inp = d.inp := by rw [hf]
    subst hk'
    refine ⟨by rw [hcfg, h.cfg, hi.cfg], by rw [l1, h.cfg, h.low, hi.low], by rw [l2, h.cfg, h.high, hi.high], ?_,
      by rw [l4, h.cur, c2], by rw [hinp]; exact h.source⟩
    rw [l3, c1, hbit, h.cfg, scale]
    have hd : ((d.code : Nat) : Int) = codeAt S e := h.code
    simp only [renormCase] at ho ⊢
    push_cast
    rw [Nat.cast_sub (by omega), hd]
  cases hk : renormCase d with
  | e1 => exact ⟨_, .d1 hk, build _ (.d1 hk)⟩
  | e2 => exact ⟨_, .d2 hk, build _ (.d2 hk)⟩
  | e3 => exact ⟨_, .d3 hk, build _ (.d3 hk)⟩
  | stop => exact absurd (hcase ▸ hk) hi.moves

theorem Lockstep.steps {S : Nat → Bool} {n : Nat} {e e' d : State} (h : Lockstep S e d) (hst : Steps EncStep n e e')
    (hP : 2 ≤ e.cfg.prec) (hlh : e.low ≤ e.high) (hS : Begins e'.out S)
    (hl : (e'.low : Int) ≤ codeAt S e') (hh : codeAt S e' ≤ e'.high) :
    ∃ d', Steps DecStep n d d' ∧ Lockstep S e' d' := by
  induction hst generalizing d with
  | refl e => exact ⟨d, .refl d, h⟩
  | cons hst hs ih =>
    have hi := hst.interval
    obtain ⟨w, hw⟩ := hs.encOut
    have hS' := hS
    rw [hw] at hS'
    have hP' : 2 ≤ _ := hi.cfg ▸ hP
    have hlh' := (hi.keeps hlh).1
    have hb := hs.codeAt_back (by rw [hi.cfg]; exact hP) hlh' hS hl hh
    have hb' := hst.codeAt_back hP hlh hS'.of_append hb.1 hb.2
    obtain ⟨d₁, s1, l1⟩ := h.step hst hP hb'.1 hS'.of_append
    obtain ⟨d', s2, l2⟩ := ih l1 (by rw [hi.cfg]; exact hP) hlh' hS hl hh
    exact ⟨d', .cons s1 s2, l2⟩

/-- Under `EXACT` a decoder whose code lies in the part of the interval that NARROW gives an entry of a well-formed table
finds that entry (R151). -/
theorem ModelTable.WF.byTarget_of_code {m : ModelTable} (hw : m.WF) {d : State} {a : Entry} (ha : a ∈ m.entries)
    (hex : d.cfg.targetRule = .exact) (hm : d.model = m) (ht : d.total = m.total) (hlh : d.low ≤ d.high)
    (h1 : narrowLow d.low d.high m.total a.cl ≤ d.code) (h2 : d.code < narrowEnd d.low d.high m.total a.ch) :
    d.model.byTarget (targetNow d) = some a := by
  have h0 := hw.2.2.2.2.2
  have hlc : d.low ≤ d.code := by
    have := narrowLow_ge (l := d.low) (h := d.high) (t := m.total) (cl := a.cl); omega
  have t1 : (a.cl : Int) ≤ targetNow d := by
    simp only [targetNow, hex, targetOf, ht]; rw [targetExact_le_iff hlh hlc h0]; exact h1
  have t2 : targetNow d < a.ch := by
    simp only [targetNow, hex, targetOf, ht]; rw [targetExact_lt_iff hlh hlc h0]; exact h2
  have hb := tiles_bounds hw.2.1 hw.2.2.1
  have ha3 := (hb.2 a ha).2.2
  obtain ⟨x, hx⟩ := hw.byTarget_total (t := targetNow d) (by omega) (by omega)
  rw [hm, hx]
  obtain ⟨xm, x1, x2⟩ := byTarget_some hx
  obtain ⟨t, htt⟩ := Int.eq_ofNat_of_zero_le (show 0 ≤ targetNow d by omega)
  obtain ⟨y, ym, y1, y2, y3⟩ :=
    tiles_image_cover (f := id) (fun h => h) hw.2.1 hw.2.2.1 t (Nat.zero_le _) (by simp only [id]; omega)
  simp only [id] at y1 y2 y3
  rw [y3 x xm (by omega) (by omega), y3 a ha (by omega) (by omega)]

end Sys2Proof.Machine
end

