-- ==== Sys2Proof/Tests/Slice0.lean ====
section
/-! SUPPORT. The model's own tests: the WellFormed smoke, words written out from R81's table, single steps from
95_test_vectors.md (each test names its vector), and for every statement that has hypotheses a witness that meets them. -/

namespace Sys2Proof.Tests

open Sys2Proof Sys2Proof.Machine

/-! ### Small states -/

/-- The answer is a next state with the property. -/
def answers (r : Result) (p : State → Bool) : Bool :=
  match r with
  | .next t => p t
  | .fault _ => false
  | .refused _ => false

theorem answers_elim {r : Result} {p : State → Bool} (h : answers r p = true) : ∃ t, r = .next t ∧ p t = true := by
  cases r <;> simp_all [answers]

/-- The table of the vectors: `{97:[0,1), 98:[1,2), 256:[2,3)}`. -/
def table : ModelTable :=
  { entries := [{ symbol := 97, frequency := 1, cl := 0, ch := 1 }, { symbol := 98, frequency := 1, cl := 1, ch := 2 },
      { symbol := 256, frequency := 1, cl := 2, ch := 3 }]
    total := 3, sentinel := 256 }

/-- A table with a gap (V60). -/
def gapTable : ModelTable :=
  { entries := [{ symbol := 97, frequency := 1, cl := 0, ch := 1 }, { symbol := 256, frequency := 1, cl := 2, ch := 3 }]
    total := 3, sentinel := 256 }

/-- A table of two symbols with the total `t`, the sentinel's range being the last point (V56, V57). -/
def wideTable (t : Nat) : ModelTable :=
  { entries := [{ symbol := 97, frequency := t - 1, cl := 0, ch := t - 1 }, { symbol := 256, frequency := 1, cl := t - 1, ch := t }]
    total := t, sentinel := 256 }

def idle : State := { State.reset with model := table }

/-- An encoder between two commands. -/
def enc (ph : Phase) (low high pend : Nat) (out : List Bool) : State :=
  { idle with
    ph := ph, held := some .encoder, low := low, high := high, pend := pend, out := out, outlen := out.length
    total := 3, sent := 256 }

/-- A decoder between two commands, on the source `01101`. -/
def dec (ph : Phase) (low high code cur : Nat) (symout : List Nat) : State :=
  { idle with
    ph := ph, held := some .decoder, low := low, high := high, code := code, cur := cur, symout := symout
    symlen := symout.length, total := 3, sent := 256, inp := [false, true, true, false, true] }

def faulted : State := { idle with ph := .fault, err := some .unknownSymbolError }

/-- The state with `n` as the bound of its pending-bit counter. -/
def bounded (n : Nat) (s : State) : State := { s with cfg := { s.cfg with pendMax := some n } }

/-- The engine of V59: `P = 5`, `TRUNC`. -/
def truncConfig : Config := { prec := 5, symBits := 9, pendMax := none, targetRule := .trunc }

/-- The table of P4: `{97:[0,2), 98:[2,4), 256:[4,5)}`. -/
def tableP4 : ModelTable :=
  { entries := [{ symbol := 97, frequency := 2, cl := 0, ch := 2 }, { symbol := 98, frequency := 2, cl := 2, ch := 4 },
      { symbol := 256, frequency := 1, cl := 4, ch := 5 }]
    total := 5, sentinel := 256 }

/-- The decoder of V59. -/
def decP4 (low high code : Nat) : State :=
  { dec .dec low high code 7 [98, 97] with cfg := truncConfig, model := tableP4, total := 5 }

/-- The encoder of V66b: the table gives 97 the first third, as P6's does. -/
def nearlyFull : State := bounded 2 (enc .enc 104 203 1 [])

/-! ### WellFormed and table checks refuse ill-formed terms -/

theorem smoke_symbol_too_wide : (Instr.encSym 512).wf 9 = false := by decide
theorem smoke_symbol_beyond_field : (Instr.encSym (2 ^ 24)).wf 30 = false := by decide
theorem smoke_prec : ({ Config.vectors with prec := 1 } : Config).wf = false := by decide
theorem smoke_symBits_zero : ({ Config.vectors with symBits := 0 } : Config).wf = false := by decide
theorem smoke_symBits_large : ({ Config.vectors with symBits := 25 } : Config).wf = false := by decide
theorem smoke_config : Config.vectors.wf = true := by decide
theorem smoke_table_empty : ¬ ({ entries := [], total := 0, sentinel := 256 } : ModelTable).WF := by decide
theorem smoke_table_gap : ¬ gapTable.WF := by decide
theorem smoke_table_total : ¬ ({ table with total := 4 } : ModelTable).WF := by decide
theorem smoke_table_sentinel : ¬ ({ table with sentinel := 99 } : ModelTable).WF := by decide
theorem smoke_table_order : ¬ ({ table with entries := table.entries.reverse } : ModelTable).WF := by decide
theorem smoke_table_frequency :
    ¬ ({ entries := [{ symbol := 256, frequency := 2, cl := 0, ch := 1 }], total := 1, sentinel := 256 } : ModelTable).WF := by
  decide
theorem smoke_table_zero_frequency :
    ¬ ({ entries := [{ symbol := 97, frequency := 0, cl := 0, ch := 0 }, { symbol := 256, frequency := 1, cl := 0, ch := 1 }]
         total := 1, sentinel := 256 } : ModelTable).WF := by decide
theorem smoke_table_fits : ¬ table.Fits 8 := by decide
theorem smoke_table_ok : table.WF ∧ table.Fits 9 := by decide

/-! ### Words written out from R81's table: `OP` in bits 31:24, `ARG` in bits 23:0 -/

theorem test_decode_nop : decode 9 0b00000000_000000000000000000000000#32 = .ok .nop := by decide
theorem test_decode_reset : decode 9 0b00000001_000000000000000000000000#32 = .ok .reset := by decide
theorem test_decode_encInit : decode 9 0b00010000_000000000000000000000000#32 = .ok .encInit := by decide
theorem test_decode_encSym : decode 9 0b00010001_000000000000000001100010#32 = .ok (.encSym 98) := by decide
theorem test_decode_encSym_max : decode 24 0b00010001_111111111111111111111111#32 = .ok (.encSym 16777215) := by decide
theorem test_decode_encFlush : decode 9 0b00010010_000000000000000000000000#32 = .ok .encFlush := by decide
theorem test_decode_decInit : decode 9 0b00100000_000000000000000000000000#32 = .ok .decInit := by decide
theorem test_decode_decSym : decode 9 0b00100001_000000000000000000000000#32 = .ok .decSym := by decide
theorem test_decode_reserved : decode 9 0b00000010_000000000000000000000000#32 = .error .reservedOpcode := by decide
theorem test_decode_nonzero_arg : decode 9 0b00010000_000000000000000000000001#32 = .error .nonzeroArg := by decide
theorem test_decode_wide_symbol : decode 9 0b00010001_000000000000001000000000#32 = .error .symbolTooWide := by decide
theorem test_table_word : decodeTableWord 32 0x11000061 = some (.encSym 97) ∧ decodeTableWord 32 0x02000000 = none := by
  decide
theorem test_fetch_word : answers (step (State.reset.withFetchWord 32 0x12000000)) (fun t => t.err = some .illegalCommand) = true := by
  decide

/-! ### Single steps from the vectors -/

/-- V51. -/
theorem test_nop : answers (exec .nop (enc .enc 42 211 2 [])) (fun t => t = enc .enc 42 211 2 []) = true := by decide
/-- V52. -/
theorem test_reset : answers (exec .reset faulted) (fun t => statusWord t = 0x00#32 && encoderResult t == none) = true := by
  decide
/-- V37. -/
theorem test_encInit : answers (exec .encInit idle) (fun t =>
    statusWord t = 0x01#32 && t.low == 0 && t.high == 255 && t.pend == 0 && t.total == 3 && t.sent == 256 &&
      t.out == [] && t.outlen == 0) = true := by decide
/-- V56. -/
theorem test_encInit_precision :
    answers (exec .encInit { idle with model := wideTable 64 }) (fun t => statusWord t = 0x27#32) = true := by decide
/-- V38. -/
theorem test_encSym : answers (exec (.encSym 98) (enc .enc 0 255 0 [])) (fun t =>
    t.low == 42 && t.high == 211 && t.pend == 1 && t.out == [] && statusWord t = 0x81#32) = true := by decide
/-- V40: the sentinel. -/
theorem test_encSym_sentinel : answers (exec (.encSym 256) (enc .enc 84 195 0 [false, true])) (fun t =>
    t.low == 60 && t.high == 135 && t.out == [false, true, true] && t.outlen == 3 && statusWord t = 0x02#32) = true := by
  decide
/-- V43. -/
theorem test_encFlush : answers (exec .encFlush (enc .encEos 8 223 1 [false, true])) (fun t =>
    t.out == [false, true, false, true, true] && t.outlen == 5 && t.pend == 0 && statusWord t = 0x03#32) = true := by decide
/-- V44. -/
theorem test_encFlush_upper : answers (exec .encFlush (enc .encEos 70 200 2 [])) (fun t =>
    t.out == [true, false, false, false] && t.low == 70 && t.high == 200) = true := by decide
/-- V45. -/
theorem test_decInit : answers (exec .decInit { idle with inp := [false, true, true, false, true] }) (fun t =>
    t.code == 104 && t.cur == 8 && t.low == 0 && t.high == 255 && t.symlen == 0 && statusWord t = 0x04#32) = true := by decide
/-- V47: only the first `P` bits. -/
theorem test_decInit_long : answers (exec .decInit
    { idle with inp := [true, false, false, false, true, true, false, false, false, false, false, true] })
    (fun t => t.code == 140 && t.cur == 8) = true := by decide
/-- V48. -/
theorem test_decSym : answers (exec .decSym (dec .dec 0 255 104 8 [])) (fun t =>
    t.symout == [98] && t.low == 42 && t.high == 211 && t.code == 80 && t.cur == 9 && t.symlen == 1 &&
      statusWord t = 0x04#32) = true := by decide
/-- V59. -/
theorem test_decSym_trunc : answers (exec .decSym (decP4 0 19 22)) (fun t => statusWord t = 0x1F#32 && t.cur == 7) = true := by
  decide
/-- V30: the two target rules differ. -/
theorem test_targets : targetOf .exact 12 24 17 5 = 2 ∧ targetOf .trunc 12 24 17 5 = 1 := by decide
/-- V21: the longest loop. -/
theorem test_renorm_longest : (match renormEnc 8 (enc .enc 63 63 0 []) with
    | .done t => t.out == [false, false, true, true, true, true, true, true] && t.low == 0 && t.high == 255
    | .overflow => false
    | .endless => false) = true := by decide
/-- V68. -/
theorem test_pack : packBits [true, false, false, false, true, true, false, false, false, false, false, true] = [0x8C#8, 0x10#8] := by
  decide
/-- R86: lines of a command stream. -/
theorem test_assemble : assembleLine "ENC_SYM 0x62 ; b".toList = .command (.encSym 98) ∧
    assembleLine "ENC_SYM 98".toList = .command (.encSym 98) ∧ assembleLine "ENC_SYM".toList = .illegal ∧
    assembleLine "; text".toList = .blank := by decide
/-- R80, R86, log entry 16: the largest symbol `ARG` holds, and one more. -/
theorem test_assemble_widest : assembleLine "ENC_SYM 0xffffff".toList = .command (.encSym 16777215) ∧
    assembleLine "ENC_SYM 16777216".toList = .illegal := by decide
/-- V66, R87: `ENCODE 512` with `SYM_BITS = 9`, though the table has 512; nothing after the fault is issued. -/
theorem test_encode_wide : answers (runCommands (encodeCommands [512] 256)
    { idle with model := { entries := [{ symbol := 256, frequency := 1, cl := 0, ch := 1 },
        { symbol := 512, frequency := 1, cl := 1, ch := 2 }], total := 2, sentinel := 256 } })
    (fun t => t.err = some .illegalCommand && t.out == [] && t.low == 0 && t.high == 255) = true := by decide

/-! ### Witnesses: the hypotheses of each statement can be met -/

theorem inv_idle : Inv idle := by constructor <;> simp [idle, State.reset, State.resetWith, Phase.session]
theorem table_idle : TableInv idle := by constructor <;> simp [idle, State.reset, State.resetWith, Phase.inSession]

/-- V38's state is in an encoder session. -/
theorem inv_enc : Inv (enc .enc 42 211 1 []) := by
  refine ⟨?_, ?_, ?_, ?_, ?_, fun _ => by decide, ?_, ?_, ?_, ?_, ?_, ?_⟩ <;>
    simp [enc, idle, State.reset, State.resetWith, Phase.session, Config.vectors, Config.firstQuarter]

/-- V40's. -/
theorem inv_encEos : Inv (enc .encEos 60 135 0 [false, true, true]) := by
  refine ⟨?_, ?_, ?_, ?_, ?_, fun _ => by decide, ?_, ?_, ?_, ?_, ?_, ?_⟩ <;>
    simp [enc, idle, State.reset, State.resetWith, Phase.session, Config.vectors, Config.firstQuarter]

/-- V41's. -/
theorem inv_encDone : Inv (enc .encDone 60 135 0 [false, true, true, false, true]) := by
  refine ⟨?_, ?_, ?_, ?_, ?_, fun _ => by decide, ?_, ?_, ?_, ?_, ?_, ?_⟩ <;>
    simp [enc, idle, State.reset, State.resetWith, Phase.session, Config.vectors, Config.firstQuarter]

/-- V48's. -/
theorem inv_dec : Inv (dec .dec 42 211 80 9 [98]) := by
  refine ⟨?_, ?_, ?_, ?_, ?_, fun _ => by decide, ?_, ?_, ?_, ?_, ?_, ?_⟩ <;>
    simp [dec, idle, State.reset, State.resetWith, Phase.session, Config.vectors, Config.firstQuarter]

/-- V49's. -/
theorem inv_decDone : Inv (dec .decDone 84 195 160 10 [98, 97]) := by
  refine ⟨?_, ?_, ?_, ?_, ?_, fun _ => by decide, ?_, ?_, ?_, ?_, ?_, ?_⟩ <;>
    simp [dec, idle, State.reset, State.resetWith, Phase.session, Config.vectors, Config.firstQuarter]

/-- V58: the fault is raised inside an encoder session, and the registers keep what they held. -/
theorem inv_fault_enc : Inv (raise .unknownSymbolError (enc .enc 42 211 1 [])) := by
  refine ⟨?_, ?_, ?_, ?_, ?_, fun _ => by decide, ?_, ?_, ?_, ?_, ?_, ?_⟩ <;>
    simp [raise, enc, idle, State.reset, State.resetWith, Config.vectors, Config.firstQuarter]

/-- V60's kind, inside a decoder session. -/
theorem inv_fault_dec : Inv (raise .decodeRangeError (dec .dec 42 211 80 9 [98])) := by
  refine ⟨?_, ?_, ?_, ?_, ?_, fun _ => by decide, ?_, ?_, ?_, ?_, ?_, ?_⟩ <;>
    simp [raise, dec, idle, State.reset, State.resetWith, Config.vectors, Config.firstQuarter]

theorem inv_fault : Inv faulted := by constructor <;> simp [faulted, idle, State.reset, State.resetWith]

theorem table_enc : TableInv (enc .enc 42 211 1 []) := by
  refine ⟨fun _ _ => by decide, fun _ _ => by decide, fun _ _ => by decide, fun _ h => ?_, fun _ h => ?_⟩ <;>
    exact absurd h (by decide)

theorem table_dec : TableInv (dec .dec 42 211 80 9 [98]) :=
  ⟨fun _ _ => by decide, fun _ _ => by decide, fun _ _ => by decide, fun _ _ _ => by decide, fun _ _ _ => by decide⟩

theorem witness_DecodeInvertsEncode : (Instr.encSym 511).wf 9 = true ∧ (Instr.encSym 0).wf 1 = true := by decide

theorem witness_StepRunsDecodedCommand :
    (idle.withFetchWord 32 0x110001FF).inbox = .command 0x110001FF#32 :: [] ∧
      decode idle.cfg.symBits 0x110001FF#32 = .ok (.encSym 511) := by decide

/-- A reserved `OP`, a non-zero `ARG`, a symbol of `2^SYM_BITS`, and a command its phase does not accept. -/
theorem witness_IllegalWordsRaise :
    (IllegalEncoding 9 0x02000000#32 ∧ IllegalEncoding 9 0x10000001#32 ∧ IllegalEncoding 9 0x11000200#32) ∧
      (decode 9 0x12000000#32 = .ok .encFlush ∧ idle.ph ∉ listedPhases .encFlush ∧ idle.ph ≠ .fault) ∧
      (faulted.ph = .fault ∧ 0x01000001#32 ≠ (0x01000000#32 : Word)) := by
  unfold IllegalEncoding; decide

/-- Every command completes somewhere, `DEC_SYM` in both ways; the phases are the second clause's. -/
theorem witness_PhaseTable :
    answers (exec .nop idle) (fun t => t.ph = .idle) = true ∧
      answers (exec .reset idle) (fun t => t.ph = .idle) = true ∧
      answers (exec .encInit idle) (fun t => t.ph = .enc) = true ∧
      answers (exec (.encSym 98) (enc .enc 0 255 0 [])) (fun t => t.ph = .enc) = true ∧
      answers (exec (.encSym 256) (enc .enc 0 255 0 [])) (fun t => t.ph = .encEos) = true ∧
      answers (exec .encFlush (enc .encEos 60 135 0 [])) (fun t => t.ph = .encDone) = true ∧
      answers (exec .decInit idle) (fun t => t.ph = .dec) = true ∧
      answers (exec .decSym (dec .dec 0 255 104 8 [])) (fun t => t.ph = .dec) = true ∧
      answers (exec .decSym (dec .dec 84 195 160 10 [])) (fun t => t.ph = .decDone) = true := by decide

/-- The widest word of `ENC_SYM` among them, an illegal encoding here. -/
theorem witness_QueueRunsAsIssued :
    (∀ i ∈ [Instr.encInit, .encSym 98, .encSym 16777215, .nop], i.hasWord = true ∧ i ≠ .reset) ∧
      ({ idle with inbox :=
          [.command 0x10000000#32, .command 0x11000062#32, .command 0x11FFFFFF#32, .command 0#32] } : State).inbox =
        [Instr.encInit, .encSym 98, .encSym 16777215, .nop].map (fun i => HostAction.command (encode i)) := by decide

theorem witness_NopChangesNothing :
    (0x00000000#32 : Word).toNat / 2 ^ 24 = 0x00 ∧ (0x00000000#32 : Word).toNat % 2 ^ 24 = 0 ∧
      (0x00000001#32 : Word).toNat / 2 ^ 24 = 0x00 ∧ (0x00000001#32 : Word).toNat % 2 ^ 24 ≠ 0 ∧ idle.ph ≠ .fault := by decide

theorem witness_ResetReturnsToIdle :
    (0x01000001#32 : Word).toNat / 2 ^ 24 = 0x01 ∧ (0x01000001#32 : Word).toNat % 2 ^ 24 ≠ 0 ∧ idle.ph ≠ .fault ∧
      faulted.ph = .fault ∧
      (answers (exec .encInit faulted) (fun t => t.ph = .fault) = true ∧
        answers (exec .nop idle) (fun t => t.ph = .idle) = true) := by decide

theorem witness_ResetEventAndPowerOn :
    ({ faulted with inbox := [.resetLine] } : State).inbox = .resetLine :: [] := rfl

/-- One state with the invariant for each clause. -/
theorem witness_RegisterPortAndResults :
    (Inv (enc .enc 42 211 1 []) ∧ Inv (enc .encEos 60 135 0 [false, true, true]) ∧
      Inv (enc .encDone 60 135 0 [false, true, true, false, true])) ∧
      (Inv (dec .dec 42 211 80 9 [98]) ∧ Inv (dec .decDone 84 195 160 10 [98, 97])) ∧ (Inv idle ∧ idle.ph = .idle) ∧
      (Inv faulted ∧ faulted.ph = .fault ∧ faulted.held = none) ∧
      (Inv (raise .unknownSymbolError (enc .enc 42 211 1 [])) ∧
        (raise .unknownSymbolError (enc .enc 42 211 1 [])).held = some .encoder) ∧
      (Inv (raise .decodeRangeError (dec .dec 42 211 80 9 [98])) ∧
        (raise .decodeRangeError (dec .dec 42 211 80 9 [98])).held = some .decoder) :=
  ⟨⟨inv_enc, inv_encEos, inv_encDone⟩, ⟨inv_dec, inv_decDone⟩, ⟨inv_idle, rfl⟩, ⟨inv_fault, rfl, rfl⟩, ⟨inv_fault_enc, rfl⟩,
    inv_fault_dec, rfl⟩

theorem witness_StatusWordFields : (dec .dec 42 211 80 9 [98]).ph = .dec ∧ (dec .decDone 84 195 160 10 []).ph = .decDone :=
  ⟨rfl, rfl⟩

/-- V58. -/
theorem witness_FaultsArePrecise :
    (enc .enc 42 211 1 []).ph ≠ .fault ∧
      answers (exec (.encSym 99) (enc .enc 42 211 1 [])) (fun t => statusWord t = 0x17#32 && t.ph == .fault) = true := by
  decide

theorem witness_FaultIsSticky :
    faulted.ph = .fault ∧ (∀ w ∈ [0x10000000#32, 0xFF000000#32, 0x01000001#32], w ≠ (0x01000000#32 : Word)) :=
  ⟨rfl, by simp⟩

/-- Each kind of fault, raised by a command that can raise it (V55, V56, V58, V60 to V63, V66b, V66c). -/
theorem witness_FaultKindsPerCommand :
    answers (exec .encInit State.reset) (fun t => t.err = some .emptyModelError) = true ∧
      answers (exec .decInit { idle with model := wideTable 64 }) (fun t => t.err = some .precisionOverflowError) = true ∧
      answers (exec .encInit (enc .enc 0 255 0 [])) (fun t => t.err = some .illegalCommand) = true ∧
      answers (exec (.encSym 99) (enc .enc 0 255 0 [])) (fun t => t.err = some .unknownSymbolError) = true ∧
      answers (exec (.encSym 97) nearlyFull) (fun t => t.err = some .pendingOverflow) = true ∧
      answers (exec .encFlush (bounded 1 (enc .encEos 60 135 1 []))) (fun t => t.err = some .pendingOverflow) = true ∧
      answers (exec .decSym { dec .dec 0 255 96 8 [] with model := gapTable })
        (fun t => t.err = some .decodeRangeError) = true := by decide

/-- Totals 0 and `2^(P-2)`, at `P = 8`. -/
theorem witness_InitChecksTotal :
    (State.reset.ph = .idle ∧ State.reset.model.total = 0) ∧
      (idle.ph = .idle ∧ 2 ≤ idle.cfg.prec ∧ 2 ^ (idle.cfg.prec - 2) ≤ (wideTable 64).total) := by decide

theorem witness_FailedLookupsRaise :
    ((enc .enc 0 255 0 []).ph = .enc ∧ ∀ e ∈ table.entries, e.symbol ≠ 99) ∧
      (let s : State := { dec .dec 0 255 96 8 [] with model := gapTable }
       s.ph = .dec ∧ s.low ≤ s.high ∧ 0 < s.total ∧
         ∀ e ∈ s.model.entries, ¬ ((e.cl : Int) ≤ targetNow s ∧ targetNow s < e.ch)) := by decide

/-- V66c; V66b: after NARROW and one E3 step the counter is full; and a fault of another kind with an unbounded counter. -/
theorem witness_PendingOverflowRaises :
    ((bounded 1 (enc .encEos 60 135 1 [])).ph = .encEos ∧ (bounded 1 (enc .encEos 60 135 1 [])).cfg.pendMax = some 1) ∧
      (nearlyFull.model.bySymbol 97 = some { symbol := 97, frequency := 1, cl := 0, ch := 1 } ∧
        ∃ s₁ u, narrow { symbol := 97, frequency := 1, cl := 0, ch := 1 } nearlyFull = some s₁ ∧ s₁.low ≤ s₁.cfg.top ∧
          Steps EncStep 1 s₁ u ∧ renormCase u = .e3 ∧ u.cfg.pendMax = some u.pend) ∧
      ((enc .enc 0 255 0 []).cfg.pendMax = none ∧
        answers (exec (.encSym 99) (enc .enc 0 255 0 [])) (fun t => t.ph = .fault) = true) := by
  refine ⟨by decide, ⟨by decide, ?_⟩, by decide⟩
  exact ⟨_, _, rfl, by decide, .cons (.e3 (by decide) (by decide)) (.refl _), by decide, by decide⟩

theorem witness_CommandsLeaveHostSpaces : answers (exec .decSym (dec .dec 0 255 104 8 [])) (fun _ => true) = true := by decide

theorem witness_HostWritesBetweenSessions :
    ({ enc .enc 0 255 0 [] with inbox := [.loadModel table] } : State).inbox = .loadModel table :: [] ∧
      ({ idle with inbox := [.loadSource [true]] } : State).inbox = .loadSource [true] :: [] := by decide

theorem witness_SequencesOnlyGrow :
    answers (exec .encFlush (enc .encEos 60 135 1 [true])) (fun _ => true) = true ∧
      answers (exec .decSym (dec .dec 0 255 104 8 [97])) (fun _ => true) = true := by decide

theorem witness_LookupBySymbol :
    table.bySymbol 256 = some { symbol := 256, frequency := 1, cl := 2, ch := 3 } ∧ table.bySymbol 99 = none ∧ table.WF := by
  decide

/-- The targets at the ends: 0, `total - 1`, -1 and `total`. -/
theorem witness_LookupByTarget :
    table.byTarget 0 = some { symbol := 97, frequency := 1, cl := 0, ch := 1 } ∧
      table.byTarget 2 = some { symbol := 256, frequency := 1, cl := 2, ch := 3 } ∧ table.byTarget (-1) = none ∧
      table.byTarget 3 = none ∧ table.WF := by decide

theorem witness_WellFormedRangesPartition : table.WF ∧ 0 < table.total ∧ 2 < table.total := by decide

theorem witness_BuilderMakesWellFormedTable : 97 ∈ 256 :: [98, 97] ∧ 99 ∉ 256 :: [98, 97] := by decide

theorem witness_PackingOrder :
    (packBits [false, true])[0 / 8]? = some 0x40#8 ∧ (packBits [false, true])[7 / 8]? = some 0x40#8 := by decide

/-- The smallest interval the statement admits, and the widest. -/
theorem witness_NarrowTilesTheInterval :
    (table.WF ∧ (enc .enc 0 2 0 []).total = table.total ∧ table.total ≤ 2 - 0 + 1 ∧ table.total ≤ 255 - 0 + 1) ∧
      (table.entries = [] ++ { symbol := 97, frequency := 1, cl := 0, ch := 1 } ::
          { symbol := 98, frequency := 1, cl := 1, ch := 2 } :: [{ symbol := 256, frequency := 1, cl := 2, ch := 3 }] ∧
        narrow { symbol := 97, frequency := 1, cl := 0, ch := 1 } (enc .enc 0 255 0 []) = some (enc .enc 0 84 0 []) ∧
        narrow { symbol := 98, frequency := 1, cl := 1, ch := 2 } (enc .enc 0 255 0 []) = some (enc .enc 85 169 0 []) ∧
        narrow { symbol := 256, frequency := 1, cl := 2, ch := 3 } (enc .enc 0 255 0 []) = some (enc .enc 170 255 0 [])) := by
  decide

/-- V7 to V18: a value of each case at its boundary. -/
theorem witness_CaseSelection :
    2 ≤ Config.vectors.prec ∧ caseOf Config.vectors 0 127 = .e1 ∧ caseOf Config.vectors 128 255 = .e2 ∧
      caseOf Config.vectors 64 191 = .e3 ∧ caseOf Config.vectors 127 128 = .e3 ∧ caseOf Config.vectors 63 191 = .stop ∧
      caseOf Config.vectors 64 192 = .stop ∧ caseOf Config.vectors 63 128 = .stop := by decide

/-- One code point below the quarter, and the last one; a step of each loop. -/
theorem witness_RenormalizationEnds :
    (2 ≤ (enc .enc 63 63 0 []).cfg.prec ∧ (enc .enc 63 63 0 []).low ≤ (enc .enc 63 63 0 []).high ∧
      (enc .enc 63 63 0 []).high ≤ (enc .enc 63 63 0 []).cfg.top ∧ (enc .enc 63 63 0 []).cfg.pendMax = none ∧
      Steps EncStep 1 (enc .enc 63 63 0 []) (encE1 (enc .enc 63 63 0 []))) ∧
      (2 ≤ (dec .dec 255 255 255 8 []).cfg.prec ∧ (dec .dec 255 255 255 8 []).low ≤ (dec .dec 255 255 255 8 []).high ∧
        (dec .dec 255 255 255 8 []).high ≤ (dec .dec 255 255 255 8 []).cfg.top ∧
        Steps DecStep 1 (dec .dec 255 255 255 8 []) (decD2 (dec .dec 255 255 255 8 []))) :=
  ⟨⟨by decide, by decide, by decide, by decide, .cons (.e1 (by decide)) (.refl _)⟩,
    ⟨by decide, by decide, by decide, .cons (.d2 (by decide)) (.refl _)⟩⟩

theorem witness_LoopsFollowMicroSteps : 2 ≤ idle.cfg.prec := by decide

/-- A table with an empty range, and an interval smaller than the total: both loops are endless there. -/
theorem witness_EndlessMeansEndless :
    2 ≤ idle.cfg.prec ∧
      (exec (.encSym 97)
        { enc .enc 0 255 0 [] with
          model := { entries := [{ symbol := 97, frequency := 0, cl := 1, ch := 1 }], total := 3, sentinel := 256 } } =
        .fault .endlessRenormalization) ∧
      exec .decSym
        { dec .dec 0 1 0 8 [] with cfg := { Config.vectors with targetRule := .trunc } } = .fault .endlessRenormalization :=
  ⟨by decide, rfl, rfl⟩

theorem witness_OverlapIsHarmless :
    (64 ≤ (enc .enc 64 127 0 []).low ∧ (enc .enc 64 127 0 []).high < 2 * 64) ∧
      (2 * 64 ≤ (enc .enc 128 191 0 []).low ∧ (enc .enc 128 191 0 []).high < 3 * 64) := by decide

/-- V37, V45 and the symbol 98. -/
theorem witness_DecoderMirrorsEncoder :
    (enc .enc 0 255 0 []).cfg.prec = (dec .dec 0 255 104 8 []).cfg.prec ∧ table.WF ∧
      (enc .enc 0 255 0 []).low = (dec .dec 0 255 104 8 []).low ∧ (enc .enc 0 255 0 []).high = (dec .dec 0 255 104 8 []).high ∧
      (enc .enc 0 255 0 []).total = (dec .dec 0 255 104 8 []).total ∧
      answers (exec (.encSym 98) (enc .enc 0 255 0 [])) (fun t => t.ph ≠ .fault) = true ∧
      answers (exec .decSym (dec .dec 0 255 104 8 [])) (fun t => t.symout = [] ++ [98]) = true := by decide

/-- A phase of each kind; totals 0, 64, 1 and 63 at `P = 8`. -/
theorem witness_EncInitStartsSession :
    ((enc .enc 0 255 0 []).ph ≠ .fault ∧ 2 ≤ (enc .enc 0 255 0 []).cfg.prec ∧
      (enc .enc 0 255 0 []).ph ∉ [Phase.idle, .encDone, .decDone]) ∧
      (idle.ph ≠ .fault ∧ 2 ≤ idle.cfg.prec ∧ idle.ph ∈ [Phase.idle, .encDone, .decDone] ∧ (wideTable 0).total = 0 ∧
        2 ^ (idle.cfg.prec - 2) ≤ (wideTable 64).total ∧ 0 < (wideTable 1).total ∧
        (wideTable 63).total < 2 ^ (idle.cfg.prec - 2)) := by decide

/-- V27 to V29 and the ends of the three ranges. -/
theorem witness_EncoderMicroSteps :
    (enc .enc 42 97 1 []).low ≤ (enc .enc 42 97 1 []).high ∧ (enc .enc 0 127 1 []).high < 2 * 2 ^ (8 - 2) ∧
      2 * 2 ^ (8 - 2) ≤ (enc .enc 128 163 3 []).low ∧
      (2 ^ (8 - 2) ≤ (enc .enc 64 191 1 []).low ∧ (enc .enc 64 191 1 []).low < 2 * 2 ^ (8 - 2) ∧
        2 * 2 ^ (8 - 2) ≤ (enc .enc 64 191 1 []).high ∧ (enc .enc 64 191 1 []).high < 3 * 2 ^ (8 - 2)) ∧
      (bounded 1 (enc .enc 64 191 1 [])).cfg.pendMax = some (bounded 1 (enc .enc 64 191 1 [])).pend := by decide

/-- V58 and V38, and a phase that refuses the command. -/
theorem witness_EncSymNarrowsThenRenormalizes :
    ((enc .encEos 60 135 0 []).ph ≠ .fault ∧ 2 ≤ (enc .encEos 60 135 0 []).cfg.prec ∧ (enc .encEos 60 135 0 []).ph ≠ .enc) ∧
      table.bySymbol 99 = none ∧ (enc .enc 0 255 0 []).low ≤ (enc .enc 0 255 0 []).high ∧ 0 < (enc .enc 0 255 0 []).total ∧
      (enc .enc 0 255 0 []).ph = .enc ∧ table.bySymbol 98 = some { symbol := 98, frequency := 1, cl := 1, ch := 2 } ∧
      0 + (255 - 0 + 1) * 1 / 3 < 0 + (255 - 0 + 1) * 2 / 3 ∧ 0 + (255 - 0 + 1) * 1 / 3 ≤ idle.cfg.top := by decide

theorem witness_EncSymCompletes :
    Inv (enc .enc 42 211 1 []) ∧ TableInv (enc .enc 42 211 1 []) ∧ table.WF ∧ idle.cfg.pendMax = none ∧
      ∃ e ∈ table.entries, e.symbol = 256 := ⟨inv_enc, table_enc, by decide, by decide, by decide⟩

theorem witness_EveryStepIsOneBit :
    EncStep (enc .enc 42 97 1 []) (encE1 (enc .enc 42 97 1 [])) ∧
      answers (exec (.encSym 97) (enc .enc 42 211 1 [])) (fun t => t.ph ≠ .fault) = true ∧
      answers (exec .encFlush (enc .encEos 60 135 0 [])) (fun t => t.ph ≠ .fault) = true :=
  ⟨.e1 (by decide), by decide, by decide⟩

theorem witness_SentinelEndsSymbolPhase :
    answers (exec (.encSym (enc .enc 84 195 0 []).sent) (enc .enc 84 195 0 [])) (fun t => t.ph ≠ .fault) = true ∧
      Instr.encSym 97 ≠ .encFlush ∧ Instr.encSym 97 ≠ .reset ∧ Instr.encSym 97 ≠ .nop := by decide

/-- Another phase; a full counter; `LOW` one below and at the first quarter. -/
theorem witness_EncFlushWritesFinalBits :
    ((enc .enc 0 255 0 []).ph ≠ .fault ∧ 2 ≤ (enc .enc 0 255 0 []).cfg.prec ∧ (enc .enc 0 255 0 []).ph ≠ .encEos) ∧
      (enc .encEos 63 135 1 []).ph = .encEos ∧
    ((bounded 1 (enc .encEos 60 135 1 [])).cfg.pendMax = some (bounded 1 (enc .encEos 60 135 1 [])).pend) ∧
      ((enc .encEos 63 135 1 []).cfg.pendMax ≠ some 1 ∧ (enc .encEos 63 135 1 []).low < 2 ^ (8 - 2)) ∧
      2 ^ (8 - 2) ≤ (enc .encEos 64 200 1 []).low := by decide

/-- A phase of each kind; totals 0, 64, 1 and 63 at `P = 8`. -/
theorem witness_DecInitStartsSession :
    ((dec .dec 42 211 80 9 []).ph ≠ .fault ∧ 2 ≤ (dec .dec 42 211 80 9 []).cfg.prec ∧
      (dec .dec 42 211 80 9 []).ph ∉ [Phase.idle, .encDone, .decDone]) ∧
      ((dec .decDone 84 195 160 10 []).ph ∈ [Phase.idle, .encDone, .decDone] ∧ 2 ≤ (dec .decDone 84 195 160 10 []).cfg.prec ∧
        (wideTable 0).total = 0 ∧ 2 ^ (idle.cfg.prec - 2) ≤ (wideTable 64).total ∧ 0 < (wideTable 1).total ∧
        (wideTable 63).total < 2 ^ (idle.cfg.prec - 2)) := by decide

/-- V32, V33: `CODE` at the two ends; and an interval of exactly the total. -/
theorem witness_ExactTargetSelectsByInterval :
    table.WF ∧ (42 ≤ 42 ∧ 42 ≤ 211 ∧ table.total ≤ 211 - 42 + 1) ∧ (211 ≤ 211) ∧ table.total ≤ 2 - 0 + 1 := by decide

/-- V30 and P4: the entry `TRUNC` finds ends one below `CODE`; then `CODE` is above `HIGH`, and V59. -/
theorem witness_TruncTargetFallsShort :
    tableP4.WF ∧ (12 ≤ 17 ∧ 12 ≤ 24 ∧ 0 < 5) ∧
      tableP4.byTarget (targetOf .trunc 12 24 17 tableP4.total) = some { symbol := 97, frequency := 2, cl := 0, ch := 2 } ∧
      (2 ≤ (decP4 12 16 17).cfg.prec ∧ (decP4 12 16 17).low ≤ (decP4 12 16 17).high ∧ (decP4 12 16 17).high < (decP4 12 16 17).code ∧
        Steps DecStep 1 (decP4 12 16 17) (decD3 (decP4 12 16 17))) ∧
      ((decP4 0 19 22).cfg.targetRule = .trunc ∧ (decP4 0 19 22).ph = .dec ∧ (decP4 0 19 22).total = tableP4.total ∧
        (decP4 0 19 22).low ≤ (decP4 0 19 22).high ∧ (decP4 0 19 22).high < (decP4 0 19 22).code) :=
  ⟨by decide, by decide, by decide, ⟨by decide, by decide, by decide, .cons (.d3 (by decide)) (.refl _)⟩, by decide⟩

/-- V34 to V36 and the ends of the three ranges. -/
theorem witness_DecoderMicroSteps :
    (dec .dec 0 127 80 5 []).high < 2 * 2 ^ (8 - 2) ∧ 2 * 2 ^ (8 - 2) ≤ (dec .dec 128 212 140 5 []).low ∧
      (2 ^ (8 - 2) ≤ (dec .dec 64 191 104 5 []).low ∧ (dec .dec 64 191 104 5 []).low < 2 * 2 ^ (8 - 2) ∧
        2 * 2 ^ (8 - 2) ≤ (dec .dec 64 191 104 5 []).high ∧ (dec .dec 64 191 104 5 []).high < 3 * 2 ^ (8 - 2)) := by decide

/-- Another phase; a target in the table's gap (V60); the sentinel (V49); a symbol (V48). -/
theorem witness_DecSymDecodesOneSymbol :
    let s := dec .dec 0 255 104 8 []
    ((dec .decDone 84 195 160 10 []).ph ≠ .fault ∧ (dec .decDone 84 195 160 10 []).ph ≠ .dec) ∧
    gapTable.byTarget (targetOf .exact 0 255 96 3) = none ∧
    table.byTarget (targetOf .exact 84 195 160 3) = some { symbol := 256, frequency := 1, cl := 2, ch := 3 } ∧
    2 ≤ s.cfg.prec ∧
    s.ph = .dec ∧ s.low ≤ s.high ∧ 0 < s.total ∧
      s.model.byTarget (targetOf s.cfg.targetRule s.low s.high s.code s.total) =
        some { symbol := 98, frequency := 1, cl := 1, ch := 2 } ∧ 98 ≠ s.sent ∧
      0 + (255 - 0 + 1) * 1 / 3 < 0 + (255 - 0 + 1) * 2 / 3 ∧ 0 + (255 - 0 + 1) * 1 / 3 ≤ s.cfg.top := by decide

/-- V49. -/
theorem witness_DecSymStopsAtSentinel :
    let s := dec .dec 84 195 160 10 [98, 97]
    s.ph = .dec ∧ s.low ≤ s.high ∧ 0 < s.total ∧
      s.model.byTarget (targetOf s.cfg.targetRule s.low s.high s.code s.total) =
        some { symbol := 256, frequency := 1, cl := 2, ch := 3 } ∧ 256 = s.sent := by decide

theorem witness_DecSymCompletesUnderExact :
    Inv (dec .dec 42 211 80 9 [98]) ∧ TableInv (dec .dec 42 211 80 9 [98]) ∧ table.WF ∧ idle.cfg.targetRule = .exact :=
  ⟨inv_dec, table_dec, by decide, by decide⟩

theorem witness_SymbolCommandFrames :
    answers (exec (.encSym 97) (enc .enc 42 211 1 [true])) (fun t => t.ph ≠ .fault) = true ∧
      answers (exec .decSym (dec .dec 42 211 80 9 [98])) (fun t => t.ph = .dec) = true ∧
      answers (exec .decSym (dec .dec 84 195 160 10 [98])) (fun t => t.ph = .decDone) = true := by decide

/-- V45, V48: `CODE` inside; and at both ends of the interval. -/
theorem witness_WindowStaysInInterval :
    answers (exec .decInit idle) (fun t => t.ph = .dec) = true ∧
      (2 ≤ idle.cfg.prec ∧ table.WF ∧ (dec .dec 0 255 104 8 []).total = table.total ∧ table.total ≤ 255 - 0 + 1) ∧
      answers (exec .decSym (dec .dec 42 211 42 9 [])) (fun t => t.ph ≠ .fault) = true ∧
      answers (exec .decSym (dec .dec 42 211 211 9 [])) (fun t => t.ph ≠ .fault) = true := by decide

/-- P1's text at `P = 8`; the empty text at the smallest `P`; the sentinel at the end of its range; a decoder that has the
encoder's bits; and an encoder whose counter is too small (R206). -/
theorem witness_RoundTripUnderExact :
    (3 ≤ Config.vectors.prec ∧ Config.vectors.symBits ≤ 24 ∧ Config.vectors.targetRule = .exact ∧
      (∀ x ∈ 256 :: [98, 97], x < 2 ^ Config.vectors.symBits) ∧ 256 ∉ [98, 97] ∧ 511 < 2 ^ Config.vectors.symBits ∧
      answers (runCommands (encodeCommands [98, 97] 256) (bounded 0 idle)) (fun t => t.err = some .pendingOverflow) = true ∧
      [98, 97].length + 1 < 2 ^ (Config.vectors.prec - 2)) ∧ ([] : List Nat).length + 1 < 2 ^ (3 - 2) ∧
      modelBuiltFrom [98, 97] 256 = table ∧ idle.cfg = Config.vectors ∧ idle.ph = .idle ∧
      answers (runCommands (encodeCommands [98, 97] 256) idle)
        (fun t => t.out = [false, true, true, false, true]) = true := by decide

theorem witness_DecodeNeedNotEnd :
    let s : State := { State.reset with model :=
      { entries := [{ symbol := 97, frequency := 1, cl := 0, ch := 1 }, { symbol := 256, frequency := 1, cl := 1, ch := 2 }]
        total := 2, sentinel := 256 } }
    s.cfg = Config.vectors ∧ s.ph = .idle ∧ s.inp = [] := by decide

theorem witness_StepKeepsInv :
    Inv (enc .enc 42 211 1 []) ∧
      answers (step ((enc .enc 42 211 1 []).withFetchWord 32 0x11000061)) (fun t => t.low = 84) = true :=
  ⟨inv_enc, by decide⟩

theorem witness_StepKeepsTableInv :
    Inv (dec .dec 42 211 80 9 [98]) ∧ TableInv (dec .dec 42 211 80 9 [98]) ∧
      answers (step ((dec .dec 42 211 80 9 [98]).withFetchWord 32 0x21000000)) (fun t => t.low = 84) = true :=
  ⟨inv_dec, table_dec, by decide⟩

theorem witness_LegalRunsNeverStop :
    Inv (enc .enc 42 211 1 []) ∧ TableInv (enc .enc 42 211 1 []) ∧ table.WF ∧
      ∀ m bits rest, (enc .enc 42 211 1 []).inbox ≠ .loadModel m :: rest ∧
        (enc .enc 42 211 1 []).inbox ≠ .loadSource bits :: rest :=
  ⟨inv_enc, table_enc, by decide, fun _ _ _ => ⟨nofun, nofun⟩⟩

/-- Two decoder states that differ in what the decoder's session gives no value. -/
theorem witness_SessionsForgetThePast :
    Inv (dec .dec 42 211 80 9 [98]) ∧ Inv { dec .dec 42 211 80 9 [98] with pend := 5, out := [true], outlen := 7 } ∧
      SameSession (dec .dec 42 211 80 9 [98]) { dec .dec 42 211 80 9 [98] with pend := 5, out := [true], outlen := 7 } := by
  have hh : (dec .dec 42 211 80 9 [98]).held ≠ some .encoder := by decide
  have h := inv_dec
  exact ⟨h, ⟨h.err_iff, h.held_eq, h.total_pos, h.total_lt, h.low_le_high, h.stopped, fun e => absurd e hh,
      fun e => absurd e hh, fun e => absurd e (by decide), h.symlen_eq, h.cur_ge, h.low_le_code⟩,
    ⟨rfl, rfl, rfl, rfl, rfl, rfl, fun _ => rfl, fun _ => rfl, fun _ => rfl, fun _ => rfl, fun e => absurd e hh,
      fun e => absurd e hh, fun e => absurd e hh, fun _ => rfl, fun _ => rfl, fun _ => rfl, fun _ => rfl⟩⟩

end Sys2Proof.Tests
end

section
/-! The two lookups in the model table (20_memory.md R56, R57): what each finds, what a well-formed table adds, and the
fault their command raises where they find nothing. -/

namespace Sys2Proof.Machine

open Sys2Proof

/-! ### The first match in table order -/

theorem bySymbol_eq_some_iff {m : ModelTable} {x : Nat} {e : Entry} :
    m.bySymbol x = some e ↔
      ∃ before after, m.entries = before ++ e :: after ∧ e.symbol = x ∧ ∀ a ∈ before, a.symbol ≠ x := by
  simp only [ModelTable.bySymbol, List.find?_eq_some_iff_append, beq_iff_eq, Bool.not_eq_true', beq_eq_false_iff_ne]
  constructor
  · rintro ⟨hx, before, after, hsplit, hbefore⟩
    exact ⟨before, after, hsplit, hx, hbefore⟩
  · rintro ⟨before, after, hsplit, hx, hbefore⟩
    exact ⟨hx, before, after, hsplit, hbefore⟩

theorem bySymbol_eq_none_iff {m : ModelTable} {x : Nat} : m.bySymbol x = none ↔ ∀ e ∈ m.entries, e.symbol ≠ x := by
  simp [ModelTable.bySymbol]

theorem byTarget_eq_some_iff {m : ModelTable} {t : Int} {e : Entry} :
    m.byTarget t = some e ↔
      ∃ before after, m.entries = before ++ e :: after ∧ (e.cl : Int) ≤ t ∧ t < e.ch ∧
        ∀ a ∈ before, ¬ ((a.cl : Int) ≤ t ∧ t < a.ch) := by
  simp only [ModelTable.byTarget, List.find?_eq_some_iff_append, decide_eq_true_eq, Bool.not_eq_true',
    decide_eq_false_iff_not]
  constructor
  · rintro ⟨⟨hl, hh⟩, before, after, hsplit, hbefore⟩
    exact ⟨before, after, hsplit, hl, hh, hbefore⟩
  · rintro ⟨before, after, hsplit, hl, hh, hbefore⟩
    exact ⟨⟨hl, hh⟩, before, after, hsplit, hbefore⟩

theorem byTarget_eq_none_iff {m : ModelTable} {t : Int} :
    m.byTarget t = none ↔ ∀ e ∈ m.entries, ¬ ((e.cl : Int) ≤ t ∧ t < e.ch) := by
  simp only [ModelTable.byTarget, List.find?_eq_none, decide_eq_true_eq]

theorem byTarget_eq_none_of_neg {m : ModelTable} {t : Int} (ht : t < 0) : m.byTarget t = none :=
  byTarget_eq_none_iff.2 fun e _ h => by omega

/-! ### Well-formed tables (R52) -/

/-- No range of a well-formed table reaches its total. -/
theorem ModelTable.WF.byTarget_eq_none_of_total_le {m : ModelTable} (hw : m.WF) {t : Int} (ht : (m.total : Int) ≤ t) :
    m.byTarget t = none := by
  obtain ⟨-, htiles, hfreq, -⟩ := hw
  refine byTarget_eq_none_iff.2 fun e he h => ?_
  have hch := ((tiles_bounds htiles hfreq).2 e he).2.2
  omega

/-- Ranges that tile are disjoint: entries that contain the same target are the same entry. -/
theorem ModelTable.WF.eq_of_ranges_contain {m : ModelTable} (hw : m.WF) {t : Int} {a b : Entry}
    (ha : a ∈ m.entries) (ha1 : (a.cl : Int) ≤ t) (ha2 : t < a.ch)
    (hb : b ∈ m.entries) (hb1 : (b.cl : Int) ≤ t) (hb2 : t < b.ch) : a = b := by
  obtain ⟨-, htiles, hfreq, -⟩ := hw
  obtain ⟨n, rfl⟩ := Int.eq_ofNat_of_zero_le (show 0 ≤ t by omega)
  have hch := ((tiles_bounds htiles hfreq).2 a ha).2.2
  obtain ⟨e, -, -, -, huniq⟩ :=
    tiles_image_cover (f := id) (fun h => h) htiles hfreq n (Nat.zero_le _) (show n < m.total by omega)
  rw [huniq a ha (Int.ofNat_le.1 ha1) (Int.ofNat_lt.1 ha2), huniq b hb (Int.ofNat_le.1 hb1) (Int.ofNat_lt.1 hb2)]

/-- Any search of a well-formed table for the entry that contains a target finds the same one (R57). -/
theorem ModelTable.WF.byTarget_eq {m : ModelTable} (hw : m.WF) {t : Int} {e : Entry}
    (he : e ∈ m.entries) (h1 : (e.cl : Int) ≤ t) (h2 : t < e.ch) : m.byTarget t = some e := by
  cases hf : m.byTarget t with
  | none => exact absurd ⟨h1, h2⟩ (byTarget_eq_none_iff.1 hf e he)
  | some a =>
    obtain ⟨ha, ha1, ha2⟩ := byTarget_some hf
    rw [hw.eq_of_ranges_contain ha ha1 ha2 he h1 h2]

/-! ### What the commands raise where nothing is found -/

theorem exec_encSym_of_bySymbol_none {x : Nat} {s : State} (hp : s.ph = .enc) (hm : s.model.bySymbol x = none) :
    exec (.encSym x) s = .next (raise .unknownSymbolError s) := by
  rw [exec_encSym hp]
  rcases encSymBody_cases x s with ⟨-, h⟩ | ⟨e, he, -⟩
  · exact h
  · simp [hm] at he

theorem exec_decSym_of_byTarget_none {s : State} (hp : s.ph = .dec) (hi : hasInterval s = true)
    (hm : s.model.byTarget (targetNow s) = none) : exec .decSym s = .next (raise .decodeRangeError s) := by
  rw [exec_decSym hp]
  rcases decSymBody_cases s with ⟨hni, -⟩ | ⟨-, -, h⟩ | ⟨-, e, he, -⟩
  · simp [hi] at hni
  · exact h
  · simp [hm] at he

/-! ### The obligations -/

/-- Settles O24 (R56): the first match by the library's characterisation of `find?`; uniqueness because symbols ascend. -/
theorem lookupBySymbol : Obligations.LookupBySymbol := by
  unfold Obligations.LookupBySymbol
  intro m x
  refine ⟨fun e => bySymbol_eq_some_iff, bySymbol_eq_none_iff, ?_, ?_⟩
  · rintro hw e he rfl
    exact hw.bySymbol_eq he
  · rintro s hp rfl hm
    exact exec_encSym_of_bySymbol_none hp hm

/-- Settles O25 (R57): the first match by the library's characterisation of `find?`; the bounds and the uniqueness because
the ranges tile `[0, total)`. -/
theorem lookupByTarget : Obligations.LookupByTarget := by
  unfold Obligations.LookupByTarget
  intro m t
  refine ⟨fun e => byTarget_eq_some_iff, byTarget_eq_none_iff, byTarget_eq_none_of_neg,
    fun hw => hw.byTarget_eq_none_of_total_le, fun hw e => hw.byTarget_eq, ?_⟩
  rintro s hp hlh h0 rfl rfl hm
  exact exec_decSym_of_byTarget_none hp (hasInterval_iff.2 ⟨hlh, h0⟩) hm

end Sys2Proof.Machine
end

section
/-! Which commands the engine turns down, and the phase each of the others leaves (30_encoding.md R84, R90): the words
that raise `IllegalCommand`, and how a command comes to end in phase `FAULT`. -/

namespace Sys2Proof.Machine

open Sys2Proof

/-! ### Illegal words (R82 to R84) -/

/-- What the decoder accepts has a listed opcode, and the operand R82 and R83 ask for. -/
theorem not_illegalEncoding_of_decode_ok {n : Nat} {cw : Word} {i : Instr} (h : decode n cw = .ok i) :
    ¬ IllegalEncoding n cw := by
  obtain ⟨hop, hwf, harg⟩ := decode_ok_iff.1 h
  rw [opField_toNat] at hop
  rw [argField_toNat] at harg
  simp only [IllegalEncoding, hop, harg]
  cases i with
  | encSym x =>
    have hx : x < 2 ^ n := by
      simp only [Instr.wf, Bool.and_eq_true, decide_eq_true_eq] at hwf
      exact hwf.1
    simp [Instr.opcode, hx]
  | nop | reset | encInit | encFlush | decInit | decSym => simp [Instr.opcode]

theorem decode_error_of_illegalEncoding {n : Nat} {cw : Word} (h : IllegalEncoding n cw) :
    ∃ why, decode n cw = .error why := by
  cases hd : decode n cw with
  | ok i => exact absurd h (not_illegalEncoding_of_decode_ok hd)
  | error why => exact ⟨why, rfl⟩

theorem illegalWord_of_fault {s : State} (hp : s.ph = .fault) : illegalWord s = s := if_pos hp

theorem illegalWord_of_ne_fault {s : State} (hp : s.ph ≠ .fault) : illegalWord s = raise .illegalCommand s := if_neg hp

/-! ### How a command comes to end in phase `FAULT` -/

theorem accepts_false_iff_not_listed {i : Instr} {ph : Phase} (h : ph ≠ .fault) :
    accepts i ph = false ↔ ph ∉ listedPhases i := by
  rw [← accepts_iff_listed h, Bool.not_eq_true]

/-- A command whose row of R90 does not hold the phase raises `IllegalCommand`; `NOP` and `RESET` hold every phase. -/
theorem exec_illegalCommand {i : Instr} {s : State} (hp : s.ph ≠ .fault) (ha : accepts i s.ph = false) :
    exec i s = .next (raise .illegalCommand s) := by
  cases i with
  | nop | reset => cases ha
  | encInit | encSym | encFlush | decInit | decSym => exact guarded_illegal hp ha

/-- The phase check is the one rule that raises `IllegalCommand` (R205). -/
theorem Raises.not_accepted {i : Instr} {s : State} (h : Raises i .illegalCommand s) : accepts i s.ph = false := by
  cases h with
  | phase ha => exact ha

/-- The phase `ENC_SYM x` leaves when its loop ends (R126, R127). -/
theorem encSym_phase {x n : Nat} {e : Entry} {s s₁ u : State} (hp : s.ph = .enc) (hn : narrow e s = some s₁)
    (hs : Steps EncStep n s₁ u) : (endEncSym x u).ph = if x = s.sent then .encEos else .enc := by
  rw [endEncSym_eq, narrow_enc_frame hn hs, hp]

/-- Outside `FAULT` a command gets there only by raising a fault. -/
theorem Effect.raised_of_fault {i : Instr} {s t : State} (h : Effect i s t) (hp : s.ph ≠ .fault) (ht : t.ph = .fault) :
    ∃ k, Raises i k s ∧ t = raise k s := by
  cases h with
  | raised _ why => exact ⟨_, why, rfl⟩
  | nop | ignored => exact absurd ht hp
  | reset | encFlush | decSentinel => cases ht
  | encInit => simp [startEncoder_eq] at ht
  | decInit => simp [startDecoder_eq] at ht
  | encSym hp' _ _ hn _ hs => rw [encSym_phase hp' hn hs] at ht; split_ifs at ht
  | decSymbol hp' _ _ _ hn _ hs =>
    rw [narrow_dec_frame hn hs] at ht
    exact absurd ht hp

theorem exec_eq_illegalCommand_iff {i : Instr} {s : State} (hp : s.ph ≠ .fault) :
    exec i s = .next (raise .illegalCommand s) ↔ accepts i s.ph = false := by
  refine ⟨fun h => ?_, exec_illegalCommand hp⟩
  obtain ⟨k, why, heq⟩ := (exec_next h).raised_of_fault hp rfl
  obtain rfl : EngineFault.illegalCommand = k := Option.some.inj (congrArg State.err heq)
  exact why.not_accepted

/-! ### The obligations -/

/-- Settles O6 (R84): outside `FAULT` an illegal encoding and a command its phase does not list both come to
`raise .illegalCommand`; in `FAULT` only the one word of `RESET` decodes to a command that acts. -/
theorem illegalWordsRaise : Obligations.IllegalWordsRaise := by
  unfold Obligations.IllegalWordsRaise
  intro s cw rest hb
  refine ⟨fun hp hbad => ?_, fun hp hcw => ?_⟩
  · rcases hbad with henc | ⟨i, hd, hph⟩
    · obtain ⟨why, hd⟩ := decode_error_of_illegalEncoding henc
      exact (step_error hb hd).trans (congrArg Host.Outcome.next (illegalWord_of_ne_fault hp))
    · exact (step_ok hb hd).trans (exec_illegalCommand hp ((accepts_false_iff_not_listed hp).2 hph))
  · cases hd : decode s.cfg.symBits cw with
    | ok i =>
      have hi : i ≠ .reset := by
        rintro rfl
        exact hcw (reset_word hd)
      exact (step_ok hb hd).trans (exec_ignored hp hi)
    | error why => exact (step_error hb hd).trans (congrArg Host.Outcome.next (illegalWord_of_fault hp))

/-- Settles O7 (R90): acceptance by what can raise `IllegalCommand`; the phase left by what a command that answers a next
state can have done. -/
theorem phaseTable : Obligations.PhaseTable := by
  unfold Obligations.PhaseTable
  refine ⟨fun i s hp => ?_, fun i s t hp h ht => ?_, fun i s hp => ?_⟩
  · rw [← accepts_false_iff_not_listed hp]
    exact exec_eq_illegalCommand_iff hp
  · cases exec_next h with
    | ignored hf => exact absurd hf hp
    | raised => exact absurd rfl ht
    | nop | reset | encFlush => rfl
    | encInit => exact congrArg State.ph (startEncoder_eq s)
    | decInit => exact congrArg State.ph (startDecoder_eq s)
    | encSym hp' _ _ hn _ hs => exact encSym_phase hp' hn hs
    | decSentinel => exact .inr ⟨rfl, rfl⟩
    | decSymbol hp' _ _ hx hn _ hs =>
      rw [narrow_dec_frame hn hs]
      exact .inl ⟨hp', _, hx, rfl⟩
  · split_ifs with hi
    · subst hi
      exact ⟨_, rfl, rfl⟩
    · exact exec_ignored hp hi

end Sys2Proof.Machine
end

section
/-! Which renormalization case the tests of 40_interval.md R103 choose, in an ordered interval. -/

namespace Sys2Proof.Machine

open Sys2Proof

/-- In an ordered interval the first test of R103 fails wherever the second holds. -/
theorem caseOf_e2_iff_of_le {c : Config} {l h : Nat} (hlh : l ≤ h) : caseOf c l h = .e2 ↔ c.half ≤ l :=
  caseOf_e2_iff.trans (and_iff_right_of_imp hlh.trans')

/-- Settles O30 (R103): what each case means, with E2's test made free of `HIGH` by the order of the ends; the constants are
the powers of two of R5 by definition. -/
theorem caseSelection : Obligations.CaseSelection := by
  unfold Obligations.CaseSelection
  intro c low high _ hlh
  exact ⟨caseOf_e1_iff, caseOf_e2_iff_of_le hlh, caseOf_e3_iff.trans and_left_comm, caseOf_stop_iff.trans and_left_comm⟩

end Sys2Proof.Machine
end

section
/-! The encoder's micro-operations (41_encoder.md R121 to R124): EMIT, and the whole effect of the steps E1, E2 and E3. -/

namespace Sys2Proof.Machine

open Sys2Proof

/-! ### The counter of pending bits -/

@[simp] theorem pendFull_eq_true_iff {s : State} : pendFull s = true ↔ s.cfg.pendMax = some s.pend := by simp [pendFull]

@[simp] theorem pendFull_eq_false_iff {s : State} : pendFull s = false ↔ s.cfg.pendMax ≠ some s.pend := by simp [pendFull]

/-! ### The one step each case has -/

theorem encStep_iff_of_e1 {s t : State} (h : renormCase s = .e1) : EncStep s t ↔ t = encE1 s :=
  ⟨fun hst => hst.unique (.e1 h), fun ht => ht ▸ .e1 h⟩

theorem encStep_iff_of_e2 {s t : State} (h : renormCase s = .e2) : EncStep s t ↔ t = encE2 s :=
  ⟨fun hst => hst.unique (.e2 h), fun ht => ht ▸ .e2 h⟩

theorem encStep_iff_of_e3 {s t : State} (h : renormCase s = .e3) :
    EncStep s t ↔ pendFull s = false ∧ t = encE3 s := by
  constructor
  · intro hst
    cases hst with
    | e1 h' | e2 h' => simp [h'] at h
    | e3 _ room => exact ⟨room, rfl⟩
  · rintro ⟨room, rfl⟩
    exact .e3 h room

/-- A full counter ends the loop at the first E3 step (R124, R206). -/
theorem renormEnc_overflow {s : State} (h : renormCase s = .e3) (hf : pendFull s = true) (fuel : Nat) :
    renormEnc (fuel + 1) s = .overflow := by
  simp only [renormEnc, h, hf, if_true]

/-! ### The whole effect of each step -/

theorem encE1_eq (s : State) :
    encE1 s = { s with
      low := 2 * s.low, high := 2 * s.high + 1, pend := 0
      out := s.out ++ false :: List.replicate s.pend true, outlen := s.outlen + (s.pend + 1) } := by
  simp [encE1, emit_eq, scaleInterval, scale, offsetOf]

theorem encE2_eq (s : State) :
    encE2 s = { s with
      low := 2 * (s.low - s.cfg.half), high := 2 * (s.high - s.cfg.half) + 1, pend := 0
      out := s.out ++ true :: List.replicate s.pend false, outlen := s.outlen + (s.pend + 1) } := by
  simp [encE2, emit_eq, scaleInterval, scale, offsetOf]

theorem encE3_eq (s : State) :
    encE3 s = { s with
      low := 2 * (s.low - s.cfg.firstQuarter), high := 2 * (s.high - s.cfg.firstQuarter) + 1, pend := s.pend + 1 } := rfl

/-! ### The obligations -/

/-- Settles O37 (R121): the whole effect of EMIT, its bits in the order the statement writes them. -/
theorem emitWritesBitThenComplements : Obligations.EmitWritesBitThenComplements := by
  unfold Obligations.EmitWritesBitThenComplements
  intro b s
  rw [emit_eq, List.append_assoc, List.singleton_append, Nat.add_assoc, Nat.add_comm 1]

/-- Settles O38 (R122 to R124): the bounds on the interval choose the case, a case has one step, and that step's effect is
written out. -/
theorem encoderMicroSteps : Obligations.EncoderMicroSteps := by
  unfold Obligations.EncoderMicroSteps
  intro s t hP hlh q
  have hhalf : s.cfg.half = 2 * q := half_eq hP
  refine ⟨fun hh => ?_, fun hl => ?_, fun hl1 hl2 hh1 hh2 => ?_⟩
  · have hk : renormCase s = .e1 := caseOf_e1_iff.2 (hhalf ▸ hh)
    rw [encStep_iff_of_e1 hk, encE1_eq]
  · have hk : renormCase s = .e2 := (caseOf_e2_iff_of_le hlh).2 (hhalf ▸ hl)
    rw [encStep_iff_of_e2 hk, encE2_eq, hhalf]
  · have hk : renormCase s = .e3 := caseOf_e3_iff.2 ⟨hhalf ▸ hh1, hhalf ▸ hl2, hl1, hh2⟩
    refine ⟨?_, fun hf => renormEnc_overflow hk (pendFull_eq_true_iff.2 hf)⟩
    rw [encStep_iff_of_e3 hk, pendFull_eq_false_iff, encE3_eq]
    rfl

end Sys2Proof.Machine
end

section
/-! The ends of an encoder session (41_encoder.md R120, R128): `ENC_INIT` and `ENC_FLUSH`, their faults in the order of their
tests and otherwise their whole effect. -/

namespace Sys2Proof.Machine

open Sys2Proof

/-! ### Session start -/

theorem openSession_emptyModel {start : State → State} {s : State} (h : s.model.total = 0) :
    openSession start s = .next (raise .emptyModelError s) := if_pos h

theorem openSession_precisionOverflow {start : State → State} {s : State} (h : s.cfg.firstQuarter ≤ s.model.total) :
    openSession start s = .next (raise .precisionOverflowError s) := by
  have hq := firstQuarter_pos s.cfg
  rw [openSession, if_neg (by omega), if_pos h]

theorem openSession_accepted {start : State → State} {s : State} (h0 : 0 < s.model.total)
    (h : s.model.total < s.cfg.firstQuarter) : openSession start s = .next (start s) := by
  rw [openSession, if_neg (by omega), if_neg (by omega)]

/-- The registers that hold a value in an encoder session (R37). -/
theorem holdsValue_encoder_iff (i : Nat) :
    holdsValue (some .encoder) i = true ↔ i ∈ [0, 1, 2, 3, 4, 6, 7, 8] := by
  simp [holdsValue]
  omega

/-! ### The flush -/

theorem encFlushBody_full {s : State} (h : s.cfg.pendMax = some s.pend) :
    encFlushBody s = .next (raise .pendingOverflow s) := if_pos (pendFull_eq_true_iff.2 h)

/-- Where the counter has room the flush appends the bit that says on which side of the first quarter `LOW` lies, and
`PEND + 1` complements. -/
theorem encFlushBody_room {s : State} (h : s.cfg.pendMax ≠ some s.pend) (b : Bool)
    (hb : decide (s.low < s.cfg.firstQuarter) = !b) :
    encFlushBody s = .next { s with
      out := s.out ++ b :: List.replicate (s.pend + 1) (!b), outlen := s.outlen + (s.pend + 2)
      pend := 0, ph := .encDone } := by
  simp [encFlushBody_eq, h, hb]

/-! ### The obligations -/

/-- Settles O36 (R120): the phase check, then the two tests of the total, then the writes of `startEncoder`. -/
theorem encInitStartsSession : Obligations.EncInitStartsSession := by
  unfold Obligations.EncInitStartsSession
  intro s hp _
  refine ⟨fun hph => exec_illegalCommand hp ((accepts_false_iff_not_listed hp).2 hph), fun hph => ?_⟩
  rw [exec_encInit ((accepts_iff_listed hp).2 hph)]
  exact ⟨openSession_emptyModel, openSession_precisionOverflow,
    fun h0 h => ⟨startEncoder s, openSession_accepted h0 h, startEncoder_eq s, holdsValue_encoder_iff⟩⟩

/-- Settles O43 (R128): the phase check, then the test of the counter, then the final bits on either side of the first
quarter. -/
theorem encFlushWritesFinalBits : Obligations.EncFlushWritesFinalBits := by
  unfold Obligations.EncFlushWritesFinalBits
  intro s hp _
  refine ⟨fun hph => exec_illegalCommand hp (by simpa [accepts] using hph), fun hph hf => ?_, fun hph hr hl => ?_,
    fun hph hr hl => ?_⟩
  · exact (exec_encFlush hph).trans (encFlushBody_full hf)
  · exact (exec_encFlush hph).trans (encFlushBody_room hr false (decide_eq_true hl))
  · exact (exec_encFlush hph).trans (encFlushBody_room hr true (decide_eq_false (Nat.not_lt.2 hl)))

end Sys2Proof.Machine
end

section
/-! One symbol of an encoder session (41_encoder.md R126, R127): what `ENC_SYM` answers, and how the sentinel ends the symbol
phase. -/

namespace Sys2Proof.Machine

open Sys2Proof

/-! ### The answer of `ENC_SYM` -/

/-- `NARROW` with its range written as R100 does. -/
theorem narrow_eq_of_lt {e : Entry} {s : State} (hlh : s.low ≤ s.high)
    (h : s.low + (s.high - s.low + 1) * e.cl / s.total < s.low + (s.high - s.low + 1) * e.ch / s.total) :
    narrow e s = some { s with
      low := s.low + (s.high - s.low + 1) * e.cl / s.total
      high := s.low + (s.high - s.low + 1) * e.ch / s.total - 1 } := by
  have hr : rangeOf s.low s.high = s.high - s.low + 1 := by simp only [rangeOf]; omega
  rw [← hr] at h ⊢
  exact narrow_eq_some.2 ⟨h, rfl⟩

/-- Steps that reach the end of the loop are the answer of `ENC_SYM`. -/
theorem exec_encSym_of_steps {x n : Nat} {e : Entry} {s s₁ u : State} (hp : s.ph = .enc)
    (he : s.model.bySymbol x = some e) (hi : hasInterval s = true) (hn : narrow e s = some s₁)
    (hle : n ≤ s.cfg.prec) (hs : Steps EncStep n s₁ u) (hk : renormCase u = .stop) :
    exec (.encSym x) s = .next (endEncSym x u) := by
  rw [exec_encSym hp]
  simp only [encSymBody, he, hi, if_true, encodeEntry, hn, renormEnc_of_steps hs hle hk]

/-- In an interval the rules can divide by, an entry whose narrowed interval lies in the code space is encoded, or the counter
stops it: the loop has an end (R107). -/
theorem exec_encSym_cases {x : Nat} {e : Entry} {s s₁ : State} (hp : s.ph = .enc) (hP : 2 ≤ s.cfg.prec)
    (he : s.model.bySymbol x = some e) (hi : hasInterval s = true) (hn : narrow e s = some s₁) (hl : s₁.low ≤ s.cfg.top) :
    (∃ n u, n ≤ s.cfg.prec ∧ Steps EncStep n s₁ u ∧ renormCase u = .stop ∧
      exec (.encSym x) s = .next (endEncSym x u)) ∨
    (∃ n u, n < s.cfg.prec ∧ Steps EncStep n s₁ u ∧ renormCase u = .e3 ∧ pendFull u = true ∧
      exec (.encSym x) s = .next (raise .pendingOverflow s)) := by
  have hcfg : s₁.cfg = s.cfg := by rw [(narrow_eq_some.1 hn).2]
  rw [exec_encSym hp]
  rcases encSymBody_cases x s with ⟨hm, -⟩ | ⟨e', hm, hrest⟩
  · simp [he] at hm
  obtain rfl : e = e' := Option.some.inj (he.symm.trans hm)
  rcases hrest with ⟨hni, -⟩ | ⟨-, hnn, -⟩ | ⟨-, s₂, hn₂, hend⟩
  · simp [hi] at hni
  · simp [hn] at hnn
  obtain rfl : s₁ = s₂ := Option.some.inj (hn.symm.trans hn₂)
  rcases hend with hdone | hover | ⟨u, hs, hk, -⟩
  · exact .inl hdone
  · exact .inr hover
  · have := hs.lt_prec (fun _ _ => EncStep.interval) (hcfg ▸ hP) (narrow_low_le_high hn) (hcfg ▸ hl) hk
    exact absurd this (hcfg ▸ Nat.lt_irrefl _)

/-! ### Nothing before the end of `ENC_SYM` reads the sentinel -/

/-- The same state with another sentinel latched. -/
def withSent (v : Nat) (s : State) : State := { s with sent := v }

theorem narrow_withSent {v : Nat} {e : Entry} {s t : State} (h : narrow e s = some t) :
    narrow e (withSent v s) = some (withSent v t) := by
  obtain ⟨hne, rfl⟩ := narrow_eq_some.1 h
  exact narrow_eq_some.2 ⟨hne, rfl⟩

theorem emit_withSent (v : Nat) (b : Bool) (s : State) : emit b (withSent v s) = withSent v (emit b s) := by
  simp only [emit_eq, withSent]

theorem EncStep.withSent {s t : State} (v : Nat) (h : EncStep s t) :
    EncStep (Machine.withSent v s) (Machine.withSent v t) := by
  cases h with
  | e1 hk =>
    have h1 : Machine.withSent v (encE1 s) = encE1 (Machine.withSent v s) := by simp only [encE1, emit_withSent]; rfl
    exact h1 ▸ .e1 hk
  | e2 hk =>
    have h2 : Machine.withSent v (encE2 s) = encE2 (Machine.withSent v s) := by simp only [encE2, emit_withSent]; rfl
    exact h2 ▸ .e2 hk
  | e3 hk room => exact .e3 (s := Machine.withSent v s) hk room

theorem Steps.withSent {n : Nat} {s t : State} (v : Nat) (h : Steps EncStep n s t) :
    Steps EncStep n (Machine.withSent v s) (Machine.withSent v t) := by
  induction h with
  | refl s => exact .refl _
  | cons hst _ ih => exact .cons (hst.withSent v) ih

/-! ### What phase `ENC_EOS` accepts -/

theorem accepts_encEos_false {i : Instr} (hf : i ≠ .encFlush) (hr : i ≠ .reset) (hn : i ≠ .nop) :
    accepts i .encEos = false := by
  cases i with
  | nop => exact absurd rfl hn
  | reset => exact absurd rfl hr
  | encFlush => exact absurd rfl hf
  | encInit | encSym | decInit | decSym => rfl

/-- In its phase the flush always answers: it raises `PendingOverflow` or ends the session. -/
theorem exec_encFlush_answers {s : State} (hp : s.ph = .encEos) :
    ∃ u, exec .encFlush s = .next u ∧
      if s.cfg.pendMax = some s.pend then u.err = some .pendingOverflow else u.ph = .encDone := by
  rw [exec_encFlush hp]
  split_ifs with hf
  · exact ⟨_, encFlushBody_full hf, rfl⟩
  · exact ⟨_, encFlushBody_room hf (!decide (s.low < s.cfg.firstQuarter)) (Bool.not_not _).symm, rfl⟩

/-! ### The obligations -/

/-- Settles O39 (R126): the phase check, then the lookup, then the two ends the loop has; the narrowed interval is the
statement's by R100. -/
theorem encSymNarrowsThenRenormalizes : Obligations.EncSymNarrowsThenRenormalizes := by
  unfold Obligations.EncSymNarrowsThenRenormalizes
  intro s x hp hP
  refine ⟨fun hph => exec_illegalCommand hp (by simpa [accepts] using hph), exec_encSym_of_bySymbol_none, ?_⟩
  intro e hph he hlh h0 range newLow newEnd hne hl s₁
  have hn : narrow e s = some s₁ := narrow_eq_of_lt hlh hne
  rcases exec_encSym_cases hph hP he (hasInterval_iff.2 ⟨hlh, h0⟩) hn hl with
    ⟨n, u, hle, hs, hk, hx⟩ | ⟨n, u, hlt, hs, hk, hf, hx⟩
  · have hsent : u.sent = s.sent := by rw [narrow_enc_frame hn hs]
    have hend : endEncSym x u = if x = s.sent then { u with ph := .encEos } else u := by rw [← hsent, endEncSym]
    exact .inl ⟨n, u, hle, hs, hk, hend ▸ hx⟩
  · have hcfg : u.cfg = s.cfg := by rw [narrow_enc_frame hn hs]
    rw [pendFull_eq_true_iff, hcfg] at hf
    exact .inr ⟨n, u, hlt, hs, hk, hf, hx⟩

/-- Settles O42 (R127): the steps of a completed `ENC_SYM` are the steps in a session with another sentinel, whose end leaves the
phase; what follows is the row of R90 for `ENC_EOS`. -/
theorem sentinelEndsSymbolPhase : Obligations.SentinelEndsSymbolPhase := by
  unfold Obligations.SentinelEndsSymbolPhase
  intro s t hp h ht
  cases exec_next h with
  | ignored hf => simp [hp] at hf
  | raised => exact absurd rfl ht
  | @encSym _ e n _ s₁ u _ he hi hn hle hs hk =>
    have hu : u.ph = .enc := by rw [narrow_enc_frame hn hs, hp]
    have hph : (endEncSym s.sent u).ph = .encEos := by rw [encSym_phase hp hn hs, if_pos rfl]
    refine ⟨hph, fun other hother => ?_, fun i hf hr hnop => ?_, rfl, ⟨_, rfl, rfl⟩, exec_encFlush_answers hph⟩
    · have hx := exec_encSym_of_steps (s := withSent other s) hp he hi (narrow_withSent hn) hle (hs.withSent other) hk
      have hend : endEncSym s.sent (withSent other u) = withSent other u := if_neg (Ne.symm hother)
      refine hx.trans (congrArg Host.Outcome.next ?_)
      rw [hend, endEncSym_eq, ← hu]
      rfl
    · exact exec_illegalCommand (by simp [hph]) (hph ▸ accepts_encEos_false hf hr hnop)

end Sys2Proof.Machine
end

section
/-! The decoder's micro-operations (42_decoder.md R153 to R155): the whole effect of the steps D1, D2 and D3. -/

namespace Sys2Proof.Machine

open Sys2Proof

/-! ### The one step each case has -/

theorem decStep_iff_of_e1 {s t : State} (h : renormCase s = .e1) : DecStep s t ↔ t = decD1 s :=
  ⟨fun hst => hst.unique (.d1 h), fun ht => ht ▸ .d1 h⟩

theorem decStep_iff_of_e2 {s t : State} (h : renormCase s = .e2) : DecStep s t ↔ t = decD2 s :=
  ⟨fun hst => hst.unique (.d2 h), fun ht => ht ▸ .d2 h⟩

theorem decStep_iff_of_e3 {s t : State} (h : renormCase s = .e3) : DecStep s t ↔ t = decD3 s :=
  ⟨fun hst => hst.unique (.d3 h), fun ht => ht ▸ .d3 h⟩

/-! ### The whole effect of each step -/

theorem decD1_eq (s : State) :
    decD1 s = { s with
      low := 2 * s.low, high := 2 * s.high + 1, code := 2 * s.code + (s.inp.getD s.cur false).toNat
      cur := s.cur + 1 } := rfl

theorem decD2_eq (s : State) :
    decD2 s = { s with
      low := 2 * (s.low - s.cfg.half), high := 2 * (s.high - s.cfg.half) + 1
      code := 2 * (s.code - s.cfg.half) + (s.inp.getD s.cur false).toNat, cur := s.cur + 1 } := rfl

theorem decD3_eq (s : State) :
    decD3 s = { s with
      low := 2 * (s.low - s.cfg.firstQuarter), high := 2 * (s.high - s.cfg.firstQuarter) + 1
      code := 2 * (s.code - s.cfg.firstQuarter) + (s.inp.getD s.cur false).toNat, cur := s.cur + 1 } := rfl

/-! ### The obligation -/

/-- Settles O47 (R153 to R155): the bounds on the interval choose the case, a case has one step, and that step's effect is
written out. -/
theorem decoderMicroSteps : Obligations.DecoderMicroSteps := by
  unfold Obligations.DecoderMicroSteps
  intro s t hP hlh q b
  have hhalf : s.cfg.half = 2 * q := half_eq hP
  refine ⟨fun hh => ?_, fun hl => ?_, fun hl1 hl2 hh1 hh2 => ?_⟩
  · have hk : renormCase s = .e1 := caseOf_e1_iff.2 (hhalf ▸ hh)
    rw [decStep_iff_of_e1 hk, decD1_eq]
  · have hk : renormCase s = .e2 := (caseOf_e2_iff_of_le hlh).2 (hhalf ▸ hl)
    rw [decStep_iff_of_e2 hk, decD2_eq, hhalf]
  · have hk : renormCase s = .e3 := caseOf_e3_iff.2 ⟨hhalf ▸ hh1, hhalf ▸ hl2, hl1, hh2⟩
    rw [decStep_iff_of_e3 hk, decD3_eq]
    rfl

end Sys2Proof.Machine
end

section
/-! The start of a decoder session (42_decoder.md R150): `DEC_INIT`, its faults in the order of their tests and otherwise its
whole effect. -/

namespace Sys2Proof.Machine

open Sys2Proof

/-- The window `DEC_INIT` fills is a `P`-bit number. -/
theorem startDecoder_code_lt (s : State) : (startDecoder s).code < 2 ^ s.cfg.prec :=
  fillWindow_lt s.cfg.prec { latchSession (forgetEncoder s) with cur := 0, code := 0 } rfl

/-- The window holds the first `P` source bits, the first most significant. -/
theorem startDecoder_code_testBit (s : State) {i : Nat} (hi : i < s.cfg.prec) :
    (startDecoder s).code.testBit (s.cfg.prec - 1 - i) = s.inp.getD i false := by
  have h := fillWindow_testBit s.cfg.prec { latchSession (forgetEncoder s) with cur := 0, code := 0 } i hi
  rw [Nat.zero_add] at h
  exact h

/-- `DEC_INIT` writes the interval, the latches, the window and the symbol sequence; the encoder's registers come to hold no
value. -/
theorem startDecoder_frame (s : State) :
    startDecoder s = { s with
      total := s.model.total, sent := s.model.sentinel, low := 0, high := s.cfg.top
      code := (startDecoder s).code, cur := s.cfg.prec, symout := [], symlen := 0, ph := .dec, held := some .decoder
      pend := (startDecoder s).pend, out := (startDecoder s).out, outlen := (startDecoder s).outlen
      draws := (startDecoder s).draws } := by
  simp only [startDecoder_eq]

/-- The registers that hold a value in a decoder session (R37). -/
theorem holdsValue_decoder_iff (i : Nat) :
    holdsValue (some .decoder) i = true ↔ i ∈ [0, 1, 2, 3, 5, 6, 7, 9, 10] := by
  simp [holdsValue]
  omega

/-- Settles O44 (R150): the phase check, then the two tests of the total, then the writes of `startDecoder`. -/
theorem decInitStartsSession : Obligations.DecInitStartsSession := by
  unfold Obligations.DecInitStartsSession
  intro s hp _
  refine ⟨fun hph => exec_illegalCommand hp ((accepts_false_iff_not_listed hp).2 hph), fun hph => ?_⟩
  rw [exec_decInit ((accepts_iff_listed hp).2 hph)]
  exact ⟨openSession_emptyModel, openSession_precisionOverflow, fun h0 h =>
    ⟨startDecoder s, openSession_accepted h0 h, startDecoder_frame s, startDecoder_code_lt s,
      fun _ => startDecoder_code_testBit s, holdsValue_decoder_iff⟩⟩

end Sys2Proof.Machine
end

section
/-! One symbol of a decoder session (42_decoder.md R157, R158): what `DEC_SYM` answers where its lookup finds an entry. -/

namespace Sys2Proof.Machine

open Sys2Proof

/-- From a non-empty interval in the code space the decoder's loop has an end, at most `P` steps away (R107). -/
theorem renormDec_reaches_stop {s : State} (hP : 2 ≤ s.cfg.prec) (hlh : s.low ≤ s.high) (hl : s.low ≤ s.cfg.top) :
    ∃ n u, n ≤ s.cfg.prec ∧ Steps DecStep n s u ∧ renormCase u = .stop ∧ renormDec s.cfg.prec s = some u := by
  obtain ⟨u, hu⟩ := Option.ne_none_iff_exists'.1 (renormDec_ne_none hP hlh hl)
  have hsteps := renormDec_cases s.cfg.prec s
  rw [hu] at hsteps
  obtain ⟨n, hle, hs, hk⟩ := hsteps
  exact ⟨n, u, hle, hs, hk, hu⟩

section Lookup

variable {s : State} {e : Entry} (hp : s.ph = .dec) (hi : hasInterval s = true)
  (he : s.model.byTarget (targetNow s) = some e)
include hp hi he

/-- The sentinel's entry ends the session. -/
theorem exec_decSym_of_sentinel (hx : e.symbol = s.sent) : exec .decSym s = .next { s with ph := .decDone } := by
  rw [exec_decSym hp]
  simp only [decSymBody, hi, if_true, he, if_pos hx]

/-- Any other entry is decoded. -/
theorem exec_decSym_of_symbol (hx : e.symbol ≠ s.sent) : exec .decSym s = decodeEntry e s := by
  rw [exec_decSym hp]
  simp only [decSymBody, hi, if_true, he, if_neg hx]

end Lookup

/-- An entry whose narrowed interval lies in the code space is decoded to the end of the loop, one source bit per step. -/
theorem decodeEntry_completes {s s₁ : State} {e : Entry} (hP : 2 ≤ s.cfg.prec)
    (hn : narrow e (symPut e.symbol s) = some s₁) (hl : s₁.low ≤ s.cfg.top) :
    ∃ n u, n ≤ s.cfg.prec ∧ Steps DecStep n s₁ u ∧ renormCase u = .stop ∧ u.cur = s.cur + n ∧
      decodeEntry e s = .next u := by
  have hcfg : s₁.cfg = s.cfg := by rw [(narrow_eq_some.1 hn).2, symPut_cfg]
  rw [← hcfg] at hP hl ⊢
  obtain ⟨n, u, hle, hs, hk, hu⟩ := renormDec_reaches_stop hP (narrow_low_le_high hn) hl
  have hcur : u.cur = s.cur + n := by rw [narrow_dec_frame hn hs]
  refine ⟨n, u, hle, hs, hk, hcur, ?_⟩
  simp only [decodeEntry, hn, ← hcfg, hu]

/-! ### The obligations -/

/-- Settles O48 (R157): the phase check, then the lookup, then the sentinel's entry or another's; the narrowed interval is the
statement's by R100. -/
theorem decSymDecodesOneSymbol : Obligations.DecSymDecodesOneSymbol := by
  unfold Obligations.DecSymDecodesOneSymbol
  intro s hp hP
  refine ⟨fun hph => exec_illegalCommand hp (by simpa [accepts] using hph), fun hph hlh h0 => ?_⟩
  have hi : hasInterval s = true := hasInterval_iff.2 ⟨hlh, h0⟩
  refine ⟨exec_decSym_of_byTarget_none hph hi, fun e he hx => exec_decSym_of_sentinel hph hi he hx, ?_⟩
  intro e he hx range newLow newEnd hne hl s₁
  have hn : narrow e (symPut e.symbol s) = some s₁ := narrow_eq_of_lt (s := symPut e.symbol s) hlh hne
  rw [exec_decSym_of_symbol hph hi he hx]
  exact decodeEntry_completes hP hn hl

/-- Settles O49 (R158): the sentinel's answer, and the result of phase `DEC_DONE`. -/
theorem decSymStopsAtSentinel : Obligations.DecSymStopsAtSentinel := by
  unfold Obligations.DecSymStopsAtSentinel
  intro s e hp hlh h0 he hx
  exact ⟨exec_decSym_of_sentinel hp (hasInterval_iff.2 ⟨hlh, h0⟩) he hx, if_pos rfl⟩

end Sys2Proof.Machine
end

section
/-! The system commands (43_system.md): `NOP`'s word, the words whose operand must be zero and is not, what the port shows
of an idle engine, and which commands leave `FAULT` or lead to `IDLE`. -/

namespace Sys2Proof.Machine

open Sys2Proof

/-! ### Words (R80, R83) -/

/-- The word whose two fields are zero is `NOP`'s. -/
theorem decode_nop {n : Nat} {cw : Word} (hop : cw.toNat / 2 ^ 24 = 0x00) (harg : cw.toNat % 2 ^ 24 = 0) :
    decode n cw = .ok .nop :=
  decode_ok_iff.2 ⟨(opField_toNat cw).trans hop, rfl, (argField_toNat cw).trans harg⟩

/-- Only `ENC_SYM`'s opcode takes an operand (R83). -/
theorem illegalEncoding_of_operand {n : Nat} {cw : Word} (hop : cw.toNat / 2 ^ 24 ≠ 0x11) (harg : cw.toNat % 2 ^ 24 ≠ 0) :
    IllegalEncoding n cw := .inr (.inl ⟨hop, harg⟩)

/-! ### The port of an engine before any session (R29, R36, R37) -/

/-- The registers that hold a value before any session: `PREC` and `STATUS`. -/
theorem holdsValue_none_iff (i : Nat) : holdsValue none i = true ↔ i = 0 ∨ i = 1 := by
  simp only [holdsValue, decide_eq_true_eq]
  omega

theorem conv_of_idle {s : State} (hp : s.ph = .idle) : conv s = false := by simp [conv, hp]

theorem statusWord_of_idle {s : State} (hp : s.ph = .idle) (he : s.err = none) : statusWord s = 0 := by
  rw [statusWord, conv_of_idle hp, hp, he]
  decide

/-- `PREC` and `STATUS` hold a value in every session and before any. -/
theorem holdsValue_of_le_one (held : Option SessionKind) {i : Nat} (hi : i ≤ 1) : holdsValue held i = true := by
  rcases held with _ | _ | _ <;> simp only [holdsValue, decide_eq_true_eq, Bool.or_eq_true] <;> omega

theorem readPort_prec (s : State) (draw : Nat) : readPort s draw 0 = some s.cfg.prec :=
  congrArg some (if_pos (holdsValue_of_le_one s.held (by decide)))

theorem readPort_status (s : State) (draw : Nat) : readPort s draw 1 = some (statusWord s).toNat :=
  congrArg some (if_pos (holdsValue_of_le_one s.held (by decide)))

/-- What the port returns for the two registers that hold a value in an idle engine without an error. -/
theorem readPort_of_idle {s : State} (hp : s.ph = .idle) (he : s.err = none) (draw : Nat) :
    readPort s draw 0 = some s.cfg.prec ∧ readPort s draw 1 = some 0 :=
  ⟨readPort_prec s draw, by rw [readPort_status, statusWord_of_idle hp he]; rfl⟩

theorem encoderResult_of_idle {s : State} (hp : s.ph = .idle) : encoderResult s = none := if_neg (by simp [hp])

theorem decoderResult_of_idle {s : State} (hp : s.ph = .idle) : decoderResult s = none := if_neg (by simp [hp])

/-! ### Leaving `FAULT` and reaching `IDLE` (R181, R211) -/

/-- Of the commands but `RESET` only one that changes no phase ends in `IDLE`. -/
theorem Effect.idle_of_idle {i : Instr} {s t : State} (h : Effect i s t) (hi : i ≠ .reset) (ht : t.ph = .idle) :
    s.ph = .idle := by
  cases h with
  | nop | ignored => exact ht
  | reset => exact absurd rfl hi
  | raised | encFlush | decSentinel => cases ht
  | encInit => simp [startEncoder_eq] at ht
  | decInit => simp [startDecoder_eq] at ht
  | encSym hp _ _ hn _ hs => rw [encSym_phase hp hn hs] at ht; split_ifs at ht
  | decSymbol _ _ _ _ hn _ hs => rwa [narrow_dec_frame hn hs] at ht

/-! ### The obligations -/

/-- Settles O9 (R180): the zero word decodes to `NOP`; a non-zero operand makes the word an illegal encoding (R83, R84). -/
theorem nopChangesNothing : Obligations.NopChangesNothing := by
  unfold Obligations.NopChangesNothing
  refine ⟨fun _ => rfl, fun s cw rest hb hop => ⟨fun harg => step_ok hb (decode_nop hop harg), fun harg hp => ?_⟩⟩
  have henc : IllegalEncoding s.cfg.symBits cw := illegalEncoding_of_operand (by omega) harg
  exact (illegalWordsRaise s cw rest hb).1 hp (.inl henc)

/-- Settles O10 (R181): RESET's state is an idle engine before any session; in `FAULT` every other command is ignored (R209),
and elsewhere none of their effects ends in a new `IDLE`; an operand makes RESET's word an illegal encoding (R83, R84). -/
theorem resetReturnsToIdle : Obligations.ResetReturnsToIdle := by
  unfold Obligations.ResetReturnsToIdle
  refine ⟨fun s => ?_, fun i s t hi h => ⟨fun hp => ?_, (exec_next h).idle_of_idle hi⟩, fun s cw rest hb hop harg => ?_⟩
  · exact ⟨resetEngine s, rfl, rfl, rfl, rfl, rfl, rfl, rfl, rfl, readPort_of_idle rfl rfl, holdsValue_none_iff,
      encoderResult_of_idle rfl, decoderResult_of_idle rfl⟩
  · rw [exec_ignored hp hi] at h
    rw [← next_inj h]
    exact hp
  · have henc : IllegalEncoding s.cfg.symBits cw := illegalEncoding_of_operand (by omega) harg
    have hcw : cw ≠ 0x01000000#32 := by
      rintro rfl
      exact harg (by decide)
    obtain ⟨hraise, hignore⟩ := illegalWordsRaise s cw rest hb
    exact ⟨fun hp => hraise hp (.inl henc), fun hp => hignore hp hcw⟩

end Sys2Proof.Machine
end

section
/-! The exceptions (60_exceptions.md): what raising a fault changes, what the `FAULT` phase ignores, and which rule raises
which fault. -/

namespace Sys2Proof.Machine

open Sys2Proof

/-! ### Faults are precise and sticky (R208, R209) -/

/-- The converging flag is 0 in `FAULT` (R32, R208). -/
theorem conv_of_fault {s : State} (hp : s.ph = .fault) : conv s = false := by simp [conv, hp]

/-- A run goes on from the state its first step answers. -/
theorem run_succ_of_step {s t : State} (h : step s = .next t) (k : Nat) :
    Sys2Proof.core.run (k + 1) s = Sys2Proof.core.run k t := by
  have hcore : Sys2Proof.core.step s = .next t := h
  simp only [Host.Core.run, hcore]

/-! ### The pending-bit counter (R206) -/

/-- A full counter lets no E3 step happen. -/
theorem not_encStep_of_full {u v : State} (hk : renormCase u = .e3) (hf : pendFull u = true) : ¬ EncStep u v := by
  rw [encStep_iff_of_e3 hk, hf]
  simp

/-- Steps that meet a full counter at an E3 case are stuck there, so the loop has no end with `CASE = NONE`. -/
theorem Steps.not_stop_of_full {n m : Nat} {s t u : State} (ht : Steps EncStep n s t) (hu : Steps EncStep m s u)
    (hk : renormCase u = .e3) (hf : pendFull u = true) : renormCase t ≠ .stop := by
  intro hstop
  obtain ⟨-, hrest⟩ := ht.stop_unique (fun _ _ => EncStep.interval) (fun _ _ _ => EncStep.unique) hu hstop
  generalize n - m = k at hrest
  cases hrest with
  | refl => simp [hk] at hstop
  | cons hst _ => exact not_encStep_of_full hk hf hst

/-- Where its micro-steps meet a full counter at an E3 case, `ENC_SYM` is cancelled (R206, R208). -/
theorem exec_encSym_of_full {x n : Nat} {e : Entry} {s s₁ u : State} (hp : s.ph = .enc) (hP : 2 ≤ s.cfg.prec)
    (he : s.model.bySymbol x = some e) (hi : hasInterval s = true) (hn : narrow e s = some s₁) (hl : s₁.low ≤ s.cfg.top)
    (hs : Steps EncStep n s₁ u) (hk : renormCase u = .e3) (hf : pendFull u = true) :
    exec (.encSym x) s = .next (raise .pendingOverflow s) := by
  rcases exec_encSym_cases hp hP he hi hn hl with ⟨_, _, _, hdone, hstop, _⟩ | ⟨_, _, _, _, _, _, hx⟩
  · exact absurd hstop (hdone.not_stop_of_full hs hk hf)
  · exact hx

/-- Only a bounded counter overflows. -/
theorem Raises.pendMax_ne_none {i : Instr} {s : State} (h : Raises i .pendingOverflow s) : s.cfg.pendMax ≠ none := by
  cases h with
  | @symbolOverflow _ _ _ _ _ u _ _ _ hn hs _ hf =>
    have hcfg : u.cfg = s.cfg := by rw [narrow_enc_frame hn hs]
    rw [pendFull_eq_true_iff, hcfg] at hf
    simp [hf]
  | flushOverflow _ hf =>
    rw [pendFull_eq_true_iff] at hf
    simp [hf]

/-! ### The checks of the init commands (R201, R202) -/

/-- An accepted init command is a session start. -/
theorem exec_init_eq_openSession {i : Instr} {s : State} (hi : i = .encInit ∨ i = .decInit) (ha : accepts i s.ph = true) :
    ∃ start, exec i s = openSession start s := by
  rcases hi with rfl | rfl
  · exact ⟨startEncoder, exec_encInit ha⟩
  · exact ⟨startDecoder, exec_decInit ha⟩

/-- The phases between sessions accept both init commands (R90). -/
theorem accepts_init {i : Instr} {ph : Phase} (hi : i = .encInit ∨ i = .decInit)
    (hp : ph = .idle ∨ ph = .encDone ∨ ph = .decDone) : accepts i ph = true := by
  rcases hi with rfl | rfl <;> simpa [accepts, or_assoc] using hp

/-! ### The obligations -/

/-- Settles O14 (R208): a command gets to `FAULT` only by `raise`, which writes `PH` and `ERR`. -/
theorem faultsArePrecise : Obligations.FaultsArePrecise := by
  unfold Obligations.FaultsArePrecise
  intro i s t hp h ht
  obtain ⟨k, -, rfl⟩ := (exec_next h).raised_of_fault hp ht
  exact ⟨k, rfl, conv_of_fault ht⟩

/-- Settles O15 (R209), by induction on the queue: in `FAULT` a word that is not `RESET`'s is taken off and changes nothing
else. -/
theorem faultIsSticky : Obligations.FaultIsSticky := by
  unfold Obligations.FaultIsSticky
  intro s words hp hwords hb
  induction words generalizing s with
  | nil =>
    have hs : s = { s with inbox := [] } := by rw [← show s.inbox = [] from hb]
    exact congrArg Host.Outcome.next hs
  | cons w ws ih =>
    obtain ⟨hw, hws⟩ := List.forall_mem_cons.1 hwords
    have hstep : step s = .next { s with inbox := ws.map HostAction.command } := (illegalWordsRaise s w _ hb).2 hp hw
    exact (run_succ_of_step hstep ws.length).trans (ih { s with inbox := ws.map HostAction.command } hp hws rfl)

/-- Settles O19 (R206): the flush tests the counter first; `ENC_SYM`'s steps are stuck at a full counter; and what raises
`PendingOverflow` is a full counter, which has a bound. -/
theorem pendingOverflowRaises : Obligations.PendingOverflowRaises := by
  unfold Obligations.PendingOverflowRaises
  refine ⟨fun s hp hf => ?_, fun s s₁ u x e n hP hp hlh h0 he hn hl hs hk hf => ?_, fun i s t hinf hp h ht herr => ?_⟩
  · exact (exec_encFlush hp).trans (encFlushBody_full hf)
  · exact exec_encSym_of_full hp hP he (hasInterval_iff.2 ⟨hlh, h0⟩) hn hl hs hk (pendFull_eq_true_iff.2 hf)
  · obtain ⟨k, why, rfl⟩ := (exec_next h).raised_of_fault hp ht
    obtain rfl : k = .pendingOverflow := Option.some.inj herr
    exact why.pendMax_ne_none hinf

/-- Settles O17 (R201, R202): an accepted init command is a session start, whose two tests of the total come first. -/
theorem initChecksTotal : Obligations.InitChecksTotal := by
  unfold Obligations.InitChecksTotal
  intro i s hi hp
  obtain ⟨start, hx⟩ := exec_init_eq_openSession hi (accepts_init hi hp)
  rw [hx]
  exact ⟨openSession_emptyModel, fun _ => openSession_precisionOverflow⟩

/-- Settles O18 (R203, R204): where no entry matches, the lookup of the command finds none. -/
theorem failedLookupsRaise : Obligations.FailedLookupsRaise := by
  unfold Obligations.FailedLookupsRaise
  refine ⟨fun s x hp hx => ?_, fun s hp hlh h0 ht => ?_⟩
  · exact exec_encSym_of_bySymbol_none hp (bySymbol_eq_none_iff.2 hx)
  · exact exec_decSym_of_byTarget_none hp (hasInterval_iff.2 ⟨hlh, h0⟩) (byTarget_eq_none_iff.2 ht)

end Sys2Proof.Machine
end

section
/-! The reset event and power-on (70_reset_and_hazards.md). -/

namespace Sys2Proof.Machine

open Sys2Proof

/-! ### The two items of the host's queue R230 speaks of -/

/-- The engine waits while the host issues nothing (R230). -/
theorem step_of_inbox_nil {s : State} (hb : s.inbox = []) : step s = .next s := by
  simpa [hb] using step_cases s

/-- The reset line has the effect of `RESET` on what the queue then holds (R181, R230). -/
theorem step_resetLine {s : State} {rest : List HostAction} (hb : s.inbox = .resetLine :: rest) :
    step s = exec .reset { s with inbox := rest } := by
  change step s = .next (resetEngine { s with inbox := rest })
  simpa [hb] using step_cases s

/-! ### The obligation -/

/-- Settles O11 (R230): the power-on state is an idle engine before any session (R41) whose queue is empty. -/
theorem resetEventAndPowerOn : Obligations.ResetEventAndPowerOn := by
  unfold Obligations.ResetEventAndPowerOn
  refine ⟨fun s rest => step_resetLine, fun c => ?_⟩
  exact ⟨rfl, rfl, readPort_of_idle rfl rfl, holdsValue_none_iff, encoderResult_of_idle rfl, decoderResult_of_idle rfl,
    step_of_inbox_nil rfl⟩

end Sys2Proof.Machine
end

section
/-! The encoding of the commands (30_encoding.md R80 to R84): the decoder against the encoder, against the match and mask
columns of R81's table, and against the rules that make a word illegal. -/

namespace Sys2Proof.Machine

open Sys2Proof

/-! ### The table's columns, field by field (R81) -/

theorem opField_and (a b : Word) : opField (a &&& b) = opField a &&& opField b := BitVec.extractLsb'_and

theorem argField_and (a b : Word) : argField (a &&& b) = argField a &&& argField b := BitVec.extractLsb'_and

theorem opField_maskBits (i : Instr) : opField i.maskBits = BitVec.allOnes 8 := by
  cases i <;> simp only [Instr.maskBits] <;> decide

theorem opField_matchBits (i : Instr) : opField i.matchBits = i.opcode := by
  cases i <;> simp only [Instr.matchBits, Instr.opcode] <;> decide

theorem argField_matchBits (i : Instr) : argField i.matchBits = 0 := by
  cases i <;> simp only [Instr.matchBits] <;> decide

/-- A word has the table's bits exactly when it has the command's opcode and zeros where the mask covers the operand field. -/
theorem and_maskBits_eq_matchBits_iff {cw : Word} {i : Instr} :
    cw &&& i.maskBits = i.matchBits ↔ opField cw = i.opcode ∧ argField cw &&& argField i.maskBits = 0 := by
  have hop : opField (cw &&& i.maskBits) = opField cw := by rw [opField_and, opField_maskBits, BitVec.and_allOnes]
  constructor
  · intro h
    rw [← hop, ← argField_and, h]
    exact ⟨opField_matchBits i, argField_matchBits i⟩
  · rintro ⟨ho, ha⟩
    apply word_ext
    · rw [hop, ho, opField_matchBits]
    · rw [argField_and, ha, argField_matchBits]

/-! ### The operand field of a command (R82, R83) -/

theorem arg_encSym_toNat {x : Nat} (h : x < 2 ^ 24) : (Instr.encSym x).arg.toNat = x :=
  (BitVec.toNat_ofNat x 24).trans (Nat.mod_eq_of_lt h)

/-- A word no rule of R82 to R84 makes illegal has a command. -/
theorem decode_ok_of_not_illegalEncoding {n : Nat} {cw : Word} (h : ¬ IllegalEncoding n cw) : ∃ i, decode n cw = .ok i := by
  simp only [IllegalEncoding, not_or, not_and, not_not, Nat.not_le] at h
  obtain ⟨hlisted, hzero, hnarrow⟩ := h
  simp only [← opField_toNat, ← argField_toNat] at hlisted hzero hnarrow
  have plain : ∀ i : Instr, i.wf n = true → (∀ x, i ≠ .encSym x) → (opField cw).toNat = i.opcode.toNat →
      ∃ i, decode n cw = .ok i := by
    intro i hwf hi hop
    refine ⟨i, decode_ok_iff.2 ⟨hop, hwf, ?_⟩⟩
    cases i with
    | encSym x => exact absurd rfl (hi x)
    | nop | reset | encInit | encFlush | decInit | decSym => exact hzero (by rw [hop]; decide)
  simp only [List.mem_cons, List.not_mem_nil, or_false] at hlisted
  rcases hlisted with h | h | h | h | h | h | h
  · exact plain .nop rfl nofun h
  · exact plain .reset rfl nofun h
  · exact plain .encInit rfl nofun h
  · refine ⟨.encSym (argField cw).toNat, decode_ok_iff.2 ⟨h, ?_, rfl⟩⟩
    simp only [Instr.wf, Bool.and_eq_true, decide_eq_true_eq]
    exact ⟨hnarrow h, (argField cw).isLt⟩
  · exact plain .encFlush rfl nofun h
  · exact plain .decInit rfl nofun h
  · exact plain .decSym rfl nofun h

/-! ### The obligations -/

/-- Settles O2 (R80 to R83): the fields of an encoded command are its opcode and its operand, which the decoder reads back. -/
theorem decodeInvertsEncode : Obligations.DecodeInvertsEncode := by
  unfold Obligations.DecodeInvertsEncode
  intro n i hwf
  refine decode_ok_iff.2 ⟨by rw [opField_encode], hwf, ?_⟩
  rw [argField_encode]
  cases i with
  | encSym x =>
    simp only [Instr.wf, Bool.and_eq_true, decide_eq_true_eq] at hwf
    exact arg_encSym_toNat hwf.2
  | nop | reset | encInit | encFlush | decInit | decSym => rfl

/-- Settles O3 (R81): the mask covers the whole word, or, for `ENC_SYM`, the opcode field only. -/
theorem decodeAgreesWithMatchAndMask : Obligations.DecodeAgreesWithMatchAndMask := by
  unfold Obligations.DecodeAgreesWithMatchAndMask
  intro n cw i
  rw [decode_ok_iff, and_maskBits_eq_matchBits_iff, ← BitVec.toNat_inj, ← argField_toNat, and_assoc]
  refine and_congr_right fun _ => ?_
  cases i with
  | encSym x =>
    have hmask : argField (Instr.encSym x).maskBits = 0 := by simp only [Instr.maskBits]; decide
    simp [hmask]
  | nop | reset | encInit | encFlush | decInit | decSym =>
    have hmask : argField 0xFFFFFFFF#32 = BitVec.allOnes 24 := by decide
    rw [Instr.maskBits, hmask, BitVec.and_allOnes, ← BitVec.toNat_inj]
    simp [Instr.wf]

/-- Settles O4 (R82 to R84): a word is illegal by the rules or some command's. -/
theorem illegalWordsAreRejected : Obligations.IllegalWordsAreRejected := by
  unfold Obligations.IllegalWordsAreRejected
  intro n cw
  refine ⟨fun ⟨why, hd⟩ => ?_, decode_error_of_illegalEncoding⟩
  by_contra hlegal
  obtain ⟨i, hok⟩ := decode_ok_of_not_illegalEncoding hlegal
  simp [hok] at hd

/-- Settles O1 (R81, R86): eleven words, each decoded by evaluation. -/
theorem tableWordsDecode : Obligations.TableWordsDecode := by
  unfold Obligations.TableWordsDecode
  decide

end Sys2Proof.Machine
end

section
/-! The host's queue (30_encoding.md R39, R80, R87; 20_memory.md R55): a word runs as its command, a queue of words as the
commands issued in order, and a write of the host's spaces takes effect between sessions. -/

namespace Sys2Proof.Machine

open Sys2Proof

/-! ### What commands leave to the host (R50, R55) -/

/-- No command writes the parameters, the table, the source or the queue. -/
theorem Effect.hostSpaces {i : Instr} {s t : State} (h : Effect i s t) :
    t.cfg = s.cfg ∧ t.model = s.model ∧ t.inp = s.inp ∧ t.inbox = s.inbox := by
  cases h with
  | nop | reset | ignored | raised | encInit | encFlush | decSentinel => exact ⟨rfl, rfl, rfl, rfl⟩
  | decInit => simp [startDecoder_eq]
  | encSym _ _ _ hn _ hs =>
    rw [endEncSym_eq, narrow_enc_frame hn hs]
    exact ⟨rfl, rfl, rfl, rfl⟩
  | decSymbol _ _ _ _ hn _ hs =>
    rw [narrow_dec_frame hn hs]
    exact ⟨rfl, rfl, rfl, rfl⟩

/-! ### Issuing a command does not look at the queue (R39) -/

/-- The same state with another queue. -/
def withInbox (b : List HostAction) (s : State) : State := { s with inbox := b }

@[simp] theorem withInbox_ph (b : List HostAction) (s : State) : (withInbox b s).ph = s.ph := rfl

theorem withInbox_withInbox (b c : List HostAction) (s : State) : withInbox b (withInbox c s) = withInbox b s := rfl

theorem illegalWord_withInbox (b : List HostAction) (s : State) :
    illegalWord (withInbox b s) = withInbox b (illegalWord s) := by
  unfold illegalWord
  rw [withInbox_ph]
  split_ifs <;> rfl

/-- An answer whose next state has another queue. -/
def Result.withInbox (b : List HostAction) : Result → Result
  | .next t => .next (Machine.withInbox b t)
  | .fault f => .fault f
  | .refused r => .refused r

theorem exec_withInbox (i : Instr) (b : List HostAction) (s : State) :
    exec i (withInbox b s) = Result.withInbox b (exec i s) := by
  have h := exec_reframe i b (p := s.inp) (s := s) fun _ => rfl
  have hs : reframe s.inp b s = withInbox b s := rfl
  rw [hs] at h
  rw [h]
  cases hx : exec i s with
  | next t =>
    obtain ⟨-, -, hinp, -⟩ := (exec_next hx).hostSpaces
    simp only [Result.withInbox, reframe, Machine.withInbox, ← hinp]
  | fault | refused => rfl

theorem issueCommand_withInbox (i : Instr) (b : List HostAction) (s : State) :
    issueCommand i (withInbox b s) = Result.withInbox b (issueCommand i s) := by
  have hcfg : (withInbox b s).cfg = s.cfg := rfl
  simp only [issueCommand_eq, hcfg, exec_withInbox, illegalWord_withInbox]
  split_ifs <;> rfl

/-- A step on the word of a command is the command issued, the queue being what follows the word. -/
theorem step_eq_issueCommand_withInbox {s : State} {rest : List HostAction} {i : Instr} (hw : i.hasWord = true)
    (hb : s.inbox = .command (encode i) :: rest) :
    step s = Result.withInbox rest (issueCommand i (withInbox [] s)) := by
  rw [step_issue hw hb, ← issueCommand_withInbox]
  rfl

/-- Issuing a command leaves the queue as it is. -/
theorem issueCommand_inbox {i : Instr} {s t : State} (h : issueCommand i s = .next t) : t.inbox = s.inbox := by
  rw [issueCommand_eq] at h
  split_ifs at h with hwf
  · exact (exec_next h).hostSpaces.2.2.2
  · rw [← next_inj h, illegalWord]
    split_ifs <;> rfl

/-- Only `RESET` has the word of `RESET` (R81). -/
theorem encode_ne_reset_word {i : Instr} (hi : i ≠ .reset) : encode i ≠ 0x01000000#32 := by
  intro h
  have hop : i.opcode = 0x01#8 := by
    rw [← opField_encode, h]
    decide
  cases i with
  | reset => exact hi rfl
  | nop | encInit | encSym | encFlush | decInit | decSym => simp [Instr.opcode] at hop

/-! ### Runs that stop -/

theorem run_succ_of_fault {s : State} {f : Fault} (h : step s = .fault f) (k : Nat) :
    Sys2Proof.core.run (k + 1) s = .fault f := by
  have hcore : Sys2Proof.core.step s = .fault f := h
  simp only [Host.Core.run, hcore]

theorem run_succ_of_refused {s : State} {r : Refusal} (h : step s = .refused r) (k : Nat) :
    Sys2Proof.core.run (k + 1) s = .refused r := by
  have hcore : Sys2Proof.core.step s = .refused r := h
  simp only [Host.Core.run, hcore]

/-! ### A queue of words -/

/-- The steps of a queue of words are the commands issued one after another, by induction on the commands: a step is the
command issued (R80), and after a fault the words that are left are ignored (R209). -/
theorem run_eq_runCommands (is : List Instr) (s : State) (his : ∀ i ∈ is, i.hasWord = true ∧ i ≠ .reset)
    (hb : s.inbox = is.map (fun i => HostAction.command (encode i))) :
    Sys2Proof.core.run is.length s = runCommands is (withInbox [] s) := by
  induction is generalizing s with
  | nil =>
    have hs : s = withInbox [] s := by rw [withInbox, ← show s.inbox = [] from hb]
    exact congrArg Host.Outcome.next hs
  | cons i is ih =>
    obtain ⟨⟨hw, -⟩, his'⟩ := List.forall_mem_cons.1 his
    have hstep := step_eq_issueCommand_withInbox hw hb
    simp only [runCommands]
    cases hx : issueCommand i (withInbox [] s) with
    | fault f => exact run_succ_of_fault (hstep.trans (by rw [hx]; rfl)) is.length
    | refused r => exact run_succ_of_refused (hstep.trans (by rw [hx]; rfl)) is.length
    | next t =>
      rw [hx] at hstep
      have ht : withInbox [] t = t := by
        have := issueCommand_inbox hx
        rw [withInbox, ← show t.inbox = [] from this]
      rw [List.length_cons, run_succ_of_step hstep]
      by_cases hp : t.ph = .fault
      · have hwords : ∀ w ∈ is.map encode, w ≠ 0x01000000#32 := by
          intro w hmem
          obtain ⟨j, hj, rfl⟩ := List.mem_map.1 hmem
          exact encode_ne_reset_word (his' j hj).2
        have hsticky := faultIsSticky (withInbox (is.map fun i => HostAction.command (encode i)) t) (is.map encode) hp hwords
          (by rw [List.map_map]; rfl)
        rw [List.length_map] at hsticky
        simp only [if_pos hp]
        exact hsticky.trans (congrArg Host.Outcome.next ht)
      · simp only [if_neg hp]
        rw [ih _ his' rfl, withInbox_withInbox, ht]

/-! ### The obligations -/

/-- Settles O5 (R39, R80): the decoded command runs on what the queue then holds. -/
theorem stepRunsDecodedCommand : Obligations.StepRunsDecodedCommand := by
  unfold Obligations.StepRunsDecodedCommand
  intro s cw rest i hb hd
  exact step_ok hb hd

/-- Settles O20 (R50, R55): none of the effects a command can have writes them. -/
theorem commandsLeaveHostSpaces : Obligations.CommandsLeaveHostSpaces := by
  unfold Obligations.CommandsLeaveHostSpaces
  intro i s t h
  exact (exec_next h).hostSpaces

/-- Settles O8 (R87, R88, R39). -/
theorem queueRunsAsIssued : Obligations.QueueRunsAsIssued := by
  unfold Obligations.QueueRunsAsIssued
  intro s is his hb
  exact run_eq_runCommands is s his hb

/-- Settles O21 (R50, R55, R233): a write asks for the phase only. -/
theorem hostWritesBetweenSessions : Obligations.HostWritesBetweenSessions := by
  unfold Obligations.HostWritesBetweenSessions
  intro s m bits rest
  have hm : s.inbox = .loadModel m :: rest → step s = loadModel m { s with inbox := rest } := fun hb => by
    simp only [step, takeAction, hb]
  have hs : s.inbox = .loadSource bits :: rest → step s = loadSource bits { s with inbox := rest } := fun hb => by
    simp only [step, takeAction, hb]
  refine ⟨fun hp => ?_, fun hp => ?_⟩
  · have hin : s.ph.inSession = true := by rcases hp with h | h | h <;> rw [h] <;> rfl
    exact ⟨fun hb => (hm hb).trans (if_pos hin), fun hb => (hs hb).trans (if_pos hin)⟩
  · have hout : ¬ s.ph.inSession = true := by rcases hp with h | h | h | h <;> rw [h] <;> decide
    exact ⟨fun hb => (hm hb).trans (if_neg hout), fun hb => (hs hb).trans (if_neg hout)⟩

end Sys2Proof.Machine
end

section
/-! The register port and `STATUS` (10_state.md R29 to R37): which registers a session's kind shows, and the layout of the
status word. -/

namespace Sys2Proof.Machine

open Sys2Proof

/-! ### The port (R36, R37) -/

theorem readPort_of_holds {s : State} {draw i v : Nat} (hr : registerValue s i = some v) (hh : holdsValue s.held i = true) :
    readPort s draw i = some v := by
  simp [readPort, hr, hh]

theorem readPort_of_not_holds {s : State} {draw i v : Nat} (hr : registerValue s i = some v)
    (hh : holdsValue s.held i = false) : readPort s draw i = some (Config.freeRead draw i) := by
  simp [readPort, hr, hh]

/-- The numbers of R36's registers. -/
theorem registerValue_isSome {s : State} {i : Nat} (hi : i ≤ 10) : ∃ v, registerValue s i = some v := by
  interval_cases i <;> exact ⟨_, rfl⟩

theorem registerValue_of_ge {s : State} {i : Nat} (hi : 11 ≤ i) : registerValue s i = none := by
  obtain ⟨j, rfl⟩ := Nat.exists_eq_add_of_le' hi
  rfl

/-- Raising a fault writes `STATUS` alone (R208). -/
theorem registerValue_raise {s : State} {i : Nat} (k : EngineFault) (hi : i ≠ 1) :
    registerValue (raise k s) i = registerValue s i := by
  rcases Nat.lt_or_ge i 11 with hlt | hge
  · obtain rfl | h2 : i = 0 ∨ 2 ≤ i := by omega
    · rfl
    · interval_cases i <;> rfl
  · rw [registerValue_of_ge hge, registerValue_of_ge hge]

/-- Only `STATUS` shows that a fault was raised. -/
theorem readPort_raise {s : State} {draw i : Nat} (k : EngineFault) (hi : i ≠ 1) :
    readPort (raise k s) draw i = readPort s draw i := by
  rw [readPort, readPort, registerValue_raise k hi, raise_held]

/-! ### Whose registers hold a value (R37) -/

/-- Outside `FAULT` the phase says it. -/
theorem Inv.held_of_phase {s : State} (h : Inv s) {p : Phase} (hp : s.ph = p) (hf : p ≠ .fault) : s.held = p.session := by
  rw [h.held_eq (hp ▸ hf), hp]

theorem Inv.held_encoder {s : State} (h : Inv s)
    (hp : s.ph = .enc ∨ s.ph = .encEos ∨ s.ph = .encDone ∨ (s.ph = .fault ∧ s.held = some .encoder)) :
    s.held = some .encoder := by
  rcases hp with hp | hp | hp | ⟨-, hh⟩
  · exact h.held_of_phase hp (by decide)
  · exact h.held_of_phase hp (by decide)
  · exact h.held_of_phase hp (by decide)
  · exact hh

theorem Inv.held_decoder {s : State} (h : Inv s)
    (hp : s.ph = .dec ∨ s.ph = .decDone ∨ (s.ph = .fault ∧ s.held = some .decoder)) : s.held = some .decoder := by
  rcases hp with hp | hp | ⟨-, hh⟩
  · exact h.held_of_phase hp (by decide)
  · exact h.held_of_phase hp (by decide)
  · exact hh

theorem Inv.held_none {s : State} (h : Inv s) (hp : s.ph = .idle ∨ (s.ph = .fault ∧ s.held = none)) : s.held = none := by
  rcases hp with hp | ⟨-, hh⟩
  · exact h.held_of_phase hp (by decide)
  · exact hh

/-! ### The status word (R29 to R32) -/

theorem conv_eq_true_iff {s : State} : conv s = true ↔ (s.ph = .enc ∨ s.ph = .encEos) ∧ 0 < s.pend := by simp [conv]

/-- The code of a phase fits its three bits. -/
theorem Phase.code_lt (ph : Phase) : ph.code < 2 ^ 3 := by cases ph <;> decide

/-- The code of an error fits its four bits. -/
theorem errCode_lt (err : Option EngineFault) : errCode err < 2 ^ 4 := by
  cases err with
  | none => decide
  | some k => cases k <;> decide

theorem statusWord_toNat (s : State) :
    (statusWord s).toNat = s.ph.code + 8 * errCode s.err + 128 * (conv s).toNat := by
  rw [statusWord, packStatus_toNat, BitVec.toNat_ofNat, BitVec.toNat_ofNat, Nat.mod_eq_of_lt s.ph.code_lt,
    Nat.mod_eq_of_lt (errCode_lt s.err)]

/-- The bits above `CONV` are 0: the value is below 2^8. -/
theorem statusWord_getLsbD_high (s : State) {j : Nat} (hj : 8 ≤ j) : (statusWord s).getLsbD j = false := by
  have hlt : (statusWord s).toNat < 2 ^ 8 := by
    have hp := s.ph.code_lt
    have he := errCode_lt s.err
    have hc := Bool.toNat_le (conv s)
    rw [statusWord_toNat]
    omega
  exact Nat.testBit_lt_two_pow (hlt.trans_le (Nat.pow_le_pow_right (by decide) hj))

/-! ### The obligations -/

/-- Settles O12 (R36, R37, R183): the kind of the session says what each register number shows. -/
theorem registerPortAndResults : Obligations.RegisterPortAndResults := by
  unfold Obligations.RegisterPortAndResults
  intro s draw hinv
  refine ⟨readPort_prec s draw, readPort_status s draw, fun hp => ?_, fun hp => ?_, fun hp i h2 h10 => ?_, fun i hi => ?_,
    fun k i => readPort_raise k, fun bits => ?_, fun syms => ?_⟩
  · have hh := hinv.held_encoder hp
    have holds : ∀ {i v}, registerValue s i = some v → i ∈ [0, 1, 2, 3, 4, 6, 7, 8] → readPort s draw i = some v :=
      fun hr hi => readPort_of_holds hr (by rw [hh]; exact (holdsValue_encoder_iff _).2 hi)
    refine ⟨holds rfl (by decide), holds rfl (by decide), holds rfl (by decide), holds rfl (by decide), holds rfl (by decide),
      holds rfl (by decide), ?_⟩
    rintro i (rfl | rfl | rfl) <;> exact readPort_of_not_holds rfl (by rw [hh]; decide)
  · have hh := hinv.held_decoder hp
    have holds : ∀ {i v}, registerValue s i = some v → i ∈ [0, 1, 2, 3, 5, 6, 7, 9, 10] → readPort s draw i = some v :=
      fun hr hi => readPort_of_holds hr (by rw [hh]; exact (holdsValue_decoder_iff _).2 hi)
    refine ⟨holds rfl (by decide), holds rfl (by decide), holds rfl (by decide), holds rfl (by decide), holds rfl (by decide),
      holds rfl (by decide), holds rfl (by decide), ?_⟩
    rintro i (rfl | rfl) <;> exact readPort_of_not_holds rfl (by rw [hh]; decide)
  · obtain ⟨v, hr⟩ := registerValue_isSome (s := s) h10
    refine readPort_of_not_holds hr ?_
    rw [hinv.held_none hp, ← Bool.not_eq_true, holdsValue_none_iff]
    omega
  · rw [readPort, registerValue_of_ge hi, Option.map_none]
  · by_cases hp : s.ph = .encDone <;> simp [encoderResult, hp, eq_comm]
  · by_cases hp : s.ph = .decDone <;> simp [decoderResult, hp, eq_comm]

/-- Settles O13 (R29 to R32, R163): the fields of the packed word, each wide enough for its code. -/
theorem statusWordFields : Obligations.StatusWordFields := by
  unfold Obligations.StatusWordFields
  refine ⟨rfl, rfl, fun s => ⟨packStatus_ph _ _ _, packStatus_err _ _ _, ?_, fun j => statusWord_getLsbD_high s,
    statusWord_toNat s, rfl, ?_⟩⟩
  · rw [statusWord, packStatus_conv, conv_eq_true_iff]
  · rintro (hp | hp) <;> simp [conv, hp]

end Sys2Proof.Machine
end

section
/-! What the commands may raise and what they leave alone (60_exceptions.md R200, R207; 20_memory.md R59 to R62;
41_encoder.md R129; 42_decoder.md R163), read off the effects a command can have. -/

namespace Sys2Proof.Machine

open Sys2Proof

/-! ### The effect of the symbol commands and the flush in their phases -/

/-- What a completed `ENC_SYM` did (R126, R127): it narrowed and took the encoder's steps to their end. -/
theorem encSym_completed {x : Nat} {s t : State} (hp : s.ph = .enc) (h : exec (.encSym x) s = .next t) (ht : t.ph ≠ .fault) :
    ∃ e s₁ n u, s.model.bySymbol x = some e ∧ hasInterval s = true ∧ narrow e s = some s₁ ∧ n ≤ s.cfg.prec ∧
      Steps EncStep n s₁ u ∧ renormCase u = .stop ∧ t = endEncSym x u := by
  cases exec_next h with
  | ignored hf => simp [hp] at hf
  | raised => exact absurd rfl ht
  | encSym _ he hi hn hle hs hk => exact ⟨_, _, _, _, he, hi, hn, hle, hs, hk, rfl⟩

/-- What a completed `DEC_SYM` did (R157, R158): it ended the session, or it narrowed and took the decoder's steps to their
end. -/
theorem decSym_completed {s t : State} (hp : s.ph = .dec) (h : exec .decSym s = .next t) (ht : t.ph ≠ .fault) :
    ∃ e, s.model.byTarget (targetNow s) = some e ∧ hasInterval s = true ∧
      ((e.symbol = s.sent ∧ t = { s with ph := .decDone }) ∨
       (e.symbol ≠ s.sent ∧ ∃ s₁ n, narrow e (symPut e.symbol s) = some s₁ ∧ n ≤ s.cfg.prec ∧ Steps DecStep n s₁ t ∧
        renormCase t = .stop)) := by
  cases exec_next h with
  | ignored hf => simp [hp] at hf
  | raised => exact absurd rfl ht
  | decSentinel _ hi he hx => exact ⟨_, he, hi, .inl ⟨hx, rfl⟩⟩
  | decSymbol _ hi he hx hn hle hs hk => exact ⟨_, he, hi, .inr ⟨hx, _, _, hn, hle, hs, hk⟩⟩

/-- What NARROW and the encoder's steps do to the sink and the counter (R129). -/
theorem narrow_enc_counts {e : Entry} {n : Nat} {s s₁ u : State} (hn : narrow e s = some s₁) (hs : Steps EncStep n s₁ u) :
    ∃ w, u.out = s.out ++ w ∧ u.outlen = s.outlen + w.length ∧ w.length + u.pend = s.pend + n := by
  obtain ⟨hw, -⟩ := hs.encCounts
  rw [(narrow_eq_some.1 hn).2] at hw
  exact hw

/-- Zeros past the end of a source are read as zeros (R60). -/
theorem getD_append_zeros (l : List Bool) (k i : Nat) : (l ++ List.replicate k false).getD i false = l.getD i false := by
  rcases Nat.lt_or_ge i l.length with h | h
  · rw [List.getD_append _ _ _ _ h]
  · rw [List.getD_append_right _ _ _ _ h, List.getD_eq_default _ _ h, List.getD_eq_getElem?_getD,
      List.getElem?_getD_replicate_default_eq]

/-! ### The obligations -/

/-- Settles O16 (R200, R207): a command that raises had a reason, and each reason is some commands'. -/
theorem faultKindsPerCommand : Obligations.FaultKindsPerCommand := by
  unfold Obligations.FaultKindsPerCommand
  intro i s t k hp h ht hk
  obtain ⟨k', why, rfl⟩ := (exec_next h).raised_of_fault hp ht
  obtain rfl : k' = k := Option.some.inj hk
  cases why with
  | phase ha =>
    cases i with
    | nop | reset => simp [accepts] at ha
    | encInit | encSym | encFlush | decInit | decSym => exact .inl rfl
  | emptyModel hi => rcases hi with rfl | rfl <;> exact .inr (.inl rfl)
  | precision hi => rcases hi with rfl | rfl <;> exact .inr (.inr rfl)
  | unknownSymbol => exact .inr (.inl rfl)
  | symbolOverflow => exact .inr (.inr rfl)
  | flushOverflow => exact .inr rfl
  | decodeRange => exact .inr rfl

/-- Settles O22 (R59 to R61): what each effect appends, and how far it moves the cursor. -/
theorem sequencesOnlyGrow : Obligations.SequencesOnlyGrow := by
  unfold Obligations.SequencesOnlyGrow
  intro i s t hreset henc hdec h
  have noBits : ∃ w, s.out = s.out ++ w ∧ s.outlen = s.outlen + w.length := ⟨[], by simp⟩
  have noSymbol : ∃ v, s.symout = s.symout ++ v ∧ s.symlen = s.symlen + v.length ∧ v.length ≤ 1 := ⟨[], by simp⟩
  cases exec_next h with
  | reset => exact absurd rfl hreset
  | encInit => exact absurd rfl henc
  | decInit => exact absurd rfl hdec
  | nop | ignored | raised | decSentinel => exact ⟨noBits, noSymbol, Nat.le_refl _⟩
  | encFlush b => exact ⟨⟨b :: List.replicate (s.pend + 1) (!b), rfl, by simp⟩, noSymbol, Nat.le_refl _⟩
  | encSym _ _ _ hn _ hs =>
    obtain ⟨w, hout, hlen, -⟩ := narrow_enc_counts hn hs
    rw [endEncSym_eq, narrow_enc_frame hn hs]
    exact ⟨⟨w, hout, hlen⟩, noSymbol, Nat.le_refl _⟩
  | @decSymbol e _ _ _ _ _ _ _ _ hn _ hs =>
    rw [narrow_dec_frame hn hs]
    exact ⟨noBits, ⟨[e.symbol], rfl, rfl, Nat.le_refl _⟩, Nat.le_add_right _ _⟩

/-- Settles O23 (R60, R62): a command reads the bits of the source, and past its end zeros. -/
theorem zeroPaddingIsInvisible : Obligations.ZeroPaddingIsInvisible := by
  unfold Obligations.ZeroPaddingIsInvisible
  intro i s k
  have hpad : padSource k s = reframe (s.inp ++ List.replicate k false) s.inbox s := rfl
  rw [hpad, exec_reframe i s.inbox (getD_append_zeros s.inp k)]
  cases hx : exec i s with
  | next t =>
    obtain ⟨-, -, hinp, hinbox⟩ := (exec_next hx).hostSpaces
    simp only [Result.Related, reframe, padSource, hinp, ← hinbox]
  | fault | refused => exact rfl

/-- Settles O51 (R126, R127, R157, R158, R163): the frames of NARROW and the steps, with what the end of the command adds. -/
theorem symbolCommandFrames : Obligations.SymbolCommandFrames := by
  unfold Obligations.SymbolCommandFrames
  refine ⟨fun s t x hp h ht => ?_, fun s t hp h ht => ?_⟩
  · obtain ⟨e, s₁, n, u, -, -, hn, -, hs, -, rfl⟩ := encSym_completed hp h ht
    obtain ⟨w, hout, -, -⟩ := narrow_enc_counts hn hs
    have hframe := narrow_enc_frame hn hs
    refine ⟨?_, fun j hj => ?_⟩
    · rw [endEncSym_eq, hframe]
    · rw [endEncSym_eq, hout, List.getElem?_append_left hj]
  · obtain ⟨e, -, -, ⟨-, rfl⟩ | ⟨-, s₁, n, hn, -, hs, -⟩⟩ := decSym_completed hp h ht
    · exact ⟨rfl, fun _ => rfl, fun _ _ => rfl⟩
    · have hframe := narrow_dec_frame hn hs
      refine ⟨?_, fun hdone => ?_, fun j hj => ?_⟩
      · rw [hframe]
      · rw [hframe, hp] at hdone
        cases hdone
      · rw [hframe, List.getElem?_append_left hj]

/-- Settles O41 (R129, R239): the count of written and pending bits along the steps, and what the flush appends. -/
theorem everyStepIsOneBit : Obligations.EveryStepIsOneBit := by
  unfold Obligations.EveryStepIsOneBit
  refine ⟨fun s t hst => ?_, fun s t x hp h ht => ?_, fun s t hp h ht => ?_⟩
  · obtain ⟨⟨w, -, hlen, hcount⟩, -⟩ := (Steps.cons hst (.refl t)).encCounts
    omega
  · obtain ⟨e, s₁, n, u, he, -, hn, hle, hs, hk, rfl⟩ := encSym_completed hp h ht
    obtain ⟨w, -, hlen, hcount⟩ := narrow_enc_counts hn hs
    have hsent : u.sent = s.sent := by rw [narrow_enc_frame hn hs]
    have hend : endEncSym x u = if x = s.sent then { u with ph := .encEos } else u := by rw [← hsent, endEncSym]
    refine ⟨e, s₁, n, u, he, hn, hs, hk, hend, hle, ?_⟩
    simp only [endEncSym_eq]
    omega
  · cases exec_next h with
    | ignored hf => simp [hp] at hf
    | raised => exact absurd rfl ht
    | encFlush => exact ⟨rfl, rfl⟩

end Sys2Proof.Machine
end

section
/-! Tables, NARROW over a table, and packing (20_memory.md R52, R58, R62; 40_interval.md R100, R101; 42_decoder.md R151). -/

namespace Sys2Proof.Machine

open Sys2Proof

/-! ### The model builder (R58) -/

/-- The entries of the built table list the counts of the text with one sentinel more. -/
theorem modelBuiltFrom_entries (text : List Nat) (sentinel : Nat) :
    (modelBuiltFrom text sentinel).entries.map (fun e => (e.symbol, e.frequency)) = symbolCounts (sentinel :: text) :=
  (runningRanges_entries 0 (symbolCounts (sentinel :: text))).1

theorem modelBuiltFrom_total (text : List Nat) (sentinel : Nat) :
    (modelBuiltFrom text sentinel).total = text.length + 1 :=
  (symbolCounts_spec (sentinel :: text)).2.2.1

/-- The frequency of an entry of the built table is the count of its symbol. -/
theorem frequency_eq_count {text : List Nat} {sentinel : Nat} {e : Entry} (he : e ∈ (modelBuiltFrom text sentinel).entries) :
    e.frequency = (sentinel :: text).count e.symbol ∧ 1 ≤ e.frequency := by
  obtain ⟨hasc, hpos, -, hcount⟩ := symbolCounts_spec (sentinel :: text)
  have hmem : (e.symbol, e.frequency) ∈ symbolCounts (sentinel :: text) := by
    rw [← modelBuiltFrom_entries]
    exact List.mem_map_of_mem (f := fun e : Entry => (e.symbol, e.frequency)) he
  exact ⟨by rw [← hcount, countIn_of_mem hasc hmem], hpos _ hmem⟩

/-- Every symbol of the text, and the sentinel, has an entry of the built table. -/
theorem exists_entry_of_mem {text : List Nat} {sentinel x : Nat} (hx : x ∈ sentinel :: text) :
    ∃ e ∈ (modelBuiltFrom text sentinel).entries, e.symbol = x := by
  obtain ⟨-, -, -, hcount⟩ := symbolCounts_spec (sentinel :: text)
  have hmem := mem_of_countIn_pos (by rw [hcount x]; exact List.count_pos_iff.2 hx)
  rw [← modelBuiltFrom_entries] at hmem
  obtain ⟨e, he, heq⟩ := List.mem_map.1 hmem
  exact ⟨e, he, congrArg Prod.fst heq⟩

/-- The symbols of the built table ascend strictly. -/
theorem modelBuiltFrom_ascending (text : List Nat) (sentinel : Nat) :
    (modelBuiltFrom text sentinel).entries.Pairwise (fun a b => a.symbol < b.symbol) := by
  have hasc := (symbolCounts_spec (sentinel :: text)).1
  rw [← modelBuiltFrom_entries, List.pairwise_map] at hasc
  exact hasc

/-- In a list of entries whose symbols ascend a symbol that has an entry has one. -/
theorem filter_symbol_length_eq_one {es : List Entry} (hasc : es.Pairwise (fun a b => a.symbol < b.symbol)) {x : Nat}
    (hx : ∃ e ∈ es, e.symbol = x) : (es.filter (fun e => e.symbol == x)).length = 1 := by
  have hnodup : (es.map Entry.symbol).Nodup := List.pairwise_map.2 (hasc.imp fun h => Nat.ne_of_lt h)
  have hcount := List.count_eq_one_of_mem hnodup (List.mem_map.2 hx)
  rw [List.count, List.countP_map] at hcount
  rw [← List.countP_eq_length_filter]
  exact hcount

theorem modelBuiltFrom_wf (text : List Nat) (sentinel : Nat) : (modelBuiltFrom text sentinel).WF := by
  have hends := (runningRanges_entries 0 (symbolCounts (sentinel :: text))).2
  have hsentinel := exists_entry_of_mem (text := text) (x := sentinel) List.mem_cons_self
  refine ⟨?_, ?_, fun e he => ⟨(frequency_eq_count he).2, hends e he⟩, modelBuiltFrom_ascending text sentinel,
    filter_symbol_length_eq_one (modelBuiltFrom_ascending text sentinel) hsentinel, ?_⟩
  · obtain ⟨e, he, -⟩ := hsentinel
    exact List.ne_nil_of_mem he
  · have htiles := runningRanges_tiles 0 (symbolCounts (sentinel :: text))
    rw [Nat.zero_add] at htiles
    exact htiles
  · rw [modelBuiltFrom_total]
    exact Nat.succ_pos _

/-! ### NARROW at the ends of an interval (R100) -/

theorem narrowLow_zero (low high total : Nat) : narrowLow low high total 0 = low := by simp [narrowLow]

theorem narrowLow_total {low high total : Nat} (h0 : 0 < total) (hlh : low ≤ high) :
    narrowLow low high total total = high + 1 := by
  rw [narrowLow, Nat.mul_div_cancel _ h0, rangeOf]
  omega

theorem rangeOf_eq {low high : Nat} (hlh : low ≤ high) : rangeOf low high = high - low + 1 := by
  rw [rangeOf]
  omega

/-- Where NARROW answers, the entry's part starts and ends at the images of the ends of its range. -/
theorem narrow_ends {e : Entry} {s t : State} (h : narrow e s = some t) :
    t.low = narrowLow s.low s.high s.total e.cl ∧ t.high + 1 = narrowLow s.low s.high s.total e.ch := by
  obtain ⟨hne, rfl⟩ := narrow_eq_some.1 h
  rw [← narrowEnd_eq_narrowLow]
  exact ⟨rfl, Nat.sub_add_cancel (Nat.one_le_of_lt hne)⟩

/-! ### Bits of the number a sequence writes (R62) -/

theorem bitsFrom_testBit (S : Nat → Bool) (k n : Nat) {i : Nat} (hi : i < n) :
    (bitsFrom S k n).testBit (n - 1 - i) = S (k + i) := by
  induction n with
  | zero => exact absurd hi (Nat.not_lt_zero _)
  | succ n ih =>
    rw [bitsFrom, Nat.add_sub_cancel]
    rcases Nat.lt_succ_iff_lt_or_eq.1 hi with hlt | rfl
    · have hstep : n - i = (n - 1 - i) + 1 := by omega
      have hdiv : (2 * bitsFrom S k n + (S (k + n)).toNat) / 2 = bitsFrom S k n := by
        have := Bool.toNat_le (S (k + n))
        omega
      rw [hstep, Nat.testBit_add_one, hdiv, ih hlt]
    · rw [Nat.sub_self, Nat.testBit_zero]
      cases S (k + i) <;> simp

/-- Accumulating bits from the left writes the number of the sequence. -/
theorem foldl_range_eq_bitsFrom (S : Nat → Bool) (k n : Nat) :
    (List.range n).foldl (fun acc i => 2 * acc + (S (k + i)).toNat) 0 = bitsFrom S k n := by
  induction n with
  | zero => rfl
  | succ n ih => rw [List.range_succ, List.foldl_append, ih]; rfl

/-- Bit `7 - r` of a packed byte is its `r`-th bit. -/
theorem packedByte_getLsbD (bits : List Bool) (j : Nat) {r : Nat} (hr : r < 8) :
    (packedByte bits j).getLsbD (7 - r) = bits.getD (8 * j + r) false := by
  rw [packedByte, foldl_range_eq_bitsFrom (fun i => bits.getD i false), BitVec.getLsbD_ofNat,
    bitsFrom_testBit _ _ _ hr, decide_eq_true (show 7 - r < 8 by omega), Bool.true_and]

/-! ### The obligations -/

/-- Settles O26 (R52): ranges that tile. -/
theorem wellFormedRangesPartition : Obligations.WellFormedRangesPartition := by
  unfold Obligations.WellFormedRangesPartition
  rintro m ⟨-, htiles, hfreq, -⟩
  refine ⟨fun e he => ((tiles_bounds htiles hfreq).2 e he).2, fun t ht => ?_⟩
  exact tiles_image_cover (f := id) (fun h => h) htiles hfreq t (Nat.zero_le _) ht

/-- Settles O27 (R58): the entries of the built table are the counts of the text. -/
theorem builderMakesWellFormedTable : Obligations.BuilderMakesWellFormedTable := by
  unfold Obligations.BuilderMakesWellFormedTable
  intro text sentinel
  have hw := modelBuiltFrom_wf text sentinel
  refine ⟨hw, modelBuiltFrom_total text sentinel, rfl, fun x hx => ?_, fun x hx => ?_⟩
  · obtain ⟨e, he, rfl⟩ := exists_entry_of_mem hx
    exact ⟨e, hw.bySymbol_eq he, (frequency_eq_count he).1⟩
  · refine bySymbol_eq_none_iff.2 fun e he hex => hx ?_
    obtain ⟨hcount, hpos⟩ := frequency_eq_count he
    rw [← hex]
    exact List.count_pos_iff.1 (hcount ▸ hpos)

/-- Settles O28 (R62): a packed byte is the number its eight bits write. -/
theorem packingOrder : Obligations.PackingOrder := by
  unfold Obligations.PackingOrder
  intro bits
  refine ⟨by simp [packBits], fun i b hb => ?_⟩
  simp only [packBits, List.getElem?_map, Option.map_eq_some_iff] at hb
  obtain ⟨j, hj, rfl⟩ := hb
  obtain rfl : i / 8 = j := by simpa using (List.getElem?_eq_some_iff.1 hj).2
  rw [packedByte_getLsbD bits _ (Nat.mod_lt _ (by decide)), Nat.div_add_mod]

/-- Settles O29 (R100, R101): the parts are the images of the table's ranges under a monotone map that sends 0 to `LOW` and the
total one above `HIGH`. -/
theorem narrowTilesTheInterval : Obligations.NarrowTilesTheInterval := by
  unfold Obligations.NarrowTilesTheInterval
  intro s hw htot hlh hr range
  have hrange : rangeOf s.low s.high = range := rangeOf_eq hlh
  have ⟨_, htiles, hfreq, _, _, h0⟩ := hw
  rw [htot, ← show rangeOf s.low s.high = s.high - s.low + 1 from hrange] at hr
  have answers : ∀ e ∈ s.model.entries, ∃ t, narrow e s = some t ∧
      t = { s with low := s.low + range * e.cl / s.total, high := s.low + range * e.ch / s.total - 1 } ∧
      s.low ≤ t.low ∧ t.low ≤ t.high ∧ t.high ≤ s.high := by
    intro e he
    obtain ⟨hb1, hb2, hb3⟩ := hw.narrow_bounds hlh hr he
    rw [← htot, narrowLow, narrowEnd, hrange] at hb2
    rw [← htot, narrowEnd, hrange] at hb3
    exact ⟨_, narrow_eq_of_lt hlh hb2, rfl, Nat.le_add_right _ _, Nat.le_sub_one_of_lt hb2, Nat.sub_le_of_le_add hb3⟩
  refine ⟨answers, fun a rest t hes ha => ?_, fun before a b after t u hes ha hb => ?_, fun before a t hes ha => ?_,
    fun x h1 h2 => ?_⟩
  · have hcl : a.cl = 0 := by
      rw [hes] at htiles
      simp only [tiles, Bool.and_eq_true, beq_iff_eq] at htiles
      exact htiles.1
    rw [(narrow_ends ha).1, hcl, narrowLow_zero]
  · rw [hes] at htiles
    rw [(narrow_ends hb).1, (narrow_ends ha).2, tiles_adjacent htiles]
  · rw [hes] at htiles
    have hend := (narrow_ends ha).2
    rw [tiles_last htiles, htot, narrowLow_total h0 hlh] at hend
    exact Nat.succ.inj hend
  · obtain ⟨e, he, hl, hh, huniq⟩ := tiles_image_cover (f := narrowLow s.low s.high s.total) narrowLow_mono htiles hfreq x
      (by rwa [narrowLow_zero]) (by rw [htot, narrowLow_total h0 hlh]; exact Nat.lt_succ_of_le h2)
    obtain ⟨t, hn, -⟩ := answers e he
    obtain ⟨htl, hth⟩ := narrow_ends hn
    refine ⟨e, he, t, hn, htl ▸ hl, by omega, fun a ha u hu hul huh => ?_⟩
    obtain ⟨hul', huh'⟩ := narrow_ends hu
    exact huniq a ha (hul' ▸ hul) (by omega)

/-- Settles O45 (R151): the target is in a range exactly when `CODE` is in the range's image. -/
theorem exactTargetSelectsByInterval : Obligations.ExactTargetSelectsByInterval := by
  unfold Obligations.ExactTargetSelectsByInterval
  intro m low high code hw hlc hch hr range target
  have hlh : low ≤ high := hlc.trans hch
  have hrange : rangeOf low high = range := rangeOf_eq hlh
  have h0 : 0 < m.total := hw.2.2.2.2.2
  have hle : ∀ n : Nat, (n : Int) ≤ target ↔ low + range * n / m.total ≤ code := fun n => by
    rw [← hrange]; exact targetExact_le_iff hlh hlc h0
  have hlt : ∀ n : Nat, target < (n : Int) ↔ code < low + range * n / m.total := fun n => by
    rw [← hrange]; exact targetExact_lt_iff hlh hlc h0
  have hneg : 0 ≤ target := by simpa [hlc] using hle 0
  have htop : target < m.total := by
    rw [hlt, Nat.mul_div_cancel _ h0]
    omega
  refine ⟨?_, by omega, ?_⟩
  · have hnum : (((code : Int) - low + 1) * m.total - 1) = (((code - low + 1) * m.total - 1 : Nat) : Int) := by
      have : 1 ≤ (code - low + 1) * m.total := Nat.mul_pos (Nat.succ_pos _) h0
      push_cast [Nat.cast_sub this, Nat.cast_sub hlc]
      ring
    simp only [target, targetOf, targetExact, hrange, hnum, Int.natCast_ediv]
  · obtain ⟨e, he⟩ := hw.byTarget_total hneg htop
    obtain ⟨hmem, h1, h2⟩ := byTarget_some he
    refine ⟨e, hmem, he, (hle e.cl).1 h1, (hlt e.ch).1 h2, fun a ha ha1 ha2 => ?_⟩
    exact hw.eq_of_ranges_contain ha ((hle a.cl).2 ha1) ((hlt a.ch).2 ha2) hmem h1 h2

end Sys2Proof.Machine
end

section
/-! Renormalization (40_interval.md R105 to R109; 20_memory.md R52, U3): the loops end within `P` micro-steps wherever the
micro-steps end at all, what they leave, and why the order of overlapping cases does not matter. -/

namespace Sys2Proof.Machine

open Sys2Proof

/-! ### How long a loop that ends can be (R107) -/

section Relation

variable {r : State → State → Prop} (hr : ∀ a b, r a b → IntervalStep a b)
include hr

/-- Micro-steps that reach an end are at most `P`, whatever the interval they start from. -/
theorem Steps.le_prec_of_stop {n : Nat} {s t : State} (h : Steps r n s t) (hP : 2 ≤ s.cfg.prec) (ht : renormCase t = .stop) :
    n ≤ s.cfg.prec := by
  by_cases hlh : s.low ≤ s.high
  · by_cases hl : s.low ≤ s.cfg.top
    · exact h.le_prec hr hP hlh hl
    · exact absurd ht (endless_forever hP (.inr ⟨hlh, Nat.not_le.1 hl⟩) hr h)
  · exact absurd ht (endless_forever hP (.inl (Nat.not_le.1 hlh)) hr h)

/-- After `P` micro-steps that are not the end no further one is. -/
theorem Steps.ne_stop_of_prec (hu : ∀ a b c, r a b → r a c → b = c) {s u : State} (h : Steps r s.cfg.prec s u)
    (hP : 2 ≤ s.cfg.prec) (hk : renormCase u ≠ .stop) {n : Nat} {t : State} (ht : Steps r n s t) : renormCase t ≠ .stop := by
  intro hstop
  have hle := ht.le_prec_of_stop hr hP hstop
  obtain ⟨hge, hrest⟩ := ht.stop_unique hr hu h hstop
  rw [Nat.sub_eq_zero_of_le hle] at hrest
  cases hrest with
  | refl => exact hk hstop

/-- What R107 to R109 say of a run of micro-steps from an interval in the code space. -/
theorem Steps.interval_bounds {n : Nat} {s t : State} (h : Steps r n s t) (hP : 2 ≤ s.cfg.prec) (hlh : s.low ≤ s.high)
    (hh : s.high ≤ s.cfg.top) :
    n ≤ s.cfg.prec ∧ t.low ≤ t.high ∧ t.high ≤ 2 ^ s.cfg.prec - 1 ∧ t.high - t.low + 1 = 2 ^ n * (s.high - s.low + 1) ∧
      (renormCase t = .stop →
        t.low < 2 ^ (s.cfg.prec - 1) ∧ 2 ^ (s.cfg.prec - 1) ≤ t.high ∧
        (t.low < 2 ^ (s.cfg.prec - 2) ∨ 3 * 2 ^ (s.cfg.prec - 2) ≤ t.high) ∧
        2 ^ (s.cfg.prec - 2) + 2 ≤ t.high - t.low + 1) := by
  obtain ⟨hcfg, hlh', hrange, htop⟩ := h.interval hr hlh
  have htop' := htop hP hh
  rw [rangeOf_eq hlh, rangeOf_eq hlh'] at hrange
  rw [hcfg] at htop'
  refine ⟨h.le_prec hr hP hlh (hlh.trans hh), hlh', htop', hrange, fun hk => ?_⟩
  obtain ⟨hhalf, hlow, hquarter⟩ := caseOf_stop_iff.1 hk
  have hwide := range_of_stop (hcfg ▸ hP) hk
  rw [rangeOf_eq hlh'] at hwide
  rw [hcfg] at hhalf hlow hquarter hwide
  exact ⟨hlow, hhalf, hquarter, hwide⟩

end Relation

/-- With an unbounded counter the encoder's loop has an end (R107, R206). -/
theorem encSteps_reach_stop {s : State} (hP : 2 ≤ s.cfg.prec) (hlh : s.low ≤ s.high) (hl : s.low ≤ s.cfg.top)
    (hinf : s.cfg.pendMax = none) : ∃ n t, Steps EncStep n s t ∧ renormCase t = .stop := by
  have hcases := renormEnc_cases s.cfg.prec s
  cases hx : renormEnc s.cfg.prec s with
  | done t =>
    rw [hx] at hcases
    obtain ⟨n, -, hs, hk⟩ := hcases
    exact ⟨n, t, hs, hk⟩
  | overflow =>
    rw [hx] at hcases
    obtain ⟨n, t, -, hs, -, hf⟩ := hcases
    have hcfg : t.cfg = s.cfg := by rw [hs.encFrame]
    rw [pendFull_eq_true_iff, hcfg, hinf] at hf
    cases hf
  | endless => exact absurd hx (renormEnc_not_endless hP hlh hl)

/-- NARROW does not look at the symbols. -/
theorem narrow_symPut_eq_none {x : Nat} {e : Entry} {s : State} : narrow e (symPut x s) = none ↔ narrow e s = none :=
  (narrow_eq_none (s := symPut x s)).trans (narrow_eq_none (s := s)).symm

/-! ### Overlapping cases (R105) -/

/-- Below the midpoint, E1 then E2. -/
theorem encE2_encE1_eq {s : State} (hP : 2 ≤ s.cfg.prec) (hl : s.cfg.firstQuarter ≤ s.low)
    (hh : s.cfg.firstQuarter ≤ s.high) :
    encE2 (encE1 s) = { s with
      low := 4 * s.low - 4 * s.cfg.firstQuarter, high := 4 * s.high - 4 * s.cfg.firstQuarter + 3, pend := 0
      out := s.out ++ false :: (List.replicate s.pend true ++ [true]), outlen := s.outlen + (s.pend + 2) } := by
  have hhalf := half_eq hP
  simp only [encE2_eq, encE1_eq, hhalf, State.mk.injEq, true_and, and_true]
  refine ⟨by omega, by omega, by omega, by simp⟩

/-- Below the midpoint, E3 then E1. -/
theorem encE1_encE3_eq {s : State} (hl : s.cfg.firstQuarter ≤ s.low)
    (hh : s.cfg.firstQuarter ≤ s.high) :
    encE1 (encE3 s) = { s with
      low := 4 * s.low - 4 * s.cfg.firstQuarter, high := 4 * s.high - 4 * s.cfg.firstQuarter + 3, pend := 0
      out := s.out ++ false :: (List.replicate s.pend true ++ [true]), outlen := s.outlen + (s.pend + 2) } := by
  simp only [encE3_eq, encE1_eq, State.mk.injEq, true_and, and_true]
  refine ⟨by omega, by omega, ?_⟩
  rw [List.replicate_succ']

/-- From the midpoint on, E2 then E1. -/
theorem encE1_encE2_eq {s : State} (hP : 2 ≤ s.cfg.prec) (hl : 2 * s.cfg.firstQuarter ≤ s.low)
    (hh : 2 * s.cfg.firstQuarter ≤ s.high) :
    encE1 (encE2 s) = { s with
      low := 4 * s.low - 8 * s.cfg.firstQuarter, high := 4 * s.high - 8 * s.cfg.firstQuarter + 3, pend := 0
      out := s.out ++ true :: (List.replicate s.pend false ++ [false]), outlen := s.outlen + (s.pend + 2) } := by
  have hhalf := half_eq hP
  simp only [encE2_eq, encE1_eq, hhalf, State.mk.injEq, true_and, and_true]
  refine ⟨by omega, by omega, by omega, by simp⟩

/-- From the midpoint on, E3 then E2. -/
theorem encE2_encE3_eq {s : State} (hP : 2 ≤ s.cfg.prec) (hl : 2 * s.cfg.firstQuarter ≤ s.low)
    (hh : 2 * s.cfg.firstQuarter ≤ s.high) :
    encE2 (encE3 s) = { s with
      low := 4 * s.low - 8 * s.cfg.firstQuarter, high := 4 * s.high - 8 * s.cfg.firstQuarter + 3, pend := 0
      out := s.out ++ true :: (List.replicate s.pend false ++ [false]), outlen := s.outlen + (s.pend + 2) } := by
  have hhalf := half_eq hP
  simp only [encE3_eq, encE2_eq, hhalf, State.mk.injEq, true_and, and_true]
  refine ⟨by omega, by omega, ?_⟩
  rw [List.replicate_succ']

/-! ### The obligations -/

/-- Settles O31 (R107 to R109). -/
theorem renormalizationEnds : Obligations.RenormalizationEnds := by
  unfold Obligations.RenormalizationEnds
  intro s hP hlh hh
  refine ⟨?_, encSteps_reach_stop hP hlh (hlh.trans hh), ?_⟩
  · obtain ⟨n, t, -, hs, hk, -⟩ := renormDec_reaches_stop hP hlh (hlh.trans hh)
    exact ⟨n, t, hs, hk⟩
  · rintro n t (hs | hs)
    · exact hs.interval_bounds (fun _ _ => EncStep.interval) hP hlh hh
    · exact hs.interval_bounds (fun _ _ => DecStep.interval) hP hlh hh

/-- Settles O32 (R106): micro-steps that reach an end are no more than the loop's fuel. -/
theorem loopsFollowMicroSteps : Obligations.LoopsFollowMicroSteps := by
  unfold Obligations.LoopsFollowMicroSteps
  intro s t hP
  refine ⟨⟨fun h => ?_, fun ⟨n, hs, hk⟩ => ?_⟩, ⟨fun h => ?_, fun ⟨n, hs, hk⟩ => ?_⟩⟩
  · have hcases := renormEnc_cases s.cfg.prec s
    rw [h] at hcases
    obtain ⟨n, -, hs, hk⟩ := hcases
    exact ⟨n, hs, hk⟩
  · exact renormEnc_of_steps hs (hs.le_prec_of_stop (fun _ _ => EncStep.interval) hP hk) hk
  · have hcases := renormDec_cases s.cfg.prec s
    rw [h] at hcases
    obtain ⟨n, -, hs, hk⟩ := hcases
    exact ⟨n, hs, hk⟩
  · exact renormDec_of_steps hs (hs.le_prec_of_stop (fun _ _ => DecStep.interval) hP hk) hk

/-- Settles O33 (R101, U3): the model stops at an empty interval, or after `P` micro-steps that are not the end. -/
theorem endlessMeansEndless : Obligations.EndlessMeansEndless := by
  unfold Obligations.EndlessMeansEndless
  intro s x hP
  refine ⟨fun h => ?_, fun h => ?_, fun low high => empty_never_stops⟩
  · rcases guarded_cases (.encSym x) (encSymBody x) s with ⟨-, hg⟩ | ⟨-, -, hg⟩ | ⟨-, -, hg⟩
    · cases hg.symm.trans h
    · cases hg.symm.trans h
    have hbody : encSymBody x s = .fault .endlessRenormalization := hg.symm.trans h
    rcases encSymBody_cases x s with ⟨-, hb⟩ | ⟨e, he, ⟨-, hb⟩ | ⟨-, hn, -⟩ |
      ⟨-, s₁, hn, ⟨_, _, _, _, _, hb⟩ | ⟨_, _, _, _, _, _, hb⟩ | ⟨u, hs, hk, -⟩⟩⟩
    · cases hb.symm.trans hbody
    · cases hb.symm.trans hbody
    · exact ⟨e, he, .inl hn⟩
    · cases hb.symm.trans hbody
    · cases hb.symm.trans hbody
    · have hcfg : s₁.cfg = s.cfg := by rw [(narrow_eq_some.1 hn).2]
      rw [← hcfg] at hP hs
      exact ⟨e, he, .inr ⟨s₁, hn, fun n t =>
        hs.ne_stop_of_prec (fun _ _ => EncStep.interval) (fun _ _ _ => EncStep.unique) hP hk⟩⟩
  · rcases guarded_cases .decSym decSymBody s with ⟨-, hg⟩ | ⟨-, -, hg⟩ | ⟨-, -, hg⟩
    · cases hg.symm.trans h
    · cases hg.symm.trans h
    have hbody : decSymBody s = .fault .endlessRenormalization := hg.symm.trans h
    rcases decSymBody_cases s with ⟨-, hb⟩ | ⟨-, -, hb⟩ | ⟨-, e, he, ⟨-, hb⟩ | ⟨-, hn, -⟩ |
      ⟨-, s₁, hn, ⟨_, _, _, _, _, hb⟩ | ⟨u, hs, hk, -⟩⟩⟩
    · cases hb.symm.trans hbody
    · cases hb.symm.trans hbody
    · cases hb.symm.trans hbody
    · exact ⟨e, he, .inl (narrow_symPut_eq_none.1 hn)⟩
    · cases hb.symm.trans hbody
    · have hcfg : s₁.cfg = s.cfg := by rw [(narrow_eq_some.1 hn).2, symPut_cfg]
      rw [← hcfg] at hP hs
      exact ⟨e, he, .inr ⟨s₁, hn, fun n t =>
        hs.ne_stop_of_prec (fun _ _ => DecStep.interval) (fun _ _ _ => DecStep.unique) hP hk⟩⟩

/-- Settles O34 (R105): both orders reach the state the rule writes out. -/
theorem overlapIsHarmless : Obligations.OverlapIsHarmless := by
  unfold Obligations.OverlapIsHarmless
  intro s hP hlh q
  have hhalf : s.cfg.half = 2 * q := half_eq hP
  refine ⟨fun hl hh => ?_, fun hl hh => ?_⟩
  · have h12 := encE2_encE1_eq hP hl (hl.trans hlh)
    have h31 := encE1_encE3_eq hl (hl.trans hlh)
    refine ⟨caseOf_e1_iff.2 (hhalf ▸ hh), ?_, ?_, h12.trans h31.symm, h12⟩
    · rw [encE1_eq]
      exact caseOf_e2_iff.2 ⟨show s.cfg.half ≤ 2 * s.high + 1 by omega, show s.cfg.half ≤ 2 * s.low by omega⟩
    · rw [encE3_eq]
      exact caseOf_e1_iff.2 (show 2 * (s.high - q) + 1 < s.cfg.half by omega)
  · have h21 := encE1_encE2_eq hP hl (hl.trans hlh)
    have h32 := encE2_encE3_eq hP hl (hl.trans hlh)
    refine ⟨(caseOf_e2_iff_of_le hlh).2 (hhalf ▸ hl), ?_, ?_, h21.trans h32.symm, h21⟩
    · rw [encE2_eq]
      exact caseOf_e1_iff.2 (show 2 * (s.high - s.cfg.half) + 1 < s.cfg.half by omega)
    · rw [encE3_eq]
      exact caseOf_e2_iff.2 ⟨show s.cfg.half ≤ 2 * (s.high - q) + 1 by omega, show s.cfg.half ≤ 2 * (s.low - q) by omega⟩

end Sys2Proof.Machine
end

section
/-! Sessions on a well-formed table (41_encoder.md R126; 42_decoder.md R151, R152, R157, R159, R160): the interval of a session
is wide enough for its table, so its symbol commands complete, and the decoder's window stays where the target rule keeps it. -/

namespace Sys2Proof.Machine

open Sys2Proof

/-! ### The interval of a session -/

/-- What both kinds of session say of the latches and the interval between two commands (R21, R26, R108). -/
structure IntervalInv (s : State) : Prop where
  total_pos : 0 < s.total
  total_lt : s.total < s.cfg.firstQuarter
  low_le_high : s.low ≤ s.high
  stopped : renormCase s = .stop

namespace IntervalInv

variable {s : State} (h : IntervalInv s)
include h

theorem hasInterval : hasInterval s = true := hasInterval_iff.2 ⟨h.low_le_high, h.total_pos⟩

theorem two_le_prec : 2 ≤ s.cfg.prec := Nat.le_of_succ_le (three_le_prec h.total_pos h.total_lt)

/-- The interval between two commands has more points than the total (R108, R110). -/
theorem total_le_range : s.total ≤ s.high - s.low + 1 := by
  have hwide := range_of_stop h.two_le_prec h.stopped
  rw [rangeOf_eq h.low_le_high] at hwide
  have hlt := h.total_lt
  omega

/-- NARROW and the micro-steps of either loop leave an interval again. -/
theorem renormalized {r : State → State → Prop} (hr : ∀ a b, r a b → IntervalStep a b) {n : Nat} {s₁ u : State}
    (hcfg : u.cfg = s.cfg) (htot : u.total = s.total) (hlh : s₁.low ≤ s₁.high) (hs : Steps r n s₁ u)
    (hk : renormCase u = .stop) : IntervalInv u where
  total_pos := htot ▸ h.total_pos
  total_lt := by rw [htot, hcfg]; exact h.total_lt
  low_le_high := (hs.interval hr hlh).2.1
  stopped := hk

end IntervalInv

theorem Inv.intervalInv {s : State} (h : Inv s) (hh : s.held ≠ none) : IntervalInv s :=
  ⟨h.total_pos hh, h.total_lt hh, h.low_le_high hh, h.stopped hh⟩

theorem Inv.held_of_enc {s : State} (h : Inv s) (hp : s.ph = .enc) : s.held = some .encoder :=
  h.held_of_phase hp (by decide)

theorem Inv.held_of_dec {s : State} (h : Inv s) (hp : s.ph = .dec) : s.held = some .decoder :=
  h.held_of_phase hp (by decide)

/-! ### A session on a well-formed table -/

/-- The interval and the latches of a session whose table is well-formed (R20, R26, R55). -/
structure TableSession (s : State) : Prop where
  interval : IntervalInv s
  wf : s.model.WF
  total_eq : s.total = s.model.total
  high_le : s.high ≤ s.cfg.top

theorem TableInv.tableSession {s : State} (h : TableInv s) (hinv : Inv s) (hw : s.model.WF) (hin : s.ph.inSession = true) :
    TableSession s := by
  have hh : s.held ≠ none := by
    cases hp : s.ph with
    | enc | encEos | dec => rw [hinv.held_of_phase hp (by decide)]; decide
    | idle | encDone | decDone | fault => simp [hp, Phase.inSession] at hin
  exact ⟨hinv.intervalInv hh, hw, h.total_eq hw hin, h.high_le hw hin⟩

/-- One symbol encoded, the end of its command aside (R126): the part of the interval its entry has, and the micro-steps to
their end. -/
inductive EncodesSymbol (x : Nat) (s u : State) : Prop where
  | intro {a : Entry} {s₁ : State} {n : Nat} (ha : a ∈ s.model.entries) (hx : a.symbol = x) (hn : narrow a s = some s₁)
      (hl : s.low ≤ s₁.low) (hh : s₁.high ≤ s.high) (hle : n ≤ s.cfg.prec) (hs : Steps EncStep n s₁ u)
      (hk : renormCase u = .stop)

namespace TableSession

variable {s : State} (h : TableSession s)
include h

theorem symPut (x : Nat) : TableSession (symPut x s) :=
  ⟨⟨h.interval.total_pos, h.interval.total_lt, h.interval.low_le_high, h.interval.stopped⟩, h.wf, h.total_eq, h.high_le⟩

/-- NARROW answers, inside the interval, for every entry of the table (R101). -/
theorem narrow_inside {e : Entry} (he : e ∈ s.model.entries) :
    ∃ t, narrow e s = some t ∧ s.low ≤ t.low ∧ t.low ≤ t.high ∧ t.high ≤ s.high := by
  obtain ⟨t, hn, -, hbounds⟩ :=
    (narrowTilesTheInterval s h.wf h.total_eq h.interval.low_le_high h.interval.total_le_range).1 e he
  exact ⟨t, hn, hbounds⟩

/-- The micro-steps from the narrowed interval stay in the code space (R109). -/
theorem renormalized_high_le {r : State → State → Prop} (hr : ∀ a b, r a b → IntervalStep a b) {e : Entry} {n : Nat}
    {s₁ u : State} (he : e ∈ s.model.entries) (hn : narrow e s = some s₁) (hs : Steps r n s₁ u) : u.high ≤ s.cfg.top := by
  obtain ⟨s₂, hn₂, -, hlh, hh⟩ := h.narrow_inside he
  obtain rfl : s₁ = s₂ := Option.some.inj (hn.symm.trans hn₂)
  have hcfg : s₁.cfg = s.cfg := by rw [(narrow_eq_some.1 hn).2]
  obtain ⟨hcfg', -, -, hkeep⟩ := hs.interval hr hlh
  rw [← hcfg, ← hcfg']
  exact hkeep (hcfg ▸ h.interval.two_le_prec) (hcfg ▸ hh.trans h.high_le)

/-- `ENC_SYM` of a symbol of the table encodes it, or a bounded counter overflows (R126, R206). -/
theorem exec_encSym {a : Entry} (hp : s.ph = .enc) (ha : a ∈ s.model.entries) :
    (∃ u, EncodesSymbol a.symbol s u ∧ exec (.encSym a.symbol) s = .next (endEncSym a.symbol u)) ∨
      (s.cfg.pendMax ≠ none ∧ exec (.encSym a.symbol) s = .next (raise .pendingOverflow s)) := by
  obtain ⟨s₁, hn, hl, hlh, hh⟩ := h.narrow_inside ha
  rcases exec_encSym_cases hp h.interval.two_le_prec (h.wf.bySymbol_eq ha) h.interval.hasInterval hn
    (hlh.trans (hh.trans h.high_le)) with ⟨n, u, hle, hs, hk, hx⟩ | ⟨n, u, -, hs, -, hf, hx⟩
  · exact .inl ⟨u, .intro ha rfl hn hl hh hle hs hk, hx⟩
  · have hcfg : u.cfg = s.cfg := by rw [narrow_enc_frame hn hs]
    rw [pendFull_eq_true_iff, hcfg] at hf
    exact .inr ⟨by simp [hf], hx⟩

/-- `DEC_SYM` decodes the entry it finds (R157, R158). -/
theorem exec_decSym {e : Entry} (hp : s.ph = .dec) (he : s.model.byTarget (targetNow s) = some e) :
    (e.symbol = s.sent ∧ exec .decSym s = .next { s with ph := .decDone }) ∨
      (e.symbol ≠ s.sent ∧ ∃ s₁ n u, narrow e (Machine.symPut e.symbol s) = some s₁ ∧ Steps DecStep n s₁ u ∧
        exec .decSym s = .next u) := by
  by_cases hx : e.symbol = s.sent
  · exact .inl ⟨hx, exec_decSym_of_sentinel hp h.interval.hasInterval he hx⟩
  · obtain ⟨s₁, hn, -, hlh, hh⟩ := (h.symPut e.symbol).narrow_inside (byTarget_some he).1
    obtain ⟨n, u, -, hs, -, -, hdone⟩ := decodeEntry_completes h.interval.two_le_prec hn (hlh.trans (hh.trans h.high_le))
    exact .inr ⟨hx, s₁, n, u, hn, hs, (exec_decSym_of_symbol hp h.interval.hasInterval he hx).trans hdone⟩

end TableSession

/-- What encoding a symbol leaves alone. -/
theorem EncodesSymbol.frame {x : Nat} {s u : State} (h : EncodesSymbol x s u) :
    u = { s with low := u.low, high := u.high, pend := u.pend, out := u.out, outlen := u.outlen } := by
  obtain ⟨-, -, hn, -, -, -, hs, -⟩ := h
  exact narrow_enc_frame hn hs

/-- Encoding a symbol leaves the interval of a session again. -/
theorem TableSession.encoded {x : Nat} {s u : State} (h : TableSession s) (hu : EncodesSymbol x s u) : TableSession u := by
  have hframe := hu.frame
  have hcfg : u.cfg = s.cfg := by rw [hframe]
  have htot : u.total = s.total := by rw [hframe]
  have hmodel : u.model = s.model := by rw [hframe]
  obtain ⟨ha, -, hn, -, -, -, hs, hk⟩ := hu
  refine ⟨h.interval.renormalized (fun _ _ => EncStep.interval) hcfg htot (narrow_low_le_high hn) hs hk, ?_, ?_, ?_⟩
  · rw [hmodel]; exact h.wf
  · rw [htot, hmodel]; exact h.total_eq
  · rw [hcfg]; exact h.renormalized_high_le (fun _ _ => EncStep.interval) ha hn hs

/-! ### The decoder's window (R151, R152, R159) -/

section Target

variable {s : State} {e : Entry} (hi : hasInterval s = true) (hlc : s.low ≤ s.code)
  (he : s.model.byTarget (targetNow s) = some e)
include hi hlc he

/-- Neither target rule selects an entry whose part starts above `CODE`. -/
theorem narrowLow_le_code : narrowLow s.low s.high s.total e.cl ≤ s.code := by
  obtain ⟨hlh, h0⟩ := hasInterval_iff.1 hi
  obtain ⟨-, hcl, -⟩ := byTarget_some he
  cases hr : s.cfg.targetRule with
  | exact =>
    rw [targetNow, hr] at hcl
    exact (targetExact_le_iff hlh hlc h0).1 hcl
  | trunc =>
    rw [targetNow, hr] at hcl
    exact targetTrunc_le hlh hlc h0 hcl

/-- Under `EXACT` the part of the entry selected does not end below `CODE`. -/
theorem code_lt_narrowEnd (hr : s.cfg.targetRule = .exact) : s.code < narrowEnd s.low s.high s.total e.ch := by
  obtain ⟨hlh, h0⟩ := hasInterval_iff.1 hi
  obtain ⟨-, -, hch⟩ := byTarget_some he
  rw [targetNow, hr] at hch
  exact (targetExact_lt_iff hlh hlc h0).1 hch

/-- Under `TRUNC` it ends at most one below. -/
theorem code_le_narrowEnd (hr : s.cfg.targetRule = .trunc) : s.code ≤ narrowEnd s.low s.high s.total e.ch := by
  obtain ⟨hlh, h0⟩ := hasInterval_iff.1 hi
  obtain ⟨-, -, hch⟩ := byTarget_some he
  rw [targetNow, hr] at hch
  exact targetTrunc_lt hlh hlc h0 hch

/-- Where the window is once a symbol is decoded: at or above `LOW` under both rules, in the interval under `EXACT`, and above
it by no more than the range under `TRUNC` (R152 (c), R159). -/
theorem decoded_window {n : Nat} {s₁ t : State} (hP : 2 ≤ s.cfg.prec) (hn : narrow e (symPut e.symbol s) = some s₁)
    (hs : Steps DecStep n s₁ t) :
    t.low ≤ t.code ∧ (s.cfg.targetRule = .exact → t.code ≤ t.high) ∧
      (s.cfg.targetRule = .trunc → t.code + t.low ≤ 2 * t.high + 1) := by
  have hlow := narrowLow_le_code hi hlc he
  have hlh := narrow_low_le_high hn
  obtain ⟨htl, hth⟩ := narrow_ends hn
  have hcode : s₁.code = s.code := by rw [(narrow_eq_some.1 hn).2, symPut_code]
  have hcfg : s₁.cfg = s.cfg := by rw [(narrow_eq_some.1 hn).2, symPut_cfg]
  simp only [symPut_low, symPut_high, symPut_total] at htl hth
  rw [← narrowEnd_eq_narrowLow] at hth
  rw [← htl, ← hcode] at hlow
  obtain ⟨hl, hin, hout⟩ := hs.decWindow (hcfg ▸ hP) hlow
  obtain ⟨-, htlh, hrange, -⟩ := hs.interval (fun _ _ => DecStep.interval) hlh
  refine ⟨hl, fun hr => hin ?_, fun hr => ?_⟩
  · have := code_lt_narrowEnd hi hlc he hr
    omega
  · have hone : s₁.code ≤ s₁.high + 1 := by
      have := code_le_narrowEnd hi hlc he hr
      omega
    rcases Nat.lt_or_ge s₁.high s₁.code with hlt | hge
    · have hgap : s₁.code - s₁.high = 1 := by omega
      obtain ⟨-, hbound⟩ := hout hlt
      rw [hgap, Nat.mul_one] at hbound
      have hpow : 2 ^ n ≤ rangeOf t.low t.high := by
        rw [hrange]
        exact Nat.le_mul_of_pos_right _ (by rw [rangeOf]; omega)
      rw [rangeOf] at hpow
      omega
    · have := hin hge
      omega

end Target

/-- What `DEC_INIT` leaves in the window (R150, R159). -/
theorem startDecoder_window (s : State) :
    (startDecoder s).low = 0 ∧ (startDecoder s).high = s.cfg.top ∧ (startDecoder s).code ≤ s.cfg.top := by
  refine ⟨?_, ?_, Nat.le_sub_one_of_lt (startDecoder_code_lt s)⟩ <;> rw [startDecoder_frame]

/-- Under `EXACT` a window in the interval has an entry (R151, R160). -/
theorem TableSession.exists_target {s : State} (h : TableSession s) (hr : s.cfg.targetRule = .exact)
    (hlc : s.low ≤ s.code) (hch : s.code ≤ s.high) : ∃ e, s.model.byTarget (targetNow s) = some e := by
  obtain ⟨-, -, e, -, he, -⟩ := exactTargetSelectsByInterval s.model s.low s.high s.code h.wf hlc hch
    (h.total_eq ▸ h.interval.total_le_range)
  rw [← h.total_eq, ← hr] at he
  exact ⟨e, he⟩

/-! ### The obligations -/

/-- Settles O40 (R126, R127): NARROW answers, and the loop ends because an unbounded counter never overflows. -/
theorem encSymCompletes : Obligations.EncSymCompletes := by
  unfold Obligations.EncSymCompletes
  rintro s x hinv htab hw hinf hp ⟨e, hmem, rfl⟩
  have hin : s.ph.inSession = true := by rw [hp]; rfl
  have hsess := htab.tableSession hinv hw hin
  rcases hsess.exec_encSym hp hmem with ⟨u, hu, hx⟩ | ⟨hbounded, -⟩
  · have hu' := hsess.encoded hu
    have hcfg : u.cfg = s.cfg := by rw [hu.frame]
    obtain ⟨hhalf, hlow, -⟩ := caseOf_stop_iff.1 hu'.interval.stopped
    have hhigh := hu'.high_le
    rw [hcfg] at hhalf hlow hhigh
    obtain ⟨-, -, hn, -, -, -, hs, -⟩ := hu
    have hphase := encSym_phase (x := e.symbol) hp hn hs
    rw [htab.sent_eq hw hin] at hphase
    refine ⟨_, hx, hphase, ?_⟩
    rw [endEncSym_eq]
    exact ⟨hlow, hhalf, hhigh⟩
  · exact absurd hinf hbounded

/-- Settles O50 (R160): the window is in the interval, so an entry is found, and NARROW answers for it. -/
theorem decSymCompletesUnderExact : Obligations.DecSymCompletesUnderExact := by
  unfold Obligations.DecSymCompletesUnderExact
  intro s hinv htab hw hr hp
  have hin : s.ph.inSession = true := by rw [hp]; rfl
  have hsess := htab.tableSession hinv hw hin
  obtain ⟨e, he⟩ := hsess.exists_target hr (hinv.low_le_code (hinv.held_of_dec hp)) (htab.code_exact hw hp hr)
  rcases hsess.exec_decSym hp he with ⟨-, hx⟩ | ⟨hne, s₁, n, u, hn, hs, hx⟩
  · exact ⟨_, hx, .inl ⟨rfl, rfl⟩⟩
  · refine ⟨u, hx, .inr ?_⟩
    rw [narrow_dec_frame hn hs]
    exact ⟨hp, e.symbol, htab.sent_eq hw hin ▸ hne, rfl⟩

/-- Settles O46 (R152): the arithmetic of the literal target, and what the decoder's steps do to a window above `HIGH`. -/
theorem truncTargetFallsShort : Obligations.TruncTargetFallsShort := by
  unfold Obligations.TruncTargetFallsShort
  have value : ∀ low high code total : Nat, low ≤ code → low ≤ high →
      targetOf .trunc low high code total = (((code - low) * total / (high - low + 1) : Nat) : Int) := by
    intro low high code total hlc hlh
    rw [targetOf, targetTrunc, rangeOf_eq hlh]
    push_cast [Nat.cast_sub hlc]
    rfl
  refine ⟨fun low high code total hlc hlh h0 => ⟨value low high code total hlc hlh, ?_⟩,
    fun m low high code e hw hlc hlh he => ?_, fun n s t hP hlh hlt hs => ?_, fun s hr hp hw htot hlh hlt => ?_⟩
  · refine Int.ediv_le_ediv (by rw [rangeOf_eq hlh]; positivity) ?_
    have : (1 : Int) ≤ total := by exact_mod_cast h0
    linarith
  · obtain ⟨-, hcl, hch⟩ := byTarget_some he
    have h0 : 0 < m.total := hw.2.2.2.2.2
    rw [← rangeOf_eq hlh]
    exact ⟨targetTrunc_le hlh hlc h0 hcl, targetTrunc_lt hlh hlc h0 hch⟩
  · exact ((hs.decWindow hP (by omega)).2.2 hlt).1
  · have h0 : 0 < s.total := by rw [htot]; exact hw.2.2.2.2.2
    refine exec_decSym_of_byTarget_none hp (hasInterval_iff.2 ⟨hlh, h0⟩) (hw.byTarget_eq_none_of_total_le ?_)
    rw [targetNow, hr, value _ _ _ _ (by omega) hlh, ← htot, Int.ofNat_le, Nat.le_div_iff_mul_le (Nat.succ_pos _), Nat.mul_comm]
    exact Nat.mul_le_mul_right _ (by omega)

/-- Settles O52 (R159): the window `DEC_INIT` fills is a `P`-bit number, and `DEC_SYM` moves it as `decoded_window` says. -/
theorem windowStaysInInterval : Obligations.WindowStaysInInterval := by
  unfold Obligations.WindowStaysInInterval
  refine ⟨fun s t hp h hdec => ?_, fun s t hP hp hw htot hr hlc hlh h ht => ?_⟩
  · cases exec_next h with
    | ignored hf => exact absurd hf hp
    | raised => cases hdec
    | decInit =>
      obtain ⟨hlow, hhigh, hcode⟩ := startDecoder_window s
      rw [hlow, hhigh]
      exact ⟨Nat.zero_le _, hcode⟩
  · obtain ⟨e, he, hi, ⟨-, rfl⟩ | ⟨-, s₁, n, hn, -, hs, -⟩⟩ := decSym_completed hp h ht
    · exact ⟨hlc, fun _ hch => hch⟩
    · obtain ⟨hl, hexact, -⟩ := decoded_window hi hlc he hP hn hs
      exact ⟨hl, fun hr _ => hexact hr⟩

end Sys2Proof.Machine
end

section
/-! The invariants of a run (10_state.md R20 to R37; 40_interval.md R101, R107, R108; 42_decoder.md R159): what each effect of a
command keeps, then every step, and that no legal step stops the engine. -/

namespace Sys2Proof.Machine

open Sys2Proof

/-! ### `Inv` and the updates that do not touch a session -/

/-- The host's side is no part of the invariant. -/
theorem Inv.hostSide {s : State} (h : Inv s) (m : ModelTable) (p : List Bool) (b : List HostAction) :
    Inv { s with model := m, inp := p, inbox := b } :=
  ⟨h.err_iff, h.held_eq, h.total_pos, h.total_lt, h.low_le_high, h.stopped, h.outlen_eq, h.pend_le, h.pend_done, h.symlen_eq,
    h.cur_ge, h.low_le_code⟩

/-- In `FAULT` the registers keep what they held (R37, R208). -/
theorem Inv.raise {s : State} (h : Inv s) (k : EngineFault) : Inv (raise k s) :=
  ⟨by simp, fun hp => absurd rfl hp, h.total_pos, h.total_lt, h.low_le_high, h.stopped, h.outlen_eq, h.pend_le, nofun,
    h.symlen_eq, h.cur_ge, h.low_le_code⟩

/-- Before any session there is nothing to say of the registers. -/
theorem inv_of_no_session {s : State} (hp : s.ph = .idle) (he : s.err = none) (hh : s.held = none) : Inv s where
  err_iff := by simp [hp, he]
  held_eq _ := by rw [hp, hh]; rfl
  total_pos h := absurd hh h
  total_lt h := absurd hh h
  low_le_high h := absurd hh h
  stopped h := absurd hh h
  outlen_eq h := by simp [hh] at h
  pend_le h := by simp [hh] at h
  pend_done h := by simp [hp] at h
  symlen_eq h := by simp [hh] at h
  cur_ge h := by simp [hh] at h
  low_le_code h := by simp [hh] at h

theorem inv_resetEngine (s : State) : Inv (resetEngine s) := inv_of_no_session rfl rfl rfl

/-! ### `Inv` in the two kinds of session -/

/-- The invariant in a phase of an encoder's session. -/
theorem inv_of_encoder {s : State} (herr : s.err = none) (hi : IntervalInv s) (hp : s.ph.session = some .encoder)
    (hh : s.held = some .encoder) (hout : s.outlen = s.out.length) (hpend : ∀ m, s.cfg.pendMax = some m → s.pend ≤ m)
    (hdone : s.ph = .encDone → s.pend = 0) : Inv s where
  err_iff := by
    have hf : s.ph ≠ .fault := by rintro hf; simp [hf, Phase.session] at hp
    simp [herr, hf]
  held_eq _ := hh.trans hp.symm
  total_pos _ := hi.total_pos
  total_lt _ := hi.total_lt
  low_le_high _ := hi.low_le_high
  stopped _ := hi.stopped
  outlen_eq _ := hout
  pend_le _ := hpend
  pend_done := hdone
  symlen_eq h := by simp [hh] at h
  cur_ge h := by simp [hh] at h
  low_le_code h := by simp [hh] at h

/-- The invariant in a phase of a decoder's session. -/
theorem inv_of_decoder {s : State} (herr : s.err = none) (hi : IntervalInv s) (hp : s.ph.session = some .decoder)
    (hh : s.held = some .decoder) (hsym : s.symlen = s.symout.length) (hcur : s.cfg.prec ≤ s.cur) (hcode : s.low ≤ s.code) :
    Inv s where
  err_iff := by
    have hf : s.ph ≠ .fault := by rintro hf; simp [hf, Phase.session] at hp
    simp [herr, hf]
  held_eq _ := hh.trans hp.symm
  total_pos _ := hi.total_pos
  total_lt _ := hi.total_lt
  low_le_high _ := hi.low_le_high
  stopped _ := hi.stopped
  outlen_eq h := by simp [hh] at h
  pend_le h := by simp [hh] at h
  pend_done h := by simp [h, Phase.session] at hp
  symlen_eq _ := hsym
  cur_ge _ := hcur
  low_le_code _ := hcode

/-- The whole code space is an interval on which no case holds (R103). -/
theorem caseOf_full {c : Config} (hP : 2 ≤ c.prec) : caseOf c 0 c.top = .stop := by
  have hq := firstQuarter_pos c
  have hhalf := half_eq hP
  have htop := top_eq hP
  exact caseOf_stop_iff.2 ⟨by omega, by omega, .inl hq⟩

/-- An accepted init command finds no error (R31, R90). -/
theorem Inv.err_of_accepts_init {s : State} {i : Instr} (h : Inv s) (hi : i = .encInit ∨ i = .decInit)
    (ha : accepts i s.ph = true) : s.err = none := by
  refine h.err_iff.2 fun hp => ?_
  rw [hp] at ha
  rcases hi with rfl | rfl <;> cases ha

/-- A session starts on the whole code space (R120, R150). -/
theorem intervalInv_start {s t : State} (h0 : 0 < s.model.total) (h1 : s.model.total < s.cfg.firstQuarter)
    (hcfg : t.cfg = s.cfg) (htot : t.total = s.model.total) (hlow : t.low = 0) (hhigh : t.high = s.cfg.top) :
    IntervalInv t where
  total_pos := by rwa [htot]
  total_lt := by rwa [htot, hcfg]
  low_le_high := by rw [hlow]; exact Nat.zero_le _
  stopped := by
    rw [renormCase, hcfg, hlow, hhigh]
    exact caseOf_full (Nat.le_of_succ_le (three_le_prec h0 h1))

theorem intervalInv_startEncoder {s : State} (h0 : 0 < s.model.total) (h1 : s.model.total < s.cfg.firstQuarter) :
    IntervalInv (startEncoder s) := intervalInv_start h0 h1 rfl rfl rfl rfl

/-- An open session has no error. -/
theorem Inv.err_of_phase {s : State} (h : Inv s) {p : Phase} (hp : s.ph = p) (hf : p ≠ .fault) : s.err = none :=
  h.err_iff.2 (hp ▸ hf)

/-- Every effect of a command keeps the invariant. -/
theorem Effect.inv {i : Instr} {s t : State} (he : Effect i s t) (h : Inv s) : Inv t := by
  cases he with
  | nop | ignored => exact h
  | reset => exact inv_resetEngine s
  | raised => exact h.raise _
  | encInit ha h0 h1 =>
    exact inv_of_encoder (h.err_of_accepts_init (.inl rfl) ha) (intervalInv_startEncoder h0 h1) rfl rfl rfl
      (fun _ _ => Nat.zero_le _) nofun
  | decInit ha h0 h1 =>
    rw [startDecoder_eq]
    exact inv_of_decoder (h.err_of_accepts_init (.inr rfl) ha) (intervalInv_start h0 h1 rfl rfl rfl rfl) rfl rfl rfl
      (Nat.le_refl _) (Nat.zero_le _)
  | @encSym x e n _ s₁ u hp _ _ hn _ hs hk =>
    have hheld := h.held_of_enc hp
    have hi := h.intervalInv (by simp [hheld])
    have hframe := narrow_enc_frame hn hs
    have hcfg : u.cfg = s.cfg := by rw [hframe]
    have hiu : IntervalInv u := hi.renormalized (fun _ _ => EncStep.interval) hcfg (by rw [hframe]) (narrow_low_le_high hn) hs hk
    obtain ⟨w, hout, hlen, -⟩ := narrow_enc_counts hn hs
    have hpend := hs.encCounts.2
    rw [(narrow_eq_some.1 hn).2] at hpend
    have hph : (endEncSym x u).ph = .encEos ∨ (endEncSym x u).ph = .enc := by
      rw [encSym_phase hp hn hs]
      split_ifs <;> simp
    rw [endEncSym_eq] at hph ⊢
    refine inv_of_encoder ?_ ⟨hiu.total_pos, hiu.total_lt, hiu.low_le_high, hiu.stopped⟩ ?_ ?_ ?_ ?_ ?_
    · rw [hframe]; exact h.err_of_phase hp (by decide)
    · rcases hph with hph | hph <;> rw [hph] <;> rfl
    · rw [hframe]; exact hheld
    · simp only [hout, hlen, h.outlen_eq hheld, List.length_append]
    · exact fun m hm => hpend m (hcfg ▸ hm) (h.pend_le hheld m (hcfg ▸ hm))
    · intro hd
      rcases hph with hph | hph <;> cases hph.symm.trans hd
  | encFlush b hp =>
    have hheld : s.held = some .encoder := h.held_of_phase hp (by decide)
    have hi := h.intervalInv (by simp [hheld])
    refine inv_of_encoder (h.err_of_phase hp (by decide)) ⟨hi.total_pos, hi.total_lt, hi.low_le_high, hi.stopped⟩ rfl hheld ?_
      (fun _ _ => Nat.zero_le _) fun _ => rfl
    simp [h.outlen_eq hheld]
  | decSentinel hp =>
    have hheld := h.held_of_dec hp
    have hi := h.intervalInv (by simp [hheld])
    exact inv_of_decoder (h.err_of_phase hp (by decide)) ⟨hi.total_pos, hi.total_lt, hi.low_le_high, hi.stopped⟩ rfl hheld
      (h.symlen_eq hheld) (h.cur_ge hheld) (h.low_le_code hheld)
  | @decSymbol e n _ s₁ _ hp hint he _ hn _ hs hk =>
    have hheld := h.held_of_dec hp
    have hi := h.intervalInv (by simp [hheld])
    have hframe := narrow_dec_frame hn hs
    have hit : IntervalInv t := hi.renormalized (fun _ _ => DecStep.interval) (by rw [hframe]) (by rw [hframe])
      (narrow_low_le_high hn) hs hk
    obtain ⟨hcode, -⟩ := decoded_window hint (h.low_le_code hheld) he hi.two_le_prec hn hs
    refine inv_of_decoder ?_ hit ?_ ?_ ?_ ?_ hcode <;> rw [hframe]
    · exact h.err_of_phase hp (by decide)
    · exact congrArg Phase.session hp
    · exact hheld
    · simp [h.symlen_eq hheld]
    · exact Nat.le_add_right_of_le (h.cur_ge hheld)

/-! ### `TableInv` -/

/-- Outside a session there is nothing to say of the table. -/
theorem tableInv_of_not_inSession {s : State} (hp : s.ph.inSession = false) : TableInv s where
  total_eq _ h := by simp [hp] at h
  sent_eq _ h := by simp [hp] at h
  high_le _ h := by simp [hp] at h
  code_exact _ h := by simp [h, Phase.inSession] at hp
  code_trunc _ h := by simp [h, Phase.inSession] at hp

/-- The queue is no part of the table's invariant. -/
theorem TableInv.withInbox {s : State} (h : TableInv s) (b : List HostAction) : TableInv (withInbox b s) :=
  ⟨h.total_eq, h.sent_eq, h.high_le, h.code_exact, h.code_trunc⟩

/-- An encoder's session has no window. -/
theorem tableInv_of_encoder {s : State} (hp : s.ph ≠ .dec) (htot : s.model.WF → s.total = s.model.total)
    (hsent : s.model.WF → s.sent = s.model.sentinel) (hhigh : s.model.WF → s.high ≤ s.cfg.top) : TableInv s :=
  ⟨fun hw _ => htot hw, fun hw _ => hsent hw, fun hw _ => hhigh hw, fun _ h => absurd h hp, fun _ h => absurd h hp⟩

/-- Every effect of a command keeps what a well-formed table gives its session. -/
theorem Effect.tableInv {i : Instr} {s t : State} (he : Effect i s t) (hinv : Inv s) (h : TableInv s) : TableInv t := by
  cases he with
  | nop | ignored => exact h
  | reset | raised | encFlush | decSentinel => exact tableInv_of_not_inSession rfl
  | encInit => exact tableInv_of_encoder nofun (fun _ => rfl) (fun _ => rfl) fun _ => Nat.le_refl _
  | decInit =>
    obtain ⟨hlow, hhigh, hcode⟩ := startDecoder_window s
    have hcfg : (startDecoder s).cfg = s.cfg := by rw [startDecoder_frame]
    refine ⟨fun _ _ => ?_, fun _ _ => ?_, fun _ _ => ?_, fun _ _ _ => ?_, fun _ _ _ => ?_⟩
    · rw [startDecoder_frame]
    · rw [startDecoder_frame]
    · rw [hhigh, hcfg]
    · rw [hhigh]; exact hcode
    · rw [hhigh, hlow]; omega
  | @encSym x e n _ s₁ u hp he _ hn _ hs =>
    have hin : s.ph.inSession = true := by rw [hp]; rfl
    have hph : (endEncSym x u).ph ≠ .dec := by
      rw [encSym_phase hp hn hs]
      split_ifs <;> decide
    have hhigh : s.model.WF → u.high ≤ s.cfg.top := fun hw =>
      (h.tableSession hinv hw hin).renormalized_high_le (fun _ _ => EncStep.interval) (bySymbol_some he).1 hn hs
    rw [endEncSym_eq, narrow_enc_frame hn hs] at hph ⊢
    exact tableInv_of_encoder hph (fun hw => h.total_eq hw hin) (fun hw => h.sent_eq hw hin) hhigh
  | @decSymbol e n _ s₁ _ hp hi he _ hn _ hs =>
    have hheld := hinv.held_of_dec hp
    have hin : s.ph.inSession = true := by rw [hp]; rfl
    have hP := (hinv.intervalInv (by simp [hheld])).two_le_prec
    obtain ⟨-, hexact, htrunc⟩ := decoded_window hi (hinv.low_le_code hheld) he hP hn hs
    have hhigh : s.model.WF → t.high ≤ s.cfg.top := fun hw =>
      ((h.tableSession hinv hw hin).symPut e.symbol).renormalized_high_le (fun _ _ => DecStep.interval) (byTarget_some he).1
        hn hs
    rw [narrow_dec_frame hn hs]
    exact ⟨fun hw _ => h.total_eq hw hin, fun hw _ => h.sent_eq hw hin, fun hw _ => hhigh hw, fun _ _ => hexact,
      fun _ _ => htrunc⟩

/-! ### Steps of the host's queue -/

theorem Inv.illegalWord {s : State} (h : Inv s) : Inv (illegalWord s) := by
  unfold Machine.illegalWord
  split_ifs
  · exact h
  · exact h.raise _

theorem TableInv.illegalWord {s : State} (h : TableInv s) : TableInv (illegalWord s) := by
  unfold Machine.illegalWord
  split_ifs
  · exact h
  · exact tableInv_of_not_inSession rfl

/-- A host's write is answered outside a session only. -/
theorem outsideSession_next {write : State → State} {s t : State} (h : outsideSession write s = .next t) :
    s.ph.inSession = false ∧ t = write s := by
  unfold outsideSession at h
  split_ifs at h with hin
  exact ⟨Bool.eq_false_of_not_eq_true hin, (next_inj h).symm⟩

/-! ### Completion on a well-formed table (R101, R107, R110) -/

theorem openSession_answers (start : State → State) (s : State) : ∃ t, openSession start s = .next t := by
  rcases openSession_cases start s with ⟨-, h⟩ | ⟨-, -, h⟩ | ⟨-, -, h⟩ <;> exact ⟨_, h⟩

section Completion

variable {s : State} (hinv : Inv s) (htab : TableInv s) (hw : s.model.WF)
include hinv htab hw

theorem exec_encSym_answers (x : Nat) (hp : s.ph = .enc) : ∃ t, exec (.encSym x) s = .next t := by
  cases he : s.model.bySymbol x with
  | none => exact ⟨_, exec_encSym_of_bySymbol_none hp he⟩
  | some e =>
    obtain ⟨hmem, rfl⟩ := bySymbol_some he
    rcases (htab.tableSession hinv hw (by rw [hp]; rfl)).exec_encSym hp hmem with ⟨_, -, hx⟩ | ⟨-, hx⟩ <;> exact ⟨_, hx⟩

theorem exec_decSym_answers (hp : s.ph = .dec) : ∃ t, exec .decSym s = .next t := by
  have hsess := htab.tableSession hinv hw (by rw [hp]; rfl)
  cases he : s.model.byTarget (targetNow s) with
  | none => exact ⟨_, exec_decSym_of_byTarget_none hp hsess.interval.hasInterval he⟩
  | some e => rcases hsess.exec_decSym hp he with ⟨-, hx⟩ | ⟨-, _, _, _, -, -, hx⟩ <;> exact ⟨_, hx⟩

/-- Every command answers a next state. -/
theorem exec_answers (i : Instr) : ∃ t, exec i s = .next t := by
  by_cases hp : s.ph = .fault
  · by_cases hi : i = .reset
    · exact hi ▸ ⟨_, rfl⟩
    · exact ⟨s, exec_ignored hp hi⟩
  cases ha : accepts i s.ph with
  | false => exact ⟨_, exec_illegalCommand hp ha⟩
  | true =>
    cases i with
    | nop | reset => exact ⟨_, rfl⟩
    | encInit => rw [exec_encInit ha]; exact openSession_answers _ s
    | decInit => rw [exec_decInit ha]; exact openSession_answers _ s
    | encSym x => exact exec_encSym_answers hinv htab hw x (by simpa [accepts] using ha)
    | decSym => exact exec_decSym_answers hinv htab hw (by simpa [accepts] using ha)
    | encFlush =>
      obtain ⟨t, ht, -⟩ := exec_encFlush_answers (s := s) (by simpa [accepts] using ha)
      exact ⟨t, ht⟩

end Completion

/-! ### The obligations -/

/-- Settles O56 (R41): the power-on state is idle, before any session. -/
theorem resetMeetsInvariants : Obligations.ResetMeetsInvariants := by
  unfold Obligations.ResetMeetsInvariants
  intro c
  exact ⟨inv_of_no_session rfl rfl rfl, tableInv_of_not_inSession rfl⟩

/-- Settles O57: every effect of a command keeps the invariant, and the host's other actions touch no session. -/
theorem stepKeepsInv : Obligations.StepKeepsInv := by
  unfold Obligations.StepKeepsInv
  intro s t h hstep
  have hrest : ∀ rest, Inv { s with inbox := rest } := fun rest => h.hostSide s.model s.inp rest
  rcases step_cases s with ⟨-, e⟩ | ⟨_, rest, i, -, -, e⟩ | ⟨_, rest, _, -, -, e⟩ | ⟨rest, -, e⟩ | ⟨m, rest, -, e⟩ |
    ⟨bits, rest, -, e⟩ <;> rw [e] at hstep
  · exact next_inj hstep ▸ h
  · exact (exec_next hstep).inv (hrest rest)
  · exact next_inj hstep ▸ (hrest rest).illegalWord
  · exact next_inj hstep ▸ inv_resetEngine _
  · rw [(outsideSession_next hstep).2]
    exact h.hostSide m s.inp rest
  · rw [(outsideSession_next hstep).2]
    exact h.hostSide s.model bits rest

/-- Settles O58: every effect of a command keeps it, and the host writes its spaces between sessions only (R55, R233). -/
theorem stepKeepsTableInv : Obligations.StepKeepsTableInv := by
  unfold Obligations.StepKeepsTableInv
  intro s t hinv h hstep
  have hrest : ∀ rest, Inv { s with inbox := rest } := fun rest => hinv.hostSide s.model s.inp rest
  rcases step_cases s with ⟨-, e⟩ | ⟨_, rest, i, -, -, e⟩ | ⟨_, rest, _, -, -, e⟩ | ⟨rest, -, e⟩ | ⟨m, rest, -, e⟩ |
    ⟨bits, rest, -, e⟩ <;> rw [e] at hstep
  · exact next_inj hstep ▸ h
  · exact (exec_next hstep).tableInv (hrest rest) (h.withInbox rest)
  · exact next_inj hstep ▸ (h.withInbox rest).illegalWord
  · exact next_inj hstep ▸ tableInv_of_not_inSession rfl
  · obtain ⟨hout, rfl⟩ := outsideSession_next hstep
    exact tableInv_of_not_inSession hout
  · obtain ⟨hout, rfl⟩ := outsideSession_next hstep
    exact tableInv_of_not_inSession hout

/-- Settles O59 (R101, R107, R110): commands answer on a well-formed table, illegal words and the reset line always, and a
host's write outside a session. -/
theorem legalRunsNeverStop : Obligations.LegalRunsNeverStop := by
  unfold Obligations.LegalRunsNeverStop
  intro s hinv htab hw hlegal
  rcases step_cases s with ⟨-, e⟩ | ⟨_, rest, i, -, -, e⟩ | ⟨_, rest, _, -, -, e⟩ | ⟨rest, -, e⟩ | ⟨m, rest, hb, e⟩ |
    ⟨bits, rest, hb, e⟩ <;> rw [e]
  · exact ⟨_, rfl⟩
  · exact exec_answers (hinv.hostSide s.model s.inp rest) (htab.withInbox rest) hw i
  · exact ⟨_, rfl⟩
  · exact ⟨_, rfl⟩
  · exact ⟨_, if_neg fun hin => (hlegal hin m [] rest).1 hb⟩
  · exact ⟨_, if_neg fun hin => (hlegal hin s.model bits rest).2 hb⟩

end Sys2Proof.Machine
end

section
/-! Sessions do not depend on what an earlier one left (10_state.md R37, R38; 93_implementation_defined.md U7): every operation
of a command keeps `SameSession`, so two states that agree in that sense answer every command alike. -/

namespace Sys2Proof.Machine

open Sys2Proof

/-! ### The updates a session is made of -/

/-- Raising a fault keeps what the registers hold. -/
theorem SameSession.raise {a b : State} (h : SameSession a b) (k : EngineFault) : SameSession (raise k a) (raise k b) :=
  ⟨h.cfg, rfl, rfl, h.held, h.model, h.inp, h.low, h.high, h.total, h.sent, h.pend, h.outlen, h.out, h.code, h.cur, h.symlen,
    h.symout⟩

section Updates

variable {a b : State} (h : SameSession a b)
include h

theorem SameSession.setPhase {p p' : Phase} (hp : p = p') : SameSession { a with ph := p } { b with ph := p' } :=
  ⟨h.cfg, hp, h.err, h.held, h.model, h.inp, h.low, h.high, h.total, h.sent, h.pend, h.outlen, h.out, h.code, h.cur, h.symlen,
    h.symout⟩

theorem SameSession.setInterval {l l' u u' : Nat} (hl : l = l') (hu : u = u') :
    SameSession { a with low := l, high := u } { b with low := l', high := u' } :=
  ⟨h.cfg, h.ph, h.err, h.held, h.model, h.inp, fun _ => hl, fun _ => hu, h.total, h.sent, h.pend, h.outlen, h.out, h.code,
    h.cur, h.symlen, h.symout⟩

theorem SameSession.setEncoder {p p' n n' : Nat} {o o' : List Bool} (hp : p = p') (ho : o = o') (hn : n = n') :
    SameSession { a with pend := p, out := o, outlen := n } { b with pend := p', out := o', outlen := n' } :=
  ⟨h.cfg, h.ph, h.err, h.held, h.model, h.inp, h.low, h.high, h.total, h.sent, fun _ => hp, fun _ => hn, fun _ => ho, h.code,
    h.cur, h.symlen, h.symout⟩

/-- The decoder's window. -/
theorem SameSession.setWindow {v v' k k' : Nat} (hv : v = v') (hk : k = k') :
    SameSession { a with code := v, cur := k } { b with code := v', cur := k' } :=
  ⟨h.cfg, h.ph, h.err, h.held, h.model, h.inp, h.low, h.high, h.total, h.sent, h.pend, h.outlen, h.out, fun _ => hv,
    fun _ => hk, h.symlen, h.symout⟩

/-- The decoder's sequence. -/
theorem SameSession.setSymbols {n n' : Nat} {o o' : List Nat} (ho : o = o') (hn : n = n') :
    SameSession { a with symout := o, symlen := n } { b with symout := o', symlen := n' } :=
  ⟨h.cfg, h.ph, h.err, h.held, h.model, h.inp, h.low, h.high, h.total, h.sent, h.pend, h.outlen, h.out, h.code, h.cur,
    fun _ => hn, fun _ => ho⟩

end Updates

/-! ### The interval unit -/

section Interval

variable {a b : State} (h : SameSession a b) (hh : a.held ≠ none)
include h hh

theorem SameSession.renormCase : renormCase a = renormCase b := by
  simp only [Machine.renormCase, h.cfg, h.low hh, h.high hh]

theorem SameSession.hasInterval : hasInterval a = hasInterval b := by
  simp only [Machine.hasInterval, h.low hh, h.high hh, h.total hh]

theorem SameSession.scaleInterval (k : RenormCase) : SameSession (scaleInterval k a) (scaleInterval k b) :=
  h.setInterval (by rw [h.cfg, h.low hh]) (by rw [h.cfg, h.high hh])

/-- NARROW answers alike. -/
theorem SameSession.narrow (e : Entry) :
    (narrow e a = none ∧ narrow e b = none) ∨
      ∃ a₁ b₁, narrow e a = some a₁ ∧ narrow e b = some b₁ ∧ SameSession a₁ b₁ ∧ a₁.held = a.held := by
  have hl : narrowLow a.low a.high a.total e.cl = narrowLow b.low b.high b.total e.cl := by
    rw [h.low hh, h.high hh, h.total hh]
  have hu : narrowEnd a.low a.high a.total e.ch = narrowEnd b.low b.high b.total e.ch := by
    rw [h.low hh, h.high hh, h.total hh]
  unfold Machine.narrow
  rw [← hl, ← hu]
  split_ifs
  · exact .inr ⟨_, _, rfl, rfl, h.setInterval rfl rfl, rfl⟩
  · exact .inl ⟨rfl, rfl⟩

end Interval

/-! ### The encoder's operations -/

section Encoder

variable {a b : State} (h : SameSession a b) (hh : a.held = some .encoder)
include h hh

theorem SameSession.pendFull : pendFull a = pendFull b := by
  simp only [Machine.pendFull, h.cfg, h.pend hh]

/-- EMIT appends the same bits. -/
theorem SameSession.emit (v : Bool) : SameSession (emit v a) (emit v b) := by
  rw [emit_eq, emit_eq]
  refine h.setEncoder rfl ?_ ?_
  · rw [h.out hh, h.pend hh]
  · rw [h.outlen hh, h.pend hh]

theorem SameSession.encE1 : SameSession (encE1 a) (encE1 b) :=
  (h.emit hh false).scaleInterval (by simp [emit_eq, hh]) .e1

theorem SameSession.encE2 : SameSession (encE2 a) (encE2 b) :=
  (h.emit hh true).scaleInterval (by simp [emit_eq, hh]) .e2

theorem SameSession.encE3 : SameSession (encE3 a) (encE3 b) :=
  (h.setEncoder (congrArg (· + 1) (h.pend hh)) (h.out hh) (h.outlen hh)).scaleInterval (by simp [hh]) .e3

end Encoder

/-- The encoder's loop ends alike. -/
theorem SameSession.renormEnc {a b : State} (h : SameSession a b) (hh : a.held = some .encoder) (fuel : Nat) :
    (∃ a₁ b₁, renormEnc fuel a = .done a₁ ∧ renormEnc fuel b = .done b₁ ∧ SameSession a₁ b₁ ∧ a₁.held = some .encoder) ∨
      (renormEnc fuel a = .overflow ∧ renormEnc fuel b = .overflow) ∨
      (renormEnc fuel a = .endless ∧ renormEnc fuel b = .endless) := by
  induction fuel generalizing a b with
  | zero =>
    simp only [Machine.renormEnc, ← h.renormCase (by simp [hh])]
    split_ifs
    · exact .inl ⟨a, b, rfl, rfl, h, hh⟩
    · exact .inr (.inr ⟨rfl, rfl⟩)
  | succ fuel ih =>
    simp only [Machine.renormEnc, ← h.renormCase (by simp [hh]), ← h.pendFull hh]
    cases hk : Machine.renormCase a with
    | stop => exact .inl ⟨a, b, rfl, rfl, h, hh⟩
    | e1 => exact ih (h.encE1 hh) (by rw [encE1_eq]; exact hh)
    | e2 => exact ih (h.encE2 hh) (by rw [encE2_eq]; exact hh)
    | e3 =>
      cases Machine.pendFull a with
      | true => exact .inr (.inl ⟨rfl, rfl⟩)
      | false => exact ih (h.encE3 hh) hh

/-! ### The decoder's operations -/

section Decoder

variable {a b : State} (h : SameSession a b) (hh : a.held = some .decoder)
include h hh

theorem SameSession.sourceBit : sourceBit a = sourceBit b := by
  simp only [Machine.sourceBit, h.inp, h.cur hh]

theorem SameSession.targetNow : targetNow a = targetNow b := by
  have hh' : a.held ≠ none := by simp [hh]
  simp only [Machine.targetNow, h.cfg, h.low hh', h.high hh', h.code hh, h.total hh']

theorem SameSession.symPut (x : Nat) : SameSession (symPut x a) (symPut x b) :=
  h.setSymbols (by rw [h.symout hh]) (by rw [h.symlen hh])

theorem SameSession.shiftCode (k : RenormCase) : SameSession (shiftCode k a) (shiftCode k b) :=
  h.setWindow (by rw [h.cfg, h.code hh, h.sourceBit hh]) (congrArg (· + 1) (h.cur hh))

/-- A step of the decoder keeps the agreement, whatever its case. -/
theorem SameSession.decStep (k : RenormCase) :
    SameSession (Machine.scaleInterval k (Machine.shiftCode k a)) (Machine.scaleInterval k (Machine.shiftCode k b)) :=
  (h.shiftCode hh k).scaleInterval (by simp [hh]) k

end Decoder

/-- The decoder's loop ends alike. -/
theorem SameSession.renormDec {a b : State} (h : SameSession a b) (hh : a.held = some .decoder) (fuel : Nat) :
    (renormDec fuel a = none ∧ renormDec fuel b = none) ∨
      ∃ a₁ b₁, renormDec fuel a = some a₁ ∧ renormDec fuel b = some b₁ ∧ SameSession a₁ b₁ := by
  induction fuel generalizing a b with
  | zero =>
    simp only [Machine.renormDec, ← h.renormCase (by simp [hh])]
    split_ifs
    · exact .inr ⟨a, b, rfl, rfl, h⟩
    · exact .inl ⟨rfl, rfl⟩
  | succ fuel ih =>
    simp only [Machine.renormDec, ← h.renormCase (by simp [hh])]
    cases hk : Machine.renormCase a with
    | stop => exact .inr ⟨a, b, rfl, rfl, h⟩
    | e1 => exact ih (h.decStep hh .e1) hh
    | e2 => exact ih (h.decStep hh .e2) hh
    | e3 => exact ih (h.decStep hh .e3) hh

/-! ### The starts of the two sessions, and the end of any -/

theorem SameSession.startEncoder {a b : State} (h : SameSession a b) : SameSession (startEncoder a) (startEncoder b) where
  cfg := h.cfg
  ph := rfl
  err := h.err
  held := rfl
  model := h.model
  inp := h.inp
  low _ := rfl
  high _ := congrArg Config.top h.cfg
  total _ := congrArg ModelTable.total h.model
  sent _ := congrArg ModelTable.sentinel h.model
  pend _ := rfl
  outlen _ := rfl
  out _ := rfl
  code := nofun
  cur := nofun
  symlen := nofun
  symout := nofun

/-- The window `DEC_INIT` fills is the number the first `P` bits of the source write (R150). -/
theorem startDecoder_code_eq (s : State) :
    (startDecoder s).code = bitsFrom (fun i => s.inp.getD i false) 0 s.cfg.prec := by
  have hbits := fillWindow_bits s.cfg.prec { latchSession (forgetEncoder s) with cur := 0, code := 0 }
  rw [Nat.mul_zero, Nat.zero_add] at hbits
  exact hbits

theorem SameSession.startDecoder {a b : State} (h : SameSession a b) : SameSession (startDecoder a) (startDecoder b) := by
  have hcode : (Machine.startDecoder a).code = (Machine.startDecoder b).code := by
    rw [startDecoder_code_eq, startDecoder_code_eq, h.inp, h.cfg]
  rw [startDecoder_frame a, startDecoder_frame b, ← hcode]
  exact {
    cfg := h.cfg, ph := rfl, err := h.err, held := rfl, model := h.model, inp := h.inp
    low := fun _ => rfl
    high := fun _ => congrArg Config.top h.cfg
    total := fun _ => congrArg ModelTable.total h.model
    sent := fun _ => congrArg ModelTable.sentinel h.model
    pend := nofun, outlen := nofun, out := nofun
    code := fun _ => rfl
    cur := fun _ => congrArg Config.prec h.cfg
    symlen := fun _ => rfl
    symout := fun _ => rfl }

theorem SameSession.resetEngine {a b : State} (h : SameSession a b) : SameSession (resetEngine a) (resetEngine b) where
  cfg := h.cfg
  ph := rfl
  err := rfl
  held := rfl
  model := h.model
  inp := h.inp
  low hh := absurd rfl hh
  high hh := absurd rfl hh
  total hh := absurd rfl hh
  sent hh := absurd rfl hh
  pend := nofun
  outlen := nofun
  out := nofun
  code := nofun
  cur := nofun
  symlen := nofun
  symout := nofun

/-! ### The commands -/

theorem SameSession.openSession {a b : State} (h : SameSession a b) {start : State → State}
    (hstart : SameSession (start a) (start b)) :
    Result.Related SameSession (openSession start a) (openSession start b) := by
  simp only [Machine.openSession, ← h.cfg, ← h.model]
  split_ifs
  · exact h.raise _
  · exact h.raise _
  · exact hstart

/-- The phase check looks at the phase only. -/
theorem SameSession.guarded {a b : State} (h : SameSession a b) {i : Instr} {body : State → Result}
    (hbody : accepts i a.ph = true → Result.Related SameSession (body a) (body b)) :
    Result.Related SameSession (guarded i body a) (guarded i body b) := by
  simp only [Machine.guarded, ← h.ph]
  split_ifs with hf ha
  · exact h
  · exact hbody ha
  · exact h.raise _

theorem SameSession.endEncSym {a b : State} (h : SameSession a b) (hh : a.held ≠ none) (x : Nat) :
    SameSession (endEncSym x a) (endEncSym x b) := by
  rw [endEncSym_eq, endEncSym_eq]
  exact h.setPhase (by rw [h.sent hh, h.ph])

/-- NARROW and the encoder's loop answer alike. -/
theorem SameSession.encodeEntry {a b : State} (h : SameSession a b) (hh : a.held = some .encoder) (x : Nat) (e : Entry) :
    Result.Related SameSession (encodeEntry x e a) (encodeEntry x e b) := by
  simp only [Machine.encodeEntry, ← h.cfg]
  rcases h.narrow (by simp [hh]) e with ⟨ha, hb⟩ | ⟨a₁, b₁, ha, hb, h₁, hh₁⟩
  · simp only [ha, hb, Result.Related]
  · simp only [ha, hb]
    rcases h₁.renormEnc (hh₁.trans hh) a.cfg.prec with ⟨a₂, b₂, ha₂, hb₂, h₂, hh₂⟩ | ⟨ha₂, hb₂⟩ | ⟨ha₂, hb₂⟩
    · simp only [ha₂, hb₂, Result.Related]
      exact h₂.endEncSym (by simp [hh₂]) x
    · simp only [ha₂, hb₂, Result.Related]
      exact h.raise _
    · simp only [ha₂, hb₂, Result.Related]

theorem SameSession.encSymBody {a b : State} (h : SameSession a b) (hh : a.held = some .encoder) (x : Nat) :
    Result.Related SameSession (encSymBody x a) (encSymBody x b) := by
  simp only [Machine.encSymBody, ← h.model, ← h.hasInterval (by simp [hh])]
  cases a.model.bySymbol x with
  | none => exact h.raise _
  | some e =>
    cases Machine.hasInterval a with
    | false => exact rfl
    | true => exact h.encodeEntry hh x e

theorem SameSession.encFlushBody {a b : State} (h : SameSession a b) (hh : a.held = some .encoder) :
    Result.Related SameSession (encFlushBody a) (encFlushBody b) := by
  have hbit : (!decide (b.low < b.cfg.firstQuarter)) = !decide (a.low < a.cfg.firstQuarter) := by
    rw [h.low (by simp [hh]), h.cfg]
  have hcount : SameSession { a with pend := a.pend + 1 } { b with pend := b.pend + 1 } :=
    h.setEncoder (congrArg (· + 1) (h.pend hh)) (h.out hh) (h.outlen hh)
  simp only [Machine.encFlushBody, ← h.pendFull hh, hbit]
  cases Machine.pendFull a with
  | true => exact h.raise _
  | false => exact (hcount.emit hh _).setPhase rfl

/-- SYMPUT, NARROW and the decoder's loop answer alike. -/
theorem SameSession.decodeEntry {a b : State} (h : SameSession a b) (hh : a.held = some .decoder) (e : Entry) :
    Result.Related SameSession (decodeEntry e a) (decodeEntry e b) := by
  simp only [Machine.decodeEntry, ← h.cfg]
  rcases (h.symPut hh e.symbol).narrow (by simp [hh]) e with ⟨ha, hb⟩ | ⟨a₁, b₁, ha, hb, h₁, hh₁⟩
  · simp only [ha, hb, Result.Related]
  · simp only [ha, hb]
    rcases h₁.renormDec (hh₁.trans hh) a.cfg.prec with ⟨ha₂, hb₂⟩ | ⟨a₂, b₂, ha₂, hb₂, h₂⟩
    · simp only [ha₂, hb₂, Result.Related]
    · simp only [ha₂, hb₂, Result.Related]
      exact h₂

theorem SameSession.decSymBody {a b : State} (h : SameSession a b) (hh : a.held = some .decoder) :
    Result.Related SameSession (decSymBody a) (decSymBody b) := by
  have hne : a.held ≠ none := by simp [hh]
  have hlook : b.model.byTarget (Machine.targetNow b) = a.model.byTarget (Machine.targetNow a) := by
    rw [h.model, h.targetNow hh]
  simp only [Machine.decSymBody, ← h.hasInterval hne, hlook]
  cases Machine.hasInterval a with
  | false => exact rfl
  | true =>
    cases a.model.byTarget (Machine.targetNow a) with
    | none => exact h.raise _
    | some e =>
      by_cases hx : e.symbol = a.sent
      · simp only [if_true, if_pos hx, if_pos (hx.trans (h.sent hne))]
        exact h.setPhase rfl
      · simp only [if_true, if_neg hx, if_neg (h.sent hne ▸ hx)]
        exact h.decodeEntry hh e

/-! ### The obligation -/

/-- Settles O60 (R38): each command's rule answers alike, in the phases that accept it. -/
theorem sessionsForgetThePast : Obligations.SessionsForgetThePast := by
  unfold Obligations.SessionsForgetThePast
  intro a b i hinv _ h
  cases i with
  | nop => exact h
  | reset => exact h.resetEngine
  | encInit => exact h.guarded fun _ => h.openSession h.startEncoder
  | decInit => exact h.guarded fun _ => h.openSession h.startDecoder
  | encSym x => exact h.guarded fun ha => h.encSymBody (hinv.held_of_enc (by simpa [accepts] using ha)) x
  | encFlush =>
    exact h.guarded fun ha => h.encFlushBody (hinv.held_of_phase (p := .encEos) (by simpa [accepts] using ha) (by decide))
  | decSym => exact h.guarded fun ha => h.decSymBody (hinv.held_of_dec (by simpa [accepts] using ha))

end Sys2Proof.Machine
end

section
/-! Encoder and decoder together (40_interval.md R106; 41_encoder.md R130; 42_decoder.md R161): from equal intervals a decoded
symbol leaves equal intervals, and what a session of the encoder wrote a session of the decoder reads back. -/

namespace Sys2Proof.Machine

open Sys2Proof

/-! ### Intervals of two machines that move alike (R106) -/

/-- Two machines with the same precision on the same interval. -/
structure SameInterval (a b : State) : Prop where
  prec : a.cfg.prec = b.cfg.prec
  low : a.low = b.low
  high : a.high = b.high

/-- The cases and the scalings depend on `P` only (R5). -/
theorem SameInterval.renormCase {a b : State} (h : SameInterval a b) : renormCase a = renormCase b := by
  have hhalf : a.cfg.half = b.cfg.half := by simp only [Config.half, h.prec]
  have hfirst : a.cfg.firstQuarter = b.cfg.firstQuarter := by simp only [Config.firstQuarter, h.prec]
  rw [Machine.renormCase, Machine.renormCase, caseOf, caseOf, thirdQuarter_eq, thirdQuarter_eq, hhalf, hfirst, h.low, h.high]

theorem scale_eq_of_prec {c d : Config} (h : c.prec = d.prec) (k : RenormCase) (x : Nat) (f : Bool) :
    scale c k x f = scale d k x f := by
  cases k <;> simp only [scale, offsetOf, Config.half, Config.firstQuarter, h]

/-- A micro-step of each moves both intervals alike. -/
theorem SameInterval.step {a b a' b' : State} (h : SameInterval a b) (ha : IntervalStep a a') (hb : IntervalStep b b') :
    SameInterval a' b' := by
  refine ⟨by rw [ha.cfg, hb.cfg, h.prec], ?_, ?_⟩
  · rw [ha.low, hb.low, h.renormCase, h.low, scale_eq_of_prec h.prec]
  · rw [ha.high, hb.high, h.renormCase, h.high, scale_eq_of_prec h.prec]

/-- Two runs of micro-steps to their ends stay together. -/
theorem SameInterval.steps {n m : Nat} {a b a' b' : State} (h : SameInterval a b) (ha : Steps EncStep n a a')
    (hb : Steps DecStep m b b') (hka : Machine.renormCase a' = .stop) (hkb : Machine.renormCase b' = .stop) :
    SameInterval a' b' := by
  induction ha generalizing m b with
  | refl a =>
    cases hb with
    | refl => exact h
    | cons hst _ => exact absurd (h.renormCase ▸ hka) hst.interval.moves
  | cons hst _ ih =>
    cases hb with
    | refl => exact absurd (h.renormCase.trans hkb) hst.interval.moves
    | cons hst' hs' => exact ih (h.step hst.interval hst'.interval) hs' hka

/-- NARROW to the same entry keeps the intervals equal. -/
theorem SameInterval.narrow {a b a₁ b₁ : State} {e : Entry} (h : SameInterval a b) (htot : a.total = b.total)
    (ha : narrow e a = some a₁) (hb : narrow e b = some b₁) : SameInterval a₁ b₁ := by
  obtain ⟨-, rfl⟩ := narrow_eq_some.1 ha
  obtain ⟨-, rfl⟩ := narrow_eq_some.1 hb
  exact ⟨h.prec, by simp only [h.low, h.high, htot], by simp only [h.low, h.high, htot]⟩

/-- What `DEC_SYM` did where it appended a symbol (R157): that symbol's entry was found. -/
theorem decSym_appended {b b' : State} {x : Nat} (h : exec .decSym b = .next b')
    (hx : b'.symout = b.symout ++ [x]) :
    ∃ e b₁ n, e ∈ b.model.entries ∧ e.symbol = x ∧ narrow e (symPut x b) = some b₁ ∧ Steps DecStep n b₁ b' ∧
      renormCase b' = .stop := by
  have hne : b.symout ≠ b'.symout := by simp [hx]
  cases exec_next h with
  | ignored | raised | decSentinel => exact absurd rfl hne
  | @decSymbol e n _ b₁ _ _ _ he _ hn _ hs hk =>
    rw [narrow_dec_frame hn hs] at hx
    obtain rfl : e.symbol = x := by simpa using hx
    exact ⟨e, b₁, n, (byTarget_some he).1, rfl, hn, hs, hk⟩

/-- Settles O35 (R106): both narrow to the one entry of the symbol, and their micro-steps move the intervals alike. -/
theorem decoderMirrorsEncoder : Obligations.DecoderMirrorsEncoder := by
  unfold Obligations.DecoderMirrorsEncoder
  intro a b a' b' x hprec _ hw hmodel hlow hhigh htot hpa _ ha hfault hb hx
  obtain ⟨e, a₁, n, u, he, -, hna, -, hsa, hka, rfl⟩ := encSym_completed hpa ha hfault
  obtain ⟨e', b₁, m, hmem, rfl, hnb, hsb, hkb⟩ := decSym_appended hb hx
  rw [← hmodel] at hmem
  obtain rfl : e' = e := Option.some.inj ((hw.bySymbol_eq hmem).symm.trans he)
  have hsame : SameInterval a (symPut e'.symbol b) := ⟨hprec, hlow, hhigh⟩
  have hend := (hsame.narrow htot hna hnb).steps hsa hsb hka hkb
  rw [endEncSym_eq]
  exact ⟨hend.low, hend.high⟩

/-! ### A text encoded, and the code it stands for (R130, R161) -/

/-- The symbols of a text encoded one after another, the ends of their commands aside. -/
inductive EncodesText : List Nat → State → State → Prop where
  | nil (s : State) : EncodesText [] s s
  | cons {x : Nat} {xs : List Nat} {s u t : State} (h : EncodesSymbol x s u) (ht : EncodesText xs u t) :
      EncodesText (x :: xs) s t

/-- The sequence `S` that follows gives a decoder that stands where `s` stands a code in `s`'s interval. -/
def CodeInside (S : Nat → Bool) (s : State) : Prop := (s.low : Int) ≤ codeAt S s ∧ codeAt S s ≤ s.high

theorem EncodesSymbol.out {x : Nat} {s u : State} (h : EncodesSymbol x s u) : ∃ w, u.out = s.out ++ w := by
  obtain ⟨-, -, hn, -, -, -, hs, -⟩ := h
  obtain ⟨w, hw, -⟩ := narrow_enc_counts hn hs
  exact ⟨w, hw⟩

theorem EncodesText.out {xs : List Nat} {s t : State} (h : EncodesText xs s t) : ∃ w, t.out = s.out ++ w := by
  induction h with
  | nil s => exact ⟨[], (List.append_nil _).symm⟩
  | cons hx _ ih =>
    obtain ⟨w, hw⟩ := hx.out
    obtain ⟨w', hw'⟩ := ih
    exact ⟨w ++ w', by rw [hw', hw, List.append_assoc]⟩

theorem EncodesText.begins {xs : List Nat} {s t : State} {S : Nat → Bool} (h : EncodesText xs s t) (hS : Begins t.out S) :
    Begins s.out S := by
  obtain ⟨w, hw⟩ := h.out
  exact (hw ▸ hS).of_append

/-- NARROW moves neither the bits nor the count, so the code is the same. -/
theorem codeAt_narrow {S : Nat → Bool} {e : Entry} {s s₁ : State} (hn : narrow e s = some s₁) : codeAt S s₁ = codeAt S s := by
  rw [(narrow_eq_some.1 hn).2]
  rfl

/-- If the code is in the interval once a symbol is encoded, it was before. -/
theorem EncodesSymbol.codeInside {x : Nat} {s u : State} {S : Nat → Bool} (h : EncodesSymbol x s u) (hP : 2 ≤ s.cfg.prec)
    (hS : Begins u.out S) (hu : CodeInside S u) : CodeInside S s := by
  obtain ⟨-, -, hn, hl, hh, -, hs, -⟩ := h
  have hcfg := congrArg State.cfg (narrow_eq_some.1 hn).2
  obtain ⟨h1, h2⟩ := hs.codeAt_back (by rw [hcfg]; exact hP) (narrow_low_le_high hn) hS hu.1 hu.2
  rw [codeAt_narrow hn] at h1 h2
  exact ⟨by omega, by omega⟩

theorem EncodesText.codeInside {xs : List Nat} {s t : State} {S : Nat → Bool} (h : EncodesText xs s t) (hP : 2 ≤ s.cfg.prec)
    (hS : Begins t.out S) (ht : CodeInside S t) : CodeInside S s := by
  induction h with
  | nil s => exact ht
  | cons hx hxs ih =>
    have hcfg := congrArg State.cfg hx.frame
    exact hx.codeInside hP (hxs.begins hS) (ih (by rw [hcfg]; exact hP) hS ht)

/-! ### The encoder's side (R87) -/

theorem wf_encSym {n x : Nat} (hn : n ≤ 24) (hx : x < 2 ^ n) : (Instr.encSym x).wf n = true := by
  have hfield := Nat.pow_le_pow_right (show 0 < 2 by decide) hn
  simp only [Instr.wf, Bool.and_eq_true, decide_eq_true_eq]
  exact ⟨hx, hx.trans_le hfield⟩

theorem runCommands_cons_of_completed {i : Instr} {is : List Instr} {s t : State} (h : issueCommand i s = .next t)
    (ht : t.ph ≠ .fault) : runCommands (i :: is) s = runCommands is t := by
  simp only [runCommands, h, if_neg ht]

theorem runCommands_cons_of_fault {i : Instr} {is : List Instr} {s t : State} (h : issueCommand i s = .next t)
    (ht : t.ph = .fault) : runCommands (i :: is) s = .next t := by
  simp only [runCommands, h, if_pos ht]

/-- The command stream ended in `PendingOverflow`, which takes a bounded counter (R206). -/
def Overflowed (c : Config) (t : State) : Prop := c.pendMax ≠ none ∧ t.ph = .fault ∧ t.err = some .pendingOverflow

/-- The encoder's final state: `v`'s bits and the two final ones the flush writes, with the pending ones between (R128). -/
def Flushed (v t : State) : Prop :=
  t.ph = .encDone ∧
    t.out = v.out ++ (!decide (v.low < v.cfg.firstQuarter)) :: List.replicate (v.pend + 1) (decide (v.low < v.cfg.firstQuarter))

/-- An encoder between two symbols of a text. -/
structure Encoding (s : State) : Prop where
  session : TableSession s
  ph : s.ph = .enc
  symBits_le : s.cfg.symBits ≤ 24

/-- The flush in the phase the sentinel leaves (R128). -/
theorem runCommands_flush {w : State} (hp : w.ph = .encEos) :
    ∃ t, runCommands [.encFlush] w = .next t ∧ (Overflowed w.cfg t ∨ Flushed w t) := by
  have hissue : issueCommand .encFlush w = encFlushBody w := (issueCommand_of_wf rfl).trans (exec_encFlush hp)
  by_cases hf : w.cfg.pendMax = some w.pend
  · rw [encFlushBody_full hf] at hissue
    exact ⟨_, runCommands_cons_of_fault hissue rfl, .inl ⟨by simp [hf], rfl, rfl⟩⟩
  · rw [encFlushBody_room hf (!decide (w.low < w.cfg.firstQuarter)) (Bool.not_not _).symm, Bool.not_not] at hissue
    exact ⟨_, runCommands_cons_of_completed hissue nofun, .inr ⟨rfl, rfl⟩⟩

/-- A symbol of a text is encoded, and the encoder stands between two symbols again; or the counter overflows. -/
theorem Encoding.issue {s : State} {x : Nat} (h : Encoding s) (hx : x < 2 ^ s.cfg.symBits)
    (hmem : ∃ a ∈ s.model.entries, a.symbol = x) :
    (∃ u, EncodesSymbol x s u ∧ TableSession u ∧ issueCommand (.encSym x) s = .next (endEncSym x u)) ∨
      (∃ t, issueCommand (.encSym x) s = .next t ∧ Overflowed s.cfg t) := by
  obtain ⟨a, ha, rfl⟩ := hmem
  rw [issueCommand_of_wf (wf_encSym h.symBits_le hx)]
  rcases h.session.exec_encSym h.ph ha with ⟨u, hu, he⟩ | ⟨hb, he⟩
  · exact .inl ⟨u, hu, h.session.encoded hu, he⟩
  · exact .inr ⟨_, he, hb, rfl, rfl⟩

/-- Encoding the rest of a text, the sentinel and the flush, by induction on the rest (R87). -/
theorem Encoding.run {s : State} {xs : List Nat} (h : Encoding s) (hwide : ∀ x ∈ s.sent :: xs, x < 2 ^ s.cfg.symBits)
    (hmem : ∀ x ∈ s.sent :: xs, ∃ a ∈ s.model.entries, a.symbol = x) (hsent : s.sent ∉ xs) :
    ∃ t, runCommands (xs.map Instr.encSym ++ [.encSym s.sent, .encFlush]) s = .next t ∧
      (Overflowed s.cfg t ∨ ∃ v, EncodesText (xs ++ [s.sent]) s v ∧ TableSession v ∧ Flushed v t) := by
  induction xs generalizing s with
  | nil =>
    rcases h.issue (hwide _ List.mem_cons_self) (hmem _ List.mem_cons_self) with ⟨u, hu, hsess, he⟩ | ⟨t, he, ht⟩
    · have hend : endEncSym s.sent u = { u with ph := .encEos } := if_pos (by rw [hu.frame])
      rw [hend] at he
      have hcfg : u.cfg = s.cfg := by rw [hu.frame]
      obtain ⟨t, hrun, ht⟩ := runCommands_flush (w := { u with ph := .encEos }) rfl
      exact ⟨t, (runCommands_cons_of_completed he nofun).trans hrun,
        ht.imp (hcfg ▸ ·) fun hf => ⟨u, .cons hu (.nil u), hsess, hf⟩⟩
    · exact ⟨t, runCommands_cons_of_fault he ht.2.1, .inl ht⟩
  | cons x xs ih =>
    have hx : x ∈ s.sent :: x :: xs := by simp
    rcases h.issue (hwide x hx) (hmem x hx) with ⟨u, hu, hsess, he⟩ | ⟨t, he, ht⟩
    · have hcfg : u.cfg = s.cfg := by rw [hu.frame]
      have hmodel : u.model = s.model := by rw [hu.frame]
      have hsu : u.sent = s.sent := by rw [hu.frame]
      have hph : u.ph = .enc := by rw [hu.frame]; exact h.ph
      have hne : x ≠ s.sent := fun hxs => hsent (by simp [hxs])
      have hend : endEncSym x u = u := if_neg (by rwa [hsu])
      have hsub : ∀ y ∈ s.sent :: xs, y ∈ s.sent :: x :: xs := by
        intro y hy
        rcases List.mem_cons.1 hy with rfl | hy <;> simp [*]
      rw [hend] at he
      obtain ⟨t, hrun, ht⟩ := ih (s := u) ⟨hsess, hph, hcfg ▸ h.symBits_le⟩
        (by rw [hsu, hcfg]; exact fun y hy => hwide y (hsub y hy))
        (by rw [hsu, hmodel]; exact fun y hy => hmem y (hsub y hy))
        (by rw [hsu]; exact fun hin => hsent (List.mem_cons_of_mem _ hin))
      rw [hsu] at hrun ht
      rw [hcfg] at ht
      refine ⟨t, (runCommands_cons_of_completed he (by simp [hph])).trans hrun, ht.imp_right ?_⟩
      rintro ⟨v, hv, hsv, hf⟩
      exact ⟨v, .cons hu hv, hsv, hf⟩
    · exact ⟨t, runCommands_cons_of_fault he ht.2.1, .inl ht⟩

/-! ### The decoder's side (R88) -/

/-- A decoder between two symbols of a text that an encoder at `e` goes on to encode, its source being `S`. -/
structure Decoding (S : Nat → Bool) (e d : State) : Prop where
  lockstep : Lockstep S e d
  ph : d.ph = .dec
  model : d.model = e.model
  total : d.total = e.total
  sent : d.sent = e.sent
  exact : d.cfg.targetRule = .exact

theorem Decoding.hasInterval {S : Nat → Bool} {e d : State} (h : Decoding S e d) (he : TableSession e) :
    Machine.hasInterval d = true := by
  refine hasInterval_iff.2 ⟨?_, ?_⟩
  · rw [h.lockstep.low, h.lockstep.high]; exact he.interval.low_le_high
  · rw [h.total]; exact he.interval.total_pos

/-- The decoder finds the entry of the symbol the encoder encodes (R151): the code is in the entry's part. -/
theorem Decoding.byTarget {S : Nat → Bool} {e d s₁ : State} {a : Entry} (h : Decoding S e d) (he : TableSession e)
    (ha : a ∈ e.model.entries) (hn : narrow a e = some s₁) (hc : CodeInside S s₁) :
    d.model.byTarget (targetNow d) = some a := by
  obtain ⟨hl, hh⟩ := hc
  obtain ⟨hlow, hhigh⟩ := narrow_ends hn
  rw [codeAt_narrow hn, ← h.lockstep.code] at hl hh
  have htot : d.total = e.model.total := h.total.trans he.total_eq
  refine he.wf.byTarget_of_code ha h.exact h.model htot ?_ ?_ ?_
  · rw [h.lockstep.low, h.lockstep.high]; exact he.interval.low_le_high
  · rw [h.lockstep.low, h.lockstep.high, ← he.total_eq, ← hlow]; omega
  · rw [narrowEnd_eq_narrowLow, h.lockstep.low, h.lockstep.high, ← he.total_eq, ← hhigh]; omega

/-- NARROW on both sides keeps the lockstep; the decoder puts its symbol out before (R106). -/
theorem Lockstep.narrow_symPut {S : Nat → Bool} {e d s₁ : State} {a : Entry} (h : Lockstep S e d) (htot : d.total = e.total)
    (hn : narrow a e = some s₁) : ∃ d₁, narrow a (symPut a.symbol d) = some d₁ ∧ Lockstep S s₁ d₁ := by
  have hcode : (d.code : Int) = codeAt S s₁ := h.code.trans (codeAt_narrow hn).symm
  obtain ⟨hne, rfl⟩ := narrow_eq_some.1 hn
  rw [← h.low, ← h.high, ← htot] at hne
  refine ⟨_, narrow_eq_some.2 ⟨hne, rfl⟩, h.cfg, ?_, ?_, hcode, h.cur, h.source⟩
  · rw [← h.low, ← h.high, ← htot]; rfl
  · rw [← h.low, ← h.high, ← htot]; rfl

/-- The decoder decodes the symbol the encoder encoded: it ends at the sentinel, and goes on in lockstep after any other
symbol (R106, R157). -/
theorem Decoding.symbol {S : Nat → Bool} {e d u : State} {x : Nat} (h : Decoding S e d) (he : TableSession e)
    (hx : EncodesSymbol x e u) (hS : Begins u.out S) (hu : CodeInside S u) :
    (x = e.sent ∧ exec .decSym d = .next { d with ph := .decDone }) ∨
      (x ≠ e.sent ∧ ∃ d', exec .decSym d = .next d' ∧ Decoding S u d' ∧ d'.symout = d.symout ++ [x]) := by
  have hframe := hx.frame
  obtain @⟨a, s₁, n, ha, rfl, hn, -, -, hle, hs, hk⟩ := hx
  have hP₁ : 2 ≤ s₁.cfg.prec := by
    rw [(narrow_eq_some.1 hn).2]
    exact he.interval.two_le_prec
  have hlh := narrow_low_le_high hn
  have hb := h.byTarget he ha hn (hs.codeAt_back hP₁ hlh hS hu.1 hu.2)
  have hi := h.hasInterval he
  by_cases hsent : a.symbol = e.sent
  · exact .inl ⟨hsent, exec_decSym_of_sentinel h.ph hi hb (hsent.trans h.sent.symm)⟩
  · refine .inr ⟨hsent, ?_⟩
    obtain ⟨d₁, hn₁, hlock⟩ := h.lockstep.narrow_symPut h.total hn
    obtain ⟨d₂, hs₂, hlock₂⟩ := hlock.steps hs hP₁ hlh hS hu.1 hu.2
    have hk₂ : renormCase d₂ = .stop := by
      rw [renormCase, hlock₂.cfg, hlock₂.low, hlock₂.high]
      exact hk
    have hloop : renormDec d.cfg.prec d₁ = some d₂ := renormDec_of_steps hs₂ (by rw [h.lockstep.cfg]; exact hle) hk₂
    have hdone : decodeEntry a d = .next d₂ := by simp only [decodeEntry, hn₁, hloop]
    refine ⟨d₂, (exec_decSym_of_symbol h.ph hi hb (by rwa [h.sent])).trans hdone, ?_, by rw [narrow_dec_frame hn₁ hs₂]⟩
    refine ⟨hlock₂, ?_, ?_, ?_, ?_, ?_⟩ <;> rw [narrow_dec_frame hn₁ hs₂]
    · exact h.ph
    · rw [hframe]; exact h.model
    · rw [hframe]; exact h.total
    · rw [hframe]; exact h.sent
    · exact h.exact

theorem decodeLoop_succ {d t : State} (hp : d.ph = .dec) (h : exec .decSym d = .next t) (fuel : Nat) :
    decodeLoop (fuel + 1) d = decodeLoop fuel t := by
  simp only [decodeLoop, if_pos hp, issueCommand_decSym, h]

/-- The decoder reads back the rest of a text, by induction on the rest (R161). -/
theorem Decoding.run {S : Nat → Bool} {e d v : State} {xs : List Nat} (h : Decoding S e d) (he : TableSession e)
    (htext : EncodesText (xs ++ [e.sent]) e v) (hsent : e.sent ∉ xs) (hS : Begins v.out S) (hv : CodeInside S v) :
    ∃ u, decodeLoop (xs.length + 1) d = .next u ∧ u.ph = .decDone ∧ u.symout = d.symout ++ xs := by
  induction xs generalizing e d with
  | nil =>
    cases htext with
    | cons hx hrest =>
      have hin := hrest.codeInside (he.encoded hx).interval.two_le_prec hS hv
      rcases h.symbol he hx (hrest.begins hS) hin with ⟨-, hdone⟩ | ⟨hne, -⟩
      · exact ⟨_, decodeLoop_succ h.ph hdone 0, rfl, (List.append_nil _).symm⟩
      · exact absurd rfl hne
  | cons x xs ih =>
    cases htext with
    | @cons _ _ _ u _ hx hrest =>
      have hin := hrest.codeInside (he.encoded hx).interval.two_le_prec hS hv
      have hsu : u.sent = e.sent := by rw [hx.frame]
      rcases h.symbol he hx (hrest.begins hS) hin with ⟨rfl, -⟩ | ⟨-, d', hstep, hd', hsym⟩
      · exact absurd List.mem_cons_self hsent
      · rw [← hsu] at hrest hsent
        obtain ⟨w, hloop, hdone, hout⟩ := ih hd' (he.encoded hx) hrest fun hmem => hsent (List.mem_cons_of_mem _ hmem)
        refine ⟨w, (decodeLoop_succ h.ph hstep _).trans hloop, hdone, ?_⟩
        rw [hout, hsym, List.append_assoc, List.singleton_append]

/-! ### The two sessions from their starts -/

/-- A session the encoder starts on a well-formed table. -/
theorem tableSession_startEncoder {s : State} (hw : s.model.WF) (h1 : s.model.total < s.cfg.firstQuarter) :
    TableSession (startEncoder s) :=
  ⟨intervalInv_startEncoder hw.2.2.2.2.2 h1, hw, rfl, Nat.le_refl _⟩

/-- Right after the inits decoder and encoder stand at the same place (R120, R150). -/
theorem decoding_start {s d : State} {S : Nat → Bool} (hcfg : d.cfg = s.cfg) (hmodel : d.model = s.model)
    (hr : d.cfg.targetRule = .exact) (hS : ∀ i, d.inp.getD i false = S i) :
    Decoding S (startEncoder s) (startDecoder d) := by
  have hcode : ((startDecoder d).code : Int) = codeAt S (startEncoder s) := by
    have hbits : (fun i => d.inp.getD i false) = S := funext hS
    rw [startDecoder_code_eq, hbits, hcfg]
    simp [codeAt, startEncoder]
  have hcur : cursorAt (startEncoder s) = s.cfg.prec := Nat.zero_add _
  refine ⟨⟨?_, ?_, ?_, hcode, ?_, ?_⟩, ?_, ?_, ?_, ?_, ?_⟩ <;> rw [startDecoder_frame]
  · exact hcfg
  · rfl
  · exact congrArg Config.top hcfg
  · rw [hcur, ← hcfg]
  · exact hS
  · exact hmodel
  · exact congrArg ModelTable.total hmodel
  · exact congrArg ModelTable.sentinel hmodel
  · exact hr

theorem exec_encInit_starts {s : State} (hp : s.ph = .idle) (h0 : 0 < s.model.total)
    (h1 : s.model.total < s.cfg.firstQuarter) : exec .encInit s = .next (startEncoder s) :=
  (exec_encInit (by simp [accepts, hp])).trans (openSession_accepted h0 h1)

theorem exec_decInit_starts {s : State} (hp : s.ph = .idle) (h0 : 0 < s.model.total)
    (h1 : s.model.total < s.cfg.firstQuarter) : exec .decInit s = .next (startDecoder s) :=
  (exec_decInit (by simp [accepts, hp])).trans (openSession_accepted h0 h1)

theorem begins_append (l w : List Bool) : Begins l (fun i => (l ++ w).getD i false) :=
  fun _ hi => List.getD_append _ _ _ _ hi

/-- Settles O53 (R161, R130): the bits the flush writes put the code in the last interval, so it was in each interval before, and
the decoder, in lockstep, finds each symbol of the text and then the sentinel. -/
theorem roundTripUnderExact : Obligations.RoundTripUnderExact := by
  unfold Obligations.RoundTripUnderExact
  rintro c text sentinel s - hbits hr hwide hsent hlen rfl hp hmodel
  have hw : s.model.WF := hmodel ▸ modelBuiltFrom_wf text sentinel
  have h1 : s.model.total < s.cfg.firstQuarter := by rw [hmodel, modelBuiltFrom_total]; exact hlen
  have hstart := tableSession_startEncoder hw h1
  have hs : (startEncoder s).sent = sentinel := congrArg ModelTable.sentinel hmodel
  have henc : Encoding (startEncoder s) := ⟨hstart, rfl, hbits⟩
  have hentries : ∀ x ∈ sentinel :: text, ∃ a ∈ (startEncoder s).model.entries, a.symbol = x := by
    rw [show (startEncoder s).model = modelBuiltFrom text sentinel from hmodel]
    exact fun x hx => exists_entry_of_mem hx
  obtain ⟨t, hrun, ht⟩ := henc.run (xs := text) (hs ▸ hwide) (hs ▸ hentries) (hs ▸ hsent)
  rw [hs] at hrun ht
  have hinit : issueCommand .encInit s = .next (startEncoder s) :=
    (issueCommand_of_wf rfl).trans (exec_encInit_starts hp hw.2.2.2.2.2 h1)
  refine ⟨t, (runCommands_cons_of_completed hinit nofun).trans hrun, ht.imp_right ?_⟩
  rintro ⟨v, hv, hsv, hdone, hout⟩
  refine ⟨hdone, fun d suffix hcfg hpd hmd hinp => ?_⟩
  have hdmodel : d.model = s.model := hmd.trans hmodel.symm
  have hS : Begins t.out (fun i => d.inp.getD i false) := hinp ▸ begins_append t.out suffix
  rw [hout] at hS
  have hdec : Decoding _ (startEncoder s) (startDecoder d) := decoding_start hcfg hdmodel (hcfg ▸ hr) fun _ => rfl
  obtain ⟨u, hloop, hu, hsym⟩ := hdec.run hstart (xs := text) (hs ▸ hv) (by rwa [hs]) hS.of_append
    (codeAt_flush hsv.interval.two_le_prec hsv.interval.stopped hS)
  have hdinit : exec .decInit d = .next (startDecoder d) :=
    exec_decInit_starts hpd (hdmodel ▸ hw.2.2.2.2.2) (by rw [hdmodel, hcfg]; exact h1)
  refine ⟨u, ?_, hu, ?_⟩
  · simp only [decodeSession, issueCommand_decInit, hdinit]
    exact hloop
  · rw [hsym, startDecoder_frame, List.nil_append]

end Sys2Proof.Machine
end

section
/-! Two decodes that do not give the text back (42_decoder.md R162; 90_conflicts.md C1): one that never ends, and program P4
under the document's literal target. -/

namespace Sys2Proof.Machine

open Sys2Proof

/-! ### R162's example -/

/-- The table of R162. -/
def halvesTable : ModelTable :=
  { entries := [{ symbol := 97, frequency := 1, cl := 0, ch := 1 }, { symbol := 256, frequency := 1, cl := 1, ch := 2 }]
    total := 2, sentinel := 256 }

/-- The decoder of R162 after `n` symbols: the interval and the window are what they were at the start. -/
structure DecodedHalves (n : Nat) (d : State) : Prop where
  cfg : d.cfg = Config.vectors
  ph : d.ph = .dec
  model : d.model = halvesTable
  inp : d.inp = []
  total : d.total = 2
  sent : d.sent = 256
  low : d.low = 0
  high : d.high = 255
  code : d.code = 0
  cur : d.cur = 8 + n
  symout : d.symout = List.replicate n 97

/-- The decoder once it put 97 out and narrowed to the lower half. -/
def halved (d : State) : State := { symPut 97 d with low := 0, high := 127 }

theorem DecodedHalves.narrow {n : Nat} {d : State} (h : DecodedHalves n d) :
    Machine.narrow { symbol := 97, frequency := 1, cl := 0, ch := 1 } (symPut 97 d) = some (halved d) := by
  have hlow : narrowLow d.low d.high d.total 0 = 0 := by rw [h.low, h.high, h.total]; decide
  have hend : narrowEnd d.low d.high d.total 1 = 128 := by rw [h.low, h.high, h.total]; decide
  refine narrow_eq_some.2 ⟨?_, ?_⟩ <;> simp only [symPut_low, symPut_high, symPut_total, hlow, hend]
  · decide
  · rfl

/-- One step D1 doubles the lower half to the whole again (R153). -/
theorem DecodedHalves.renormDec {n : Nat} {d : State} (h : DecodedHalves n d) :
    Machine.renormDec d.cfg.prec (halved d) = some (decD1 (halved d)) := by
  have hcase : renormCase (halved d) = .e1 := by
    change caseOf d.cfg 0 127 = .e1
    rw [h.cfg]
    decide
  have hstop : renormCase (decD1 (halved d)) = .stop := by
    change caseOf d.cfg (2 * 0) (2 * 127 + 1) = .stop
    rw [h.cfg]
    decide
  exact renormDec_of_steps (.cons (.d1 hcase) (.refl _)) (by rw [h.cfg]; decide) hstop

/-- `DEC_SYM` leaves the interval and the window as it found them. -/
theorem DecodedHalves.step {n : Nat} {d : State} (h : DecodedHalves n d) :
    ∃ d', exec .decSym d = .next d' ∧ DecodedHalves (n + 1) d' := by
  have hi : hasInterval d = true := hasInterval_iff.2 ⟨by simp [h.low], by simp [h.total]⟩
  have htarget : d.model.byTarget (targetNow d) = some { symbol := 97, frequency := 1, cl := 0, ch := 1 } := by
    rw [targetNow, h.model, h.cfg, h.low, h.high, h.code, h.total]
    decide
  refine ⟨decD1 (halved d), ?_, ?_⟩
  · rw [exec_decSym_of_symbol h.ph hi htarget (by simp [h.sent])]
    simp only [decodeEntry, h.narrow, h.renormDec]
  · rw [decD1_eq]
    have hcode : 2 * d.code + (d.inp.getD d.cur false).toNat = 0 := by simp [h.code, h.inp]
    have hcur : d.cur + 1 = 8 + (n + 1) := by rw [h.cur, Nat.add_assoc]
    have hsym : d.symout ++ [97] = List.replicate (n + 1) 97 := by rw [h.symout, List.replicate_succ']
    exact ⟨h.cfg, h.ph, h.model, h.inp, h.total, h.sent, rfl, rfl, hcode, hcur, hsym⟩

theorem DecodedHalves.loop {n : Nat} {d : State} (h : DecodedHalves n d) (fuel : Nat) :
    ∃ t, decodeLoop fuel d = .next t ∧ DecodedHalves (n + fuel) t := by
  induction fuel generalizing n d with
  | zero => exact ⟨d, rfl, h⟩
  | succ fuel ih =>
    obtain ⟨d', hstep, h'⟩ := h.step
    obtain ⟨t, hloop, ht⟩ := ih h'
    exact ⟨t, (decodeLoop_succ h.ph hstep fuel).trans hloop, by rwa [Nat.add_right_comm] at ht⟩

/-- An empty source gives a window of zeros (R60). -/
theorem bitsFrom_nil (k n : Nat) : bitsFrom (fun i => ([] : List Bool).getD i false) k n = 0 :=
  (bitsFrom_const (b := false) fun _ _ => rfl).trans (Nat.zero_mul _)

theorem decodedHalves_start {s : State} (hcfg : s.cfg = Config.vectors) (hm : s.model = halvesTable) (hin : s.inp = []) :
    DecodedHalves 0 (startDecoder s) := by
  have hcode : (startDecoder s).code = 0 := by rw [startDecoder_code_eq, hin, bitsFrom_nil]
  rw [startDecoder_frame, hcode]
  exact ⟨hcfg, rfl, hm, hin, congrArg ModelTable.total hm, congrArg ModelTable.sentinel hm, rfl, by simp [hcfg]; rfl, rfl,
    by simp [hcfg]; rfl, rfl⟩

/-- Settles O55 (R162): every `DEC_SYM` leaves the decoder as it found it, with one symbol more. -/
theorem decodeNeedNotEnd : Obligations.DecodeNeedNotEnd := by
  unfold Obligations.DecodeNeedNotEnd
  intro table s hcfg hp hm hin
  have hinit : exec .decInit s = .next (startDecoder s) :=
    exec_decInit_starts hp (by rw [hm]; decide) (by rw [hm, hcfg]; decide)
  have hrun : ∀ fuel, ∃ t, decodeSession fuel s = .next t ∧ DecodedHalves fuel t := by
    intro fuel
    obtain ⟨t, hloop, ht⟩ := (decodedHalves_start hcfg hm hin).loop fuel
    rw [Nat.zero_add] at ht
    refine ⟨t, ?_, ht⟩
    simp only [decodeSession, issueCommand_decInit, hinit]
    exact hloop
  refine ⟨fun fuel => ?_, fun t ⟨fuel, hfuel, hne⟩ => ?_⟩
  · obtain ⟨t, ht, h⟩ := hrun fuel
    exact ⟨t, ht, h.ph, h.low, h.high, h.code, h.cur, h.symout⟩
  · obtain ⟨u, hu, h⟩ := hrun fuel
    rw [next_inj (hfuel.symm.trans hu)] at hne
    exact hne h.ph

/-! ### Program P4 (C1) -/

/-- The answer is a next state with the property. -/
def Result.nextHas (p : State → Bool) : Result → Bool
  | .next t => p t
  | _ => false

theorem Result.exists_of_nextHas {p : State → Bool} {r : Result} (h : Result.nextHas p r = true) :
    ∃ t, r = .next t ∧ p t = true := by
  cases r with
  | next t => exact ⟨t, rfl, h⟩
  | fault | refused => cases h

/-- The engine of program P4 under the literal target. -/
def truncEngine : Config := { prec := 5, symBits := 9, pendMax := none, targetRule := .trunc }

/-- The bits program P4's encoder writes. -/
def bitsP4 : List Bool := [true, false, false, false, true, true, false, true, false]

theorem encode_P4 :
    Result.nextHas (fun t => t.ph = .encDone ∧ t.out = bitsP4)
      (runCommands (encodeCommands [98, 98, 97, 97] 256)
        { State.resetWith truncEngine with model := modelBuiltFrom [98, 98, 97, 97] 256 }) = true := by
  decide

theorem decode_P4_trunc :
    Result.nextHas (fun u => u.ph = .fault ∧ u.err = some .decodeRangeError)
      (decodeSession 5
        { State.resetWith truncEngine with model := modelBuiltFrom [98, 98, 97, 97] 256, inp := bitsP4 }) = true := by
  decide

/-- Settles O54 (C1, R161): program P4, the two sessions evaluated. -/
theorem roundTripFailsUnderTrunc : Obligations.RoundTripFailsUnderTrunc := by
  unfold Obligations.RoundTripFailsUnderTrunc
  obtain ⟨t, hrun, ht⟩ := Result.exists_of_nextHas encode_P4
  obtain ⟨u, hdec, hu⟩ := Result.exists_of_nextHas decode_P4_trunc
  rw [decide_eq_true_eq] at ht hu
  obtain ⟨hph, hout⟩ := ht
  obtain ⟨hfault, herr⟩ := hu
  rw [← hout] at hdec
  exact ⟨[98, 98, 97, 97], 256, truncEngine, t, u, rfl, by decide, by decide, by decide, hrun, hph, hdec, hfault, herr⟩

end Sys2Proof.Machine
end
